-- ==== Sys2Proof/Word.lean ====
section
/-! DEFINITION. The words and plain data of the Go-Back-N ARQ block: bytes, the sequence field, the
signed ack/log field and bit strings (spec 00 R9; 30 R91, R96, R100). -/

namespace Sys2Proof

/-- One byte of the source, of the sink and of the script. -/
abbrev Byte := BitVec 8

/-- The sequence field of a frame: `SEQ_WIDTH = 16` bits, unsigned (R7, R91). -/
abbrev SeqField := BitVec 16

/-- The ack field and the value field of a log record: `SEQ_WIDTH + 1` bits, two's complement
(R96, R100). -/
abbrev SignedField := BitVec 17

/-- "A *bit string* is a finite list of bits, index 0 first" (R9): index 0 is the earliest stream
bit and, in a word, the most significant. -/
abbrev BitString := List Bool

end Sys2Proof
end

