-- ==== Sys2Proof/Config.lean ====
section
/-! DEFINITION. What an implementation fixes (spec 00 R6, R7), the configuration inputs of a launch
(70 R280), and the free values: the schedule and the clock, which the spec leaves open
(47 R229, 60 R262, 93 U10, U11). -/

namespace Sys2Proof

/-- The operands of `SYS.CONSTRUCT` (R280). `dropPeriod` and `timeoutInterval` are integers because
the source names their non-positive values as errors (R245); `source = none` is the indication that
the source is unreadable (R251). -/
structure Launch where
  windowSize : Nat
  frameCapacityBits : Nat
  dropPeriod : Int
  timeoutInterval : Int
  pollTick : Nat
  source : Option (List Byte)
  t0 : Nat
deriving DecidableEq, Repr

/-- What `SYS.CONSTRUCT` builds (R283): "Both engines are constructed together", from a launch; or "a
receiver driven alone (for test) is constructed with `L` only" (log 26). -/
inductive Construction where
  | pair (launch : Launch)
  | receiverAlone (payloadBits : Nat)
deriving DecidableEq, Repr

/-- `SEQ_WIDTH` (R7): "16; kept as a named parameter". -/
abbrev Config.seqWidth : Nat := 16

/-- "one frame count per sequence number": the field represents `2^SEQ_WIDTH` slots (R128). -/
abbrev Config.maxFrames : Nat := 65536

/-- FREE VALUE (log 4): which enabled operation the scheduler takes at its n-th choice. The spec:
"any agent with an enabled operation may be chosen, in any state" (R229). -/
opaque Config.freePick : Nat → Nat

/-- FREE VALUE (log 4): by how much the environment would advance the clock at the n-th choice
(R226, R231). -/
opaque Config.freeDelay : Nat → Nat

/-- DESIGN CHOICE (log 5): the launch behind `State.reset` is the one R280 gives as its example:
`CONFIG W=4 C=32 P=4 T=10 POLL=1 T0=0`, `SOURCE "Hello World"`. -/
def Config.resetLaunch : Launch where
  windowSize := 4
  frameCapacityBits := 32
  dropPeriod := 4
  timeoutInterval := 10
  pollTick := 1
  source := some [0x48, 0x65, 0x6C, 0x6C, 0x6F, 0x20, 0x57, 0x6F, 0x72, 0x6C, 0x64]
  t0 := 0

end Sys2Proof
end

