-- ==== Sys2Proof/Syntax.lean ====
section
/-! DEFINITION. The formats the block carries (spec 30 R90) and its instruction set: one constructor
per row of opcode_table.json (30 R105, R108). -/

namespace Sys2Proof

/-- The faults of R245 (code 0 is "no fault"). -/
inductive FaultCode where
  | ok
  | configWindowSize
  | configFrameCapacity
  | configDropPeriod
  | configTimeout
  | sourceUnreadable
  | configFrameCount
  | malformedFrame
  | codecResidue
deriving DecidableEq, Repr

/-- The record kinds of R100; code 7 is reserved and never written, so it is no member. -/
inductive LogKind where
  | sent
  | dropped
  | ackAccepted
  | ackIgnored
  | timeout
  | writeDone
  | fault
deriving DecidableEq, Repr

/-- One record of the event log (R100, R215). -/
structure LogRecord where
  kind : LogKind
  val : Int
deriving DecidableEq, Repr

/-- A frame of the frame store (R40, R91): its length `plen` is the payload's own length. -/
structure Frame where
  seq : SeqField
  payload : BitString
deriving DecidableEq, Repr

/-- A data-channel message (R93). `payload` is the whole payload field, `L` bits, left-justified:
stream bit `j` at index `j`, the bits from `plen` on being padding. The fields of an `EOS` other
than its kind are ignored on receipt (R95), so the message has none. -/
inductive DataMsg where
  | frame (seq : SeqField) (plen : Nat) (payload : BitString)
  | eos
deriving DecidableEq, Repr

/-- The instruction set: 15 operations, 10 functions, 6 message patterns, 8 log record patterns. -/
inductive Instr where
  /-- `SYS.CONSTRUCT`, label 00 (R280, R283). -/
  | sysConstruct (built : Construction)
  /-- `ENV.ADVANCE`, label 01 (R226). -/
  | envAdvance (d : Nat)
  /-- `TX.FILL`, label 02 (R160). -/
  | txFill
  /-- `TX.POLL`, label 03 (R188). -/
  | txPoll
  /-- `TX.FINISH`, label 04 (R172). -/
  | txFinish
  /-- `TX.JOIN`, label 05 (R176). -/
  | txJoin
  /-- `TXA.ACK_ACCEPT`, label 06 (R166). -/
  | txaAckAccept
  /-- `TXA.ACK_IGNORE`, label 07 (R168). -/
  | txaAckIgnore
  /-- `TXA.IDLE`, label 08 (R232). -/
  | txaIdle
  /-- `TXA.STOP`, label 09 (R174). -/
  | txaStop
  /-- `RX.ACCEPT`, label 0A (R200). -/
  | rxAccept
  /-- `RX.REJECT`, label 0B (R202). -/
  | rxReject
  /-- `RX.EOS`, label 0C (R204). -/
  | rxEos
  /-- `RX.MALFORMED`, label 0D (R206). -/
  | rxMalformed
  /-- `RX.IDLE`, label 0E (R232). -/
  | rxIdle
  /-- `CODEC.ENCODE(sourceBytes, C)`, label 10 (R123). -/
  | codecEncode (source : List Byte) (capacity : Nat)
  /-- `CODEC.DECODE(payloads)`, label 11 (R126). -/
  | codecDecode (payloads : List BitString)
  /-- `LOSS.SHOULD_DROP(slotIndex, isFirstAttemptForSlot, dropPeriod)`, label 12 (R135). -/
  | lossShouldDrop (slot : Nat) (firstAttempt : Bool) (period : Nat)
  /-- `WIN.RANGE(base, W, N)`, label 13 (R146). -/
  | winRange (base window frames : Nat)
  /-- `WIN.SLIDE_SLOT(base', W, N)`, label 14 (R148). -/
  | winSlideSlot (base window frames : Nat)
  /-- `SEQ.XMIT(s, now)`, label 15 (R150); `now` is the clock's. -/
  | seqXmit (slot : Nat)
  /-- `SEQ.SENDWINDOW(now)`, label 16 (R152); `now` is the clock's. -/
  | seqSendWindow
  /-- `TMO.EXPIRED(s, now)`, label 17 (R185). -/
  | tmoExpired (slot : Nat) (at_ : Nat)
  /-- `TMO.ARB(now)`, label 18 (R186). -/
  | tmoArb (at_ : Nat)
  /-- `LOG.RECORD(lkind, lval)`, label 19 (R215). -/
  | logRecord (kind : LogKind) (val : SignedField)
  /-- `MSG.FRAME`: a `DM` word of kind 0 (R93, R94). -/
  | msgFrame (seq : SeqField) (plen : Nat) (payload : BitString)
  /-- `MSG.EOS`: a `DM` word of kind 1 (R93, R95). -/
  | msgEos (seq : SeqField) (plen : Nat) (payload : BitString)
  /-- `FMT.FRAME_F`: a frame in format `F` (R91). -/
  | fmtFrameF (seq : SeqField) (payload : BitString)
  /-- `MSG.ACK`: an `AM` word with bit 16 clear (R96, R97). -/
  | msgAck (slot : SeqField)
  /-- `MSG.ACK_NONE`: the `AM` word of all ones (R97). -/
  | msgAckNone
  /-- `MSG.ACK_UNEXPECTED`: an `AM` word with bit 16 set, not all ones (R97, R102). -/
  | msgAckUnexpected (low : SeqField)
  /-- `LOG.SENT`: an `LR` word of kind 0 (R100). -/
  | logSent (val : SignedField)
  /-- `LOG.DROPPED`: an `LR` word of kind 1 (R100). -/
  | logDropped (val : SignedField)
  /-- `LOG.ACK_ACCEPTED`: an `LR` word of kind 2 (R100). -/
  | logAckAccepted (val : SignedField)
  /-- `LOG.ACK_IGNORED`: an `LR` word of kind 3 (R100). -/
  | logAckIgnored (val : SignedField)
  /-- `LOG.TIMEOUT`: an `LR` word of kind 4 (R100). -/
  | logTimeout (val : SignedField)
  /-- `LOG.WRITE_DONE`: an `LR` word of kind 5 (R100). -/
  | logWriteDone (val : SignedField)
  /-- `LOG.FAULT`: an `LR` word of kind 6 (R100). -/
  | logFault (val : SignedField)
  /-- `LOG.RESERVED`: an `LR` word of kind 7, never written (R100, R102). -/
  | logReserved (val : SignedField)
deriving DecidableEq, Repr

end Sys2Proof
end

