-- ==== Sys2Proof/Decode.lean ====
section
/-! DEFINITION. The encodings of the spec (30 R91 to R100) and the decoder and encoder of the
instruction words the environment places in the script.

The block fetches nothing from a memory (20 R60): a script is the model's byte form of the schedule
of 30 R106. Each instruction is a leading byte (the 5-bit step label of R108, or, for a word of one of
the four formats of R90, a format byte of the model's own) and its operands (log 2). -/

namespace Sys2Proof

/-! ## Bits and numbers -/

/-- The number a bit string spells, index 0 most significant (R9, R62). -/
def bitsToNat : BitString → Nat
  | [] => 0
  | b :: bs => b.toNat * 2 ^ bs.length + bitsToNat bs

/-- The low `n` bits of `v`, most significant first. -/
def natToBits : Nat → Nat → BitString
  | 0, _ => []
  | n + 1, v => v.testBit n :: natToBits n v

/-- `PLEN_WIDTH` "is the least `w` with `2^w > L`" (R92). -/
def plenWidth (l : Nat) : Nat := if l = 0 then 0 else Nat.log2 l + 1

/-! ## The codes of the spec's tables -/

/-- The codes of R245. -/
def FaultCode.code : FaultCode → Nat
  | .ok => 0
  | .configWindowSize => 1
  | .configFrameCapacity => 2
  | .configDropPeriod => 3
  | .configTimeout => 4
  | .sourceUnreadable => 5
  | .configFrameCount => 6
  | .malformedFrame => 16
  | .codecResidue => 17

/-- The `lkind` codes of R100. -/
def LogKind.code : LogKind → Nat
  | .sent => 0
  | .dropped => 1
  | .ackAccepted => 2
  | .ackIgnored => 3
  | .timeout => 4
  | .writeDone => 5
  | .fault => 6

/-- The kind a code of R100 names; 7 is reserved. -/
def LogKind.ofCode : Nat → Option LogKind
  | 0 => some .sent
  | 1 => some .dropped
  | 2 => some .ackAccepted
  | 3 => some .ackIgnored
  | 4 => some .timeout
  | 5 => some .writeDone
  | 6 => some .fault
  | _ => none

/-! ## The words of the four formats -/

/-- The `DM` word: `kind ‖ seq ‖ plen ‖ payload`, most significant field first (R93). -/
def dmWord (kind : Nat) (seq : SeqField) (plen : Nat) (payload : BitString) : Nat :=
  ((kind * 2 ^ Config.seqWidth + seq.toNat) * 2 ^ plenWidth payload.length + plen)
    * 2 ^ payload.length + bitsToNat payload

/-- How many bits a `DM` word of payload width `l` has (R90). -/
def dmWidth (l : Nat) : Nat := 1 + Config.seqWidth + plenWidth l + l

/-- The word a message has on a data channel of payload width `l`; all fields of an `EOS` but its
kind are 0 (R93, R95). -/
def DataMsg.word (l : Nat) : DataMsg → Nat
  | .frame seq plen payload => dmWord 0 seq plen payload
  | .eos => dmWord 1 0 0 (List.replicate l false)

/-- The `F` word: `seq ‖ payload` (R91). -/
def frameWord (seq : SeqField) (payload : BitString) : Nat :=
  seq.toNat * 2 ^ payload.length + bitsToNat payload

/-- The `LR` word: `lkind ‖ lval` (R100). -/
def logWord (code : Nat) (val : SignedField) : Nat := code * 2 ^ 17 + val.toNat

/-- The word of a record of the log (R100). -/
def LogRecord.word (r : LogRecord) : Nat := logWord r.kind.code (BitVec.ofInt 17 r.val)

/-! ## What a script may hold that is no instruction -/

/-- Why the decoder rejects a byte string. -/
inductive DecodeError where
  /-- No byte is left. -/
  | empty
  /-- The bytes end inside an operand. -/
  | truncated
  /-- A step label that R108 leaves unused (0F, 1A to 1F). -/
  | unusedLabel (label : Nat)
  /-- A leading byte that is neither a step label nor a format byte. -/
  | unusedFormatByte (byte : Nat)
  /-- A word or bit string with a bit set above its width. -/
  | wordTooWide
  /-- A number with a needless leading zero group. -/
  | nonCanonicalNumber
  /-- A tag operand with no meaning (a boolean above 1, the reserved `lkind` 7). -/
  | badTag (tag : Nat)
deriving DecidableEq, Repr

/-- What a reader gives: the value and the bytes after it. -/
abbrev Read (α : Type) := Except DecodeError (α × List Byte)

/-- One operand read, and then the rest of the instruction from the bytes after it. -/
def thenRead {α β : Type} (r : Read α) (k : α → List Byte → Read β) : Read β :=
  match r with
  | .error e => .error e
  | .ok (a, rest) => k a rest

/-! ## Operands: writers and readers (the model's own byte forms, log 2) -/

/-- Seven bits a byte, least significant group first, bit 7 set on every byte but the last. -/
def writeGroups : Nat → Nat → List Byte
  | 0, n => [BitVec.ofNat 8 n]
  | fuel + 1, n =>
    if n < 128 then [BitVec.ofNat 8 n]
    else BitVec.ofNat 8 (128 + n % 128) :: writeGroups fuel (n / 128)

def writeNat (n : Nat) : List Byte := writeGroups n n

def readNat : List Byte → Read Nat
  | [] => .error .truncated
  | b :: bs =>
    if b.toNat < 128 then .ok (b.toNat, bs)
    else match readNat bs with
      | .error e => .error e
      | .ok (m, rest) =>
        if m = 0 then .error .nonCanonicalNumber else .ok (b.toNat - 128 + 128 * m, rest)

/-- A number that is at least 1, by its predecessor. -/
def writePos (n : Nat) : List Byte := writeNat (n - 1)

def readPos (bs : List Byte) : Read Nat := thenRead (readNat bs) fun n rest => .ok (n + 1, rest)

/-- An integer, folded: 0, -1, 1, -2, … as 0, 1, 2, 3, …. -/
def foldInt : Int → Nat
  | .ofNat n => 2 * n
  | .negSucc n => 2 * n + 1

def unfoldInt (n : Nat) : Int := if n % 2 = 0 then .ofNat (n / 2) else .negSucc (n / 2)

def writeInt (i : Int) : List Byte := writeNat (foldInt i)

def readInt (bs : List Byte) : Read Int :=
  thenRead (readNat bs) fun n rest => .ok (unfoldInt n, rest)

def writeBool (b : Bool) : List Byte := writeNat b.toNat

def readBool (bs : List Byte) : Read Bool :=
  thenRead (readNat bs) fun n rest =>
    if n = 0 then .ok (false, rest) else if n = 1 then .ok (true, rest) else .error (.badTag n)

/-- A word of `width` bits: a number below `2^width`. -/
def readWord (width : Nat) (bs : List Byte) : Read Nat :=
  thenRead (readNat bs) fun n rest =>
    if n < 2 ^ width then .ok (n, rest) else .error .wordTooWide

def writeSigned (v : SignedField) : List Byte := writeNat v.toNat

def readSigned (bs : List Byte) : Read SignedField :=
  thenRead (readWord 17 bs) fun n rest => .ok (BitVec.ofNat 17 n, rest)

def writeBytes (l : List Byte) : List Byte := writeNat l.length ++ l

def readBytes (bs : List Byte) : Read (List Byte) :=
  thenRead (readNat bs) fun n rest =>
    if n ≤ rest.length then .ok (rest.take n, rest.drop n) else .error .truncated

def writeSource : Option (List Byte) → List Byte
  | none => writeBool false
  | some l => writeBool true ++ writeBytes l

def readSource (bs : List Byte) : Read (Option (List Byte)) :=
  thenRead (readBool bs) fun readable rest =>
    if readable then thenRead (readBytes rest) fun l rest => .ok (some l, rest)
    else .ok (none, rest)

def writeBits (p : BitString) : List Byte := writeNat p.length ++ writeNat (bitsToNat p)

def readBits (bs : List Byte) : Read BitString :=
  thenRead (readNat bs) fun n rest =>
    thenRead (readWord n rest) fun v rest => .ok (natToBits n v, rest)

def writeBitsList (ps : List BitString) : List Byte := writeNat ps.length ++ ps.flatMap writeBits

def readBitsTimes : Nat → List Byte → Read (List BitString)
  | 0, bs => .ok ([], bs)
  | n + 1, bs =>
    thenRead (readBits bs) fun p rest =>
      thenRead (readBitsTimes n rest) fun ps rest => .ok (p :: ps, rest)

def readBitsList (bs : List Byte) : Read (List BitString) :=
  thenRead (readNat bs) fun n rest => readBitsTimes n rest

def writeLogKind (k : LogKind) : List Byte := writeNat k.code

def readLogKind (bs : List Byte) : Read LogKind :=
  thenRead (readNat bs) fun n rest =>
    match LogKind.ofCode n with
    | some k => .ok (k, rest)
    | none => .error (.badTag n)

def writeLaunch (l : Launch) : List Byte :=
  writeNat l.windowSize ++ (writeNat l.frameCapacityBits ++ (writeInt l.dropPeriod
    ++ (writeInt l.timeoutInterval ++ (writeNat l.pollTick ++ (writeSource l.source ++ writeNat l.t0)))))

def readLaunch (bs : List Byte) : Read Launch :=
  thenRead (readNat bs) fun windowSize bs =>
  thenRead (readNat bs) fun frameCapacityBits bs =>
  thenRead (readInt bs) fun dropPeriod bs =>
  thenRead (readInt bs) fun timeoutInterval bs =>
  thenRead (readNat bs) fun pollTick bs =>
  thenRead (readSource bs) fun source bs =>
  thenRead (readNat bs) fun t0 bs =>
    .ok (⟨windowSize, frameCapacityBits, dropPeriod, timeoutInterval, pollTick, source, t0⟩, bs)

/-- A launch of both engines, or a receiver alone (R283; log 2). -/
def writeConstruction : Construction → List Byte
  | .pair l => writeBool false ++ writeLaunch l
  | .receiverAlone n => writeBool true ++ writeNat n

def readConstruction (bs : List Byte) : Read Construction :=
  thenRead (readBool bs) fun alone bs =>
    if alone then thenRead (readNat bs) fun n bs => .ok (.receiverAlone n, bs)
    else thenRead (readLaunch bs) fun l bs => .ok (.pair l, bs)

/-! ## The words of the formats, read back -/

/-- The `DM` word of payload width `l` (R93): the kind in its top bit. -/
def decodeDm (l w : Nat) : Instr :=
  let payload := natToBits l w
  let plen := w / 2 ^ l % 2 ^ plenWidth l
  let seq := BitVec.ofNat 16 (w / 2 ^ (l + plenWidth l))
  if w / 2 ^ (l + plenWidth l + Config.seqWidth) % 2 = 0 then .msgFrame seq plen payload
  else .msgEos seq plen payload

/-- The `F` word with `n` payload bits (R91). -/
def decodeF (n w : Nat) : Instr := .fmtFrameF (BitVec.ofNat 16 (w / 2 ^ n)) (natToBits n w)

/-- The `AM` word (R97): bit 16 is the sign; all ones is the sentinel. -/
def decodeAm (w : Nat) : Instr :=
  if w < 2 ^ 16 then .msgAck (BitVec.ofNat 16 w)
  else if w = 0x1FFFF then .msgAckNone
  else .msgAckUnexpected (BitVec.ofNat 16 w)

/-- The `LR` word (R100): `lkind` in `[19:17]`, `lval` in `[16:0]`. -/
def decodeLr (w : Nat) : Instr :=
  let val : SignedField := BitVec.ofNat 17 w
  match w / 2 ^ 17 % 8 with
  | 0 => .logSent val
  | 1 => .logDropped val
  | 2 => .logAckAccepted val
  | 3 => .logAckIgnored val
  | 4 => .logTimeout val
  | 5 => .logWriteDone val
  | 6 => .logFault val
  | _ => .logReserved val

/-! ## The decoder -/

/-- The operands of the step label or format byte `head`, read from the bytes after it (R108; format
bytes 20, 21, 22, 23 stand for `DM`, `F`, `AM`, `LR`). -/
def decodeAfter (head : Nat) (bs : List Byte) : Read Instr :=
  match head with
  | 0x00 => thenRead (readConstruction bs) fun c bs => .ok (.sysConstruct c, bs)
  | 0x01 => thenRead (readNat bs) fun d bs => .ok (.envAdvance d, bs)
  | 0x02 => .ok (.txFill, bs)
  | 0x03 => .ok (.txPoll, bs)
  | 0x04 => .ok (.txFinish, bs)
  | 0x05 => .ok (.txJoin, bs)
  | 0x06 => .ok (.txaAckAccept, bs)
  | 0x07 => .ok (.txaAckIgnore, bs)
  | 0x08 => .ok (.txaIdle, bs)
  | 0x09 => .ok (.txaStop, bs)
  | 0x0A => .ok (.rxAccept, bs)
  | 0x0B => .ok (.rxReject, bs)
  | 0x0C => .ok (.rxEos, bs)
  | 0x0D => .ok (.rxMalformed, bs)
  | 0x0E => .ok (.rxIdle, bs)
  | 0x10 =>
    thenRead (readBytes bs) fun source bs =>
    thenRead (readNat bs) fun capacity bs => .ok (.codecEncode source capacity, bs)
  | 0x11 => thenRead (readBitsList bs) fun payloads bs => .ok (.codecDecode payloads, bs)
  | 0x12 =>
    thenRead (readNat bs) fun slot bs =>
    thenRead (readBool bs) fun first bs =>
    thenRead (readPos bs) fun period bs => .ok (.lossShouldDrop slot first period, bs)
  | 0x13 =>
    thenRead (readNat bs) fun base bs =>
    thenRead (readPos bs) fun window bs =>
    thenRead (readNat bs) fun frames bs => .ok (.winRange base window frames, bs)
  | 0x14 =>
    thenRead (readNat bs) fun base bs =>
    thenRead (readPos bs) fun window bs =>
    thenRead (readNat bs) fun frames bs => .ok (.winSlideSlot base window frames, bs)
  | 0x15 => thenRead (readNat bs) fun slot bs => .ok (.seqXmit slot, bs)
  | 0x16 => .ok (.seqSendWindow, bs)
  | 0x17 =>
    thenRead (readNat bs) fun slot bs =>
    thenRead (readNat bs) fun t bs => .ok (.tmoExpired slot t, bs)
  | 0x18 => thenRead (readNat bs) fun t bs => .ok (.tmoArb t, bs)
  | 0x19 =>
    thenRead (readLogKind bs) fun kind bs =>
    thenRead (readSigned bs) fun val bs => .ok (.logRecord kind val, bs)
  | 0x20 =>
    thenRead (readPos bs) fun l bs =>
    thenRead (readWord (dmWidth l) bs) fun w bs => .ok (decodeDm l w, bs)
  | 0x21 =>
    thenRead (readPos bs) fun n bs =>
    thenRead (readWord (Config.seqWidth + n) bs) fun w bs => .ok (decodeF n w, bs)
  | 0x22 => thenRead (readWord 17 bs) fun w bs => .ok (decodeAm w, bs)
  | 0x23 => thenRead (readWord 20 bs) fun w bs => .ok (decodeLr w, bs)
  | n => .error (if n < 32 then .unusedLabel n else .unusedFormatByte n)

/-- The instruction at the front of a script and the bytes after it; total, rejecting by name. -/
def decode : List Byte → Read Instr
  | [] => .error .empty
  | b :: bs => decodeAfter b.toNat bs

/-! ## The encoder -/

/-- The bytes of an instruction: its step label (R108) and operands, or its format byte and word. -/
def encode : Instr → List Byte
  | .sysConstruct c => 0x00 :: writeConstruction c
  | .envAdvance d => 0x01 :: writeNat d
  | .txFill => [0x02]
  | .txPoll => [0x03]
  | .txFinish => [0x04]
  | .txJoin => [0x05]
  | .txaAckAccept => [0x06]
  | .txaAckIgnore => [0x07]
  | .txaIdle => [0x08]
  | .txaStop => [0x09]
  | .rxAccept => [0x0A]
  | .rxReject => [0x0B]
  | .rxEos => [0x0C]
  | .rxMalformed => [0x0D]
  | .rxIdle => [0x0E]
  | .codecEncode src c => 0x10 :: (writeBytes src ++ writeNat c)
  | .codecDecode ps => 0x11 :: writeBitsList ps
  | .lossShouldDrop slot first period => 0x12 :: (writeNat slot ++ (writeBool first ++ writePos period))
  | .winRange b w n => 0x13 :: (writeNat b ++ (writePos w ++ writeNat n))
  | .winSlideSlot b w n => 0x14 :: (writeNat b ++ (writePos w ++ writeNat n))
  | .seqXmit slot => 0x15 :: writeNat slot
  | .seqSendWindow => [0x16]
  | .tmoExpired slot t => 0x17 :: (writeNat slot ++ writeNat t)
  | .tmoArb t => 0x18 :: writeNat t
  | .logRecord kind val => 0x19 :: (writeLogKind kind ++ writeSigned val)
  | .msgFrame seq plen payload =>
    0x20 :: (writePos payload.length ++ writeNat (dmWord 0 seq plen payload))
  | .msgEos seq plen payload =>
    0x20 :: (writePos payload.length ++ writeNat (dmWord 1 seq plen payload))
  | .fmtFrameF seq payload => 0x21 :: (writePos payload.length ++ writeNat (frameWord seq payload))
  | .msgAck slot => 0x22 :: writeNat slot.toNat
  | .msgAckNone => 0x22 :: writeNat 0x1FFFF
  | .msgAckUnexpected low => 0x22 :: writeNat (2 ^ 16 + low.toNat)
  | .logSent val => 0x23 :: writeNat (logWord 0 val)
  | .logDropped val => 0x23 :: writeNat (logWord 1 val)
  | .logAckAccepted val => 0x23 :: writeNat (logWord 2 val)
  | .logAckIgnored val => 0x23 :: writeNat (logWord 3 val)
  | .logTimeout val => 0x23 :: writeNat (logWord 4 val)
  | .logWriteDone val => 0x23 :: writeNat (logWord 5 val)
  | .logFault val => 0x23 :: writeNat (logWord 6 val)
  | .logReserved val => 0x23 :: writeNat (logWord 7 val)

/-! ## The opcode table's own words -/

/-- A word of opcode_table.json laid out as a script holds it, without its operands (log 3): the
table's row width names its format. In a whole number of bytes `AM` (17 bits) and `LR` (20 bits) are
both 24 wide; a word below `2^17` is then read as the ack word the block receives, since an `LR` word
below `2^17` differs from it in nothing. -/
def tableBytes (nbits w : Nat) : Option (List Byte) :=
  if nbits ≤ 8 then
    if w < 32 then some [BitVec.ofNat 8 w] else none
  else if nbits = 17 ∨ (nbits = 24 ∧ w < 2 ^ 17) then some (0x22 :: writeNat w)
  else if nbits = 20 ∨ nbits = 24 then some (0x23 :: writeNat w)
  else if nbits = 32 then some (0x21 :: (writePos 16 ++ writeNat w))
  else if nbits = 38 ∨ nbits = 40 then some (0x20 :: (writePos 16 ++ writeNat w))
  else none

/-- Operand bytes of zeros, as many as the longest row needs. -/
def operandZeros : List Byte := List.replicate 16 0

/-- The bytes of the table's word with operands of zeros, and nothing after them. -/
def tableScript (nbits w : Nat) : Option (List Byte) :=
  match tableBytes nbits w with
  | none => none
  | some bs =>
    match decode (bs ++ operandZeros) with
    | .error _ => none
    | .ok (_, rest) => some ((bs ++ operandZeros).take (bs.length + operandZeros.length - rest.length))

/-- The instruction the decoder reads from a word of opcode_table.json whose operands are zeros. -/
def decodeTableWord (nbits w : Nat) : Option Instr :=
  match tableBytes nbits w with
  | none => none
  | some bs =>
    match decode (bs ++ operandZeros) with
    | .error _ => none
    | .ok (i, _) => some i

end Sys2Proof
end

