-- ==== Sys2Proof/WellFormed.lean ====
section
/-! DEFINITION. Which terms of `Instr` are instructions: the operand bounds that the spec states for a
row and that the types do not already carry. -/

namespace Sys2Proof

/-- A `DM` word has a payload field (`L ≥ 1`, R37), and `plen` fits its own, `PLEN_WIDTH` bits wide
(R92, R93). -/
def dmFieldsFit (plen l : Nat) : Bool := 1 ≤ l && plen < 2 ^ plenWidth l

/-- The operand bounds of each row. -/
def Instr.wellFormed : Instr → Bool
  | .sysConstruct _ => true
  | .envAdvance _ => true
  | .txFill => true
  | .txPoll => true
  | .txFinish => true
  | .txJoin => true
  | .txaAckAccept => true
  | .txaAckIgnore => true
  | .txaIdle => true
  | .txaStop => true
  | .rxAccept => true
  | .rxReject => true
  | .rxEos => true
  | .rxMalformed => true
  | .rxIdle => true
  | .codecEncode _ _ => true
  | .codecDecode _ => true
  -- "`dropPeriod` (natural `≥ 1`)" (R135)
  | .lossShouldDrop _ _ period => 1 ≤ period
  -- `W = windowSize`, "≥ 1" (R146, R148, R6)
  | .winRange _ window _ => 1 ≤ window
  | .winSlideSlot _ window _ => 1 ≤ window
  | .seqXmit _ => true
  | .seqSendWindow => true
  | .tmoExpired _ _ => true
  | .tmoArb _ => true
  | .logRecord _ _ => true
  | .msgFrame _ plen payload => dmFieldsFit plen payload.length
  | .msgEos _ plen payload => dmFieldsFit plen payload.length
  -- "`SEQ_WIDTH + 1 ≤ length`" (R90)
  | .fmtFrameF _ payload => 1 ≤ payload.length
  | .msgAck _ => true
  | .msgAckNone => true
  -- all ones is `ACK_NONE` (R97)
  | .msgAckUnexpected low => low ≠ 0xFFFF
  | .logSent _ => true
  | .logDropped _ => true
  | .logAckAccepted _ => true
  | .logAckIgnored _ => true
  | .logTimeout _ => true
  | .logWriteDone _ => true
  | .logFault _ => true
  | .logReserved _ => true

end Sys2Proof
end

