-- ==== Sys2Proof/Machine/Codec.lean ====
section
/-! DEFINITION. The Frame Codec's two functions (spec 40): `CODEC.ENCODE` and `CODEC.DECODE`, functions
of their arguments alone (R120). What executing their rows does stands in Functions.lean. -/

namespace Sys2Proof.Machine

/-- `plen` of a frame: its payload's length in bits (R18, R124). -/
def frameLen (f : Frame) : Nat := f.payload.length

/-- The eight bits of a byte, most significant first (R121). -/
def byteBits (b : Byte) : BitString := natToBits 8 b.toNat

/-- The bit stream of a source (R121). -/
def bitStream (source : List Byte) : BitString := source.flatMap byteBits

/-- `ceil(a / b)` for `b ≥ 1` (R9). -/
def ceilDiv (a b : Nat) : Nat := (a + (b - 1)) / b

/-- Slot `s` of a stream `B` cut in payloads of `L` bits: `B[lo .. hi-1]` with `lo = s * L` and
`hi = min((s + 1) * L, total)` (R123). -/
def frameOf (stream : BitString) (l s : Nat) : Frame where
  seq := BitVec.ofNat 16 s
  payload := (stream.drop (s * l)).take (min ((s + 1) * l) stream.length - s * l)

/-- How many frames a source of `len` bytes has at payload capacity `l` (R124). -/
def frameCount (len l : Nat) : Nat := ceilDiv (8 * len) l

/-- `CODEC.ENCODE` (R123): all frames or a construction fault (R130). -/
def encodeSource (source : List Byte) (capacity : Nat) : Except FaultCode (List Frame) :=
  if capacity ≤ Config.seqWidth then .error .configFrameCapacity
  else
    let l := capacity - Config.seqWidth
    let n := frameCount source.length l
    if Config.maxFrames < n then .error .configFrameCount
    else .ok ((List.range n).map (frameOf (bitStream source) l))

/-- The `k`-th whole byte of a bit string (R126). -/
def byteAt (stream : BitString) (k : Nat) : Byte :=
  BitVec.ofNat 8 (bitsToNat ((stream.drop (8 * k)).take 8))

/-- What `CODEC.DECODE` gives: the whole bytes, and how many bits are left over. A residue other than
0 is the fault `CodecResidue(residue)`, with the whole bytes kept (R126, R131). -/
structure Decoded where
  bytes : List Byte
  residue : Nat
deriving DecidableEq, Repr

/-- `CODEC.DECODE` (R126, R131). -/
def decodePayloads (payloads : List BitString) : Decoded where
  bytes := (List.range (payloads.flatten.length / 8)).map (byteAt payloads.flatten)
  residue := payloads.flatten.length % 8

end Sys2Proof.Machine
end

