-- ==== Sys2Proof/Machine/State.lean ====
section
/-! DEFINITION. The state of the block (spec 10 R20) as plain data, the reasons a step can stop, and
the state after reset. Time values are natural numbers of ticks (R8). The groups of R20 are structures;
the last three fields of `State` are the model's own. -/

namespace Sys2Proof.Machine

/-- The sender FSM state register (R26). -/
inductive SState where
  | filling
  | watching
  | sliding
  | retransmitting
  | done
deriving DecidableEq, Repr

/-- The receiver FSM state register (R34). -/
inductive RState where
  | accepting
  | stopped
deriving DecidableEq, Repr

/-- The configuration register file (R37). `SEQ_WIDTH` and `L` are hardwired: see
`ConfigRegs.seqWidth` and `ConfigRegs.payloadBits`. -/
structure ConfigRegs where
  windowSize : Nat
  frameCapacityBits : Nat
  dropPeriod : Nat
  timeoutInterval : Nat
  /-- `N` (R37 index 6). -/
  totalFrames : Nat
  pollTick : Nat
  /-- The construction status register (R38). -/
  cstatus : FaultCode
  /-- The model's own: a Sender Engine has been constructed; none has where the receiver is driven
  alone (R283; log 26). -/
  senderBuilt : Bool
deriving DecidableEq, Repr

/-- WindowState, "owned exclusively by the Sender Engine" (R20 to R25). -/
structure WindowState where
  base : Nat
  sendTimestamp : List (Option Nat)
  acked : List Bool
  droppedOnce : List Bool
deriving DecidableEq, Repr

/-- Sender control state (R26 to R30). -/
structure SenderControl where
  sstate : SState
  eosPushed : Bool
  listenerStopped : Bool
  senderComplete : Bool
  lastPoll : Nat
deriving DecidableEq, Repr

/-- ReceiverCursor, "owned exclusively by the Receiver Engine" (R32, R33). -/
structure ReceiverCursor where
  expected : Nat
  assembled : List BitString
deriving DecidableEq, Repr

/-- Receiver control state (R34, R35). -/
structure ReceiverControl where
  rstate : RState
  writeDone : Bool
deriving DecidableEq, Repr

/-- The result of a function row executed on its own (log 7): the model's, not the spec's. -/
inductive FnResult where
  | none
  | frames (fs : List Frame)
  | raised (fault : FaultCode)
  | decoded (d : Decoded)
  | flag (b : Bool)
  | slots (l : List Nat)
  | slot (s : Option Nat)
  | expiry (expired : List Nat) (timeoutAny : Bool)
deriving DecidableEq, Repr

end Sys2Proof.Machine

namespace Sys2Proof.Machine

/-- The state of the block. -/
structure State where
  /-- Configuration registers (R37, R38). -/
  cfg : ConfigRegs
  /-- WindowState (R21 to R25). -/
  win : WindowState
  /-- Sender control (R26 to R30). -/
  snd : SenderControl
  /-- ReceiverCursor (R32, R33). -/
  cur : ReceiverCursor
  /-- Receiver control (R34, R35). -/
  rcv : ReceiverControl
  /-- The frame store (R40). -/
  fs : List Frame
  /-- The data channel, head first (R41). -/
  dch : List DataMsg
  /-- The ack channel, head first (R42). -/
  ach : List SignedField
  /-- The clock (R39). -/
  now : Nat
  /-- The event log, oldest first (R43). -/
  log : List LogRecord
  /-- The byte sink; `none` is `unwritten` (R44). -/
  sink : Option (List Byte)
  /-- The source (R45). -/
  source : List Byte
  /-- The model's own: the bytes the environment has placed to be executed next (log 1). -/
  script : List Byte
  /-- The model's own: how many choices the free schedule has made (log 4). -/
  turn : Nat
  /-- The model's own: the result of the last function row executed on its own (log 7). -/
  fnResult : FnResult
deriving DecidableEq, Repr

/-- Why the machine stops. The first five are the conditions R256 asks a model to make faults; all are
safe: the machine stops where the block has no such step. An operation whose guard does not hold is no
stop: it waits, and nothing changes (`runOperation`; log 6). -/
inductive Fault where
  /-- Any operation with `cstatus ≠ OK` (R38, R246, R256). Raised by every operation and by every row
  that touches the engines. Safe. -/
  | engineNotConstructed
  /-- An access to a slot outside `[0, N)` (R65, R256). Raised by `SEQ.XMIT`, `SEQ.SENDWINDOW`,
  `TMO.EXPIRED`, `TMO.ARB` and the operations that contain them. Safe. -/
  | slotOutOfRange
  /-- `sendTimestamp[s] = NONE` compared (R185, R256). Raised by `TMO.EXPIRED`, `TMO.ARB` and
  `TX.POLL`. Safe. -/
  | timestampNone
  /-- `now < sendTimestamp[s]` (R256). Raised by `TMO.EXPIRED`, `TMO.ARB` and `TX.POLL`. Safe. -/
  | clockBehindStamp
  /-- `Deq` on an empty channel (R256); every guard excludes it. Safe. -/
  | deqOnEmpty
  /-- `SEQ.XMIT` on a slot outside the active window, "the only slots `XMIT` may be applied to" (R61).
  Raised by the row `SEQ.XMIT` executed on its own. Safe. -/
  | slotOutsideWindow
  /-- A drop period of 0: construction refuses it (R16, R282). Raised by `LOSS.SHOULD_DROP` and
  `SEQ.XMIT`. Safe. -/
  | dropPeriodZero
  /-- A message word whose payload field is not the channel's, which is "fixed per configuration"
  (R90). Raised by `MSG.FRAME`, `MSG.EOS` and `FMT.FRAME_F`. Safe. -/
  | messageWidthMismatch
  /-- `lkind = 7`, "reserved", "never written" (R100, R102). Raised by `LOG.RESERVED`. Safe. -/
  | reservedLogKind
deriving DecidableEq, Repr

/-- Why the model declines a step. -/
inductive Refusal where
  /-- An instruction that has no meaning yet; raised by no arm of `exec`. Safe. -/
  | notModelled (mnemonic : String)
  /-- The script's bytes are no instruction; raised by `step`. Safe. -/
  | undecodable (why : DecodeError)
  /-- The script's instruction breaks an operand bound of its row (WellFormed); raised by `step`.
  Safe. -/
  | illFormed
deriving DecidableEq, Repr

/-- What every instruction's meaning answers. -/
abbrev Outcome := Host.Outcome State Fault Refusal

/-- The state right after construction from `Config.resetLaunch` (R49, R280; log 5). -/
def State.reset : State where
  cfg :=
    { windowSize := 4, frameCapacityBits := 32, dropPeriod := 4, timeoutInterval := 10
      totalFrames := 6, pollTick := 1, cstatus := .ok, senderBuilt := true }
  win :=
    { base := 0, sendTimestamp := List.replicate 6 none
      acked := List.replicate 6 false, droppedOnce := List.replicate 6 false }
  snd :=
    { sstate := .filling, eosPushed := false, listenerStopped := false, senderComplete := false
      lastPoll := 0 }
  cur := { expected := 0, assembled := [] }
  rcv := { rstate := .accepting, writeDone := false }
  fs :=
    [ { seq := 0, payload := natToBits 16 0x4865 }, { seq := 1, payload := natToBits 16 0x6C6C }
    , { seq := 2, payload := natToBits 16 0x6F20 }, { seq := 3, payload := natToBits 16 0x576F }
    , { seq := 4, payload := natToBits 16 0x726C }, { seq := 5, payload := natToBits 8 0x64 } ]
  dch := []
  ach := []
  now := 0
  log := []
  sink := none
  source := [0x48, 0x65, 0x6C, 0x6C, 0x6F, 0x20, 0x57, 0x6F, 0x72, 0x6C, 0x64]
  script := []
  turn := 0
  fnResult := .none

end Sys2Proof.Machine
end

