-- ==== Sys2Proof/Machine/Operands.lean ====
section
/-! DEFINITION. Operand assembly (spec 30 R97 to R99): what the head message of a channel gives an
operation, the configuration registers as operands, and the messages an operation builds. -/

namespace Sys2Proof.Machine

/-- Configuration register 4, hardwired 16 (R37). -/
def ConfigRegs.seqWidth (_ : ConfigRegs) : Nat := Config.seqWidth

/-- Configuration register 5, `L`, hardwired `frameCapacityBits - SEQ_WIDTH` (R37). -/
def ConfigRegs.payloadBits (c : ConfigRegs) : Nat := c.frameCapacityBits - Config.seqWidth

/-- The configuration register file by the index of R37's table. -/
def ConfigRegs.read (c : ConfigRegs) : Nat → Option Nat
  | 0 => some c.windowSize
  | 1 => some c.frameCapacityBits
  | 2 => some c.dropPeriod
  | 3 => some c.timeoutInterval
  | 4 => some c.seqWidth
  | 5 => some c.payloadBits
  | 6 => some c.totalFrames
  | 7 => some c.pollTick
  | 8 => some c.cstatus.code
  | _ => none

/-- The sender FSM state codes (R26). -/
def SState.code : SState → Nat
  | .filling => 0
  | .watching => 1
  | .sliding => 2
  | .retransmitting => 3
  | .done => 4

/-- The receiver FSM state codes (R34). -/
def RState.code : RState → Nat
  | .accepting => 0
  | .stopped => 1

/-- "The integer carried by an ack message is `sext(ack[SEQ_WIDTH:0])`" (R97). -/
def ackValue (a : SignedField) : Int := a.toInt

/-- The ack message of value `v` (R96). -/
def ackOf (v : Int) : SignedField := BitVec.ofInt 17 v

/-- "The sequence number of a received frame is `zext(seq)`" (R98). -/
def seqValue (seq : SeqField) : Nat := seq.toNat

/-- "On receipt a `FRAME` is *well formed* when `1 ≤ plen ≤ L`" (R94). -/
def plenWellFormed (l plen : Nat) : Bool := 1 ≤ plen && plen ≤ l

/-- The payload a receiver takes of a message: its first `plen` bits; the rest are "ignored on
receive" (R93). -/
def payloadOf (plen : Nat) (payload : BitString) : BitString := payload.take plen

/-- A payload left-justified in a field of `l` bits; "the low `L - plen` bits are 0 on transmit"
(R93). -/
def payloadField (l : Nat) (payload : BitString) : BitString :=
  payload ++ List.replicate (l - payload.length) false

/-- The `FRAME` message of a frame: "`seq = s`, `plen = FS[s].plen`, `payload = FS[s].payload`"
(R94). -/
def frameMsg (l : Nat) (f : Frame) : DataMsg := .frame f.seq (frameLen f) (payloadField l f.payload)

end Sys2Proof.Machine
end

