-- ==== Sys2Proof/Machine/Flags.lean ====
section
/-! DEFINITION. The condition results of the block (spec 10 R48, checklist B3): the guards that enable
each operation (30 R108, R109; 43, 44, 45; 47 R226, R232) and the comparisons they are made of. There
is no condition-code register: none of these is stored. -/

namespace Sys2Proof.Machine

/-! ## The head of a channel, as a guard sees it -/

/-- The listener's head ack equals `base` (R164: the comparison of the signed ack value). -/
def ackIsBase (s : State) (a : SignedField) : Bool := ackValue a == (s.win.base : Int)

/-- The listener runs: there is a Sender Engine, not stopped and `sstate ≠ Done` (R108). -/
def listening (s : State) : Bool :=
  s.cfg.senderBuilt && !s.snd.listenerStopped && s.snd.sstate != .done

/-- The receiver consumes: `rstate = Accepting` (R34). -/
def accepting (s : State) : Bool := s.rcv.rstate == .accepting

/-- The sequence number of the head message, if it is a well-formed frame (R94, R98). -/
def headSeq (s : State) : Option Nat :=
  match s.dch.head? with
  | some (.frame seq plen _) =>
    if plenWellFormed s.cfg.payloadBits plen then some (seqValue seq) else none
  | _ => none

/-- The head message is a malformed frame: `plen = 0` or `plen > L` (R206). -/
def headMalformed (s : State) : Bool :=
  match s.dch.head? with
  | some (.frame _ plen _) => !plenWellFormed s.cfg.payloadBits plen
  | _ => false

/-! ## The guards of R108

The sender's operations are enabled only where a Sender Engine has been constructed: a receiver driven
alone has none (R283; log 26). -/

def txFillEnabled (s : State) : Bool := s.cfg.senderBuilt && s.snd.sstate == .filling

def txPollEnabled (s : State) : Bool := s.cfg.senderBuilt && s.snd.sstate == .watching

def txFinishEnabled (s : State) : Bool :=
  s.cfg.senderBuilt && s.snd.sstate == .done && !s.snd.eosPushed

def txJoinEnabled (s : State) : Bool :=
  s.cfg.senderBuilt && s.snd.eosPushed && s.snd.listenerStopped && !s.snd.senderComplete

def txaAckAcceptEnabled (s : State) : Bool :=
  listening s && s.ach.head?.any (ackIsBase s)

def txaAckIgnoreEnabled (s : State) : Bool :=
  listening s && s.ach.head?.any (fun a => !ackIsBase s a)

def txaIdleEnabled (s : State) : Bool := listening s && s.ach.isEmpty

def txaStopEnabled (s : State) : Bool :=
  s.cfg.senderBuilt && !s.snd.listenerStopped && s.snd.sstate == .done

def rxAcceptEnabled (s : State) : Bool := accepting s && headSeq s == some s.cur.expected

def rxRejectEnabled (s : State) : Bool :=
  accepting s && (headSeq s).any (fun seq => seq != s.cur.expected)

def rxEosEnabled (s : State) : Bool := accepting s && s.dch.head? == some .eos

def rxMalformedEnabled (s : State) : Bool := accepting s && headMalformed s

def rxIdleEnabled (s : State) : Bool := accepting s && s.dch.isEmpty

/-- The latency contract (R236): "`ENV.ADVANCE(d)` with `d > 0` is enabled only if
`sstate ≠ Watching` or `now + d ≤ lastPoll + POLL_TICK`"; `d = 0` always. -/
def envAdvanceEnabled (d : Nat) (s : State) : Bool :=
  d == 0 || s.snd.sstate != .watching || decide (s.now + d ≤ s.snd.lastPoll + s.cfg.pollTick)

end Sys2Proof.Machine
end

