-- ==== Sys2Proof/Machine/Ops.lean ====
section
/-! DEFINITION. The named operations over the block's stores, channels and registers (spec 00 R11,
20 R60, R67), the canonical form of the stores, and the shared entry to and return from the block's
exceptional paths (60 R246, R252, R265, R266). -/

namespace Sys2Proof.Machine

/-! ## The canonical form of the stores -/

/-- The stores stand in their one form: `FS` and the per-slot files have exactly `N` entries, `N` fits
the sequence field, frame `s` carries `seq = s`, and no payload is empty or longer than `L`
(R40, R60, R65, R124, R125; log 19). -/
abbrev Memory.wf (s : State) : Prop :=
  s.fs.length = s.cfg.totalFrames ∧
  s.win.sendTimestamp.length = s.cfg.totalFrames ∧
  s.win.acked.length = s.cfg.totalFrames ∧
  s.win.droppedOnce.length = s.cfg.totalFrames ∧
  s.cfg.totalFrames ≤ Config.maxFrames ∧
  (∀ i, i < s.cfg.totalFrames → (s.fs[i]?).map Frame.seq = some (BitVec.ofNat 16 i)) ∧
  (∀ f ∈ s.fs, 1 ≤ frameLen f ∧ frameLen f ≤ s.cfg.payloadBits)

/-! ## The primitives of R11 -/

/-- `FrameRead(s)`: "`s` must be in `[0, N)`" (R11); outside it a model fault (R65, R256). -/
def State.frameRead (slot : Nat) (s : State) : Except Fault Frame :=
  match s.fs[slot]? with
  | some f => .ok f
  | none => .error .slotOutOfRange

/-- `Enq(DCH, m)`: at the tail, never blocks, never fails (R11, R71). -/
def State.enqData (m : DataMsg) (s : State) : State := { s with dch := s.dch ++ [m] }

/-- `Enq(ACH, m)` (R11, R71). -/
def State.enqAck (a : SignedField) (s : State) : State := { s with ach := s.ach ++ [a] }

/-- `Deq(DCH)`: remove and return the head (R11); empty is a model fault (R256). -/
def State.deqData (s : State) : Except Fault (DataMsg × State) :=
  match s.dch with
  | m :: rest => .ok (m, { s with dch := rest })
  | [] => .error .deqOnEmpty

/-- `Deq(ACH)` (R11, R256). -/
def State.deqAck (s : State) : Except Fault (SignedField × State) :=
  match s.ach with
  | a :: rest => .ok (a, { s with ach := rest })
  | [] => .error .deqOnEmpty

/-- `Append(assembled, p)` (R11, R33). -/
def State.appendPayload (p : BitString) (s : State) : State :=
  { s with cur := { s.cur with assembled := s.cur.assembled ++ [p] } }

/-- `Log(kind, v)`: append one record (R215). -/
def State.record (kind : LogKind) (val : Int) (s : State) : State :=
  { s with log := s.log ++ [{ kind := kind, val := val }] }

/-- `SinkWrite(bytes)` (R11, R44). -/
def State.sinkWrite (bytes : List Byte) (s : State) : State := { s with sink := some bytes }

/-! ## Register writes -/

def State.setSState (v : SState) (s : State) : State := { s with snd := { s.snd with sstate := v } }

def State.setLastPoll (t : Nat) (s : State) : State := { s with snd := { s.snd with lastPoll := t } }

/-- `sendTimestamp[slot] <- t` (R23). -/
def State.stamp (slot : Nat) (t : Nat) (s : State) : State :=
  { s with win := { s.win with sendTimestamp := s.win.sendTimestamp.set slot (some t) } }

/-- `droppedOnce[slot] <- true` (R25). -/
def State.markDropped (slot : Nat) (s : State) : State :=
  { s with win := { s.win with droppedOnce := s.win.droppedOnce.set slot true } }

/-- `acked[base] <- true; base <- base + 1` (R166), never observed apart (R269). There is a slot
`base` to acknowledge (R109), or the access is out of range (R256). -/
def State.advanceBase (s : State) : Except Fault State :=
  if s.win.base < s.win.acked.length then
    .ok { s with win :=
      { s.win with acked := s.win.acked.set s.win.base true, base := s.win.base + 1 } }
  else .error .slotOutOfRange

/-- The model's own: the result of a function row (log 7). -/
def State.setResult (r : FnResult) (s : State) : State := { s with fnResult := r }

/-! ## Taking an exception, and returning from one -/

/-- A construction fault is fatal: "`cstatus` takes the fault's code; no other state exists" (R246).
The fields that then have no value, the clock, the frame store and the source among them, stand at
blanks no operation reads (log 10). -/
def State.failConstruction (fault : FaultCode) (s : State) : State where
  cfg :=
    { windowSize := 0, frameCapacityBits := 0, dropPeriod := 0, timeoutInterval := 0
      totalFrames := 0, pollTick := 0, cstatus := fault
      senderBuilt := false }
  win := { base := 0, sendTimestamp := [], acked := [], droppedOnce := [] }
  snd :=
    { sstate := .filling, eosPushed := false, listenerStopped := false, senderComplete := false
      lastPoll := 0 }
  cur := { expected := 0, assembled := [] }
  rcv := { rstate := .accepting, writeDone := false }
  fs := []
  dch := []
  ach := []
  now := 0
  log := []
  sink := none
  source := []
  script := s.script
  turn := s.turn
  fnResult := s.fnResult

/-- An operation-local fault is fail-soft: "one `FAULT` record … is appended", and no fault bit is
kept (R252). -/
def State.raiseFailSoft (fault : FaultCode) (s : State) : State := s.record .fault fault.code

/-- `TIMEOUT` records, one per expired slot, in the order given (R188). -/
def State.recordTimeouts (expired : List Nat) (s : State) : State :=
  { s with log := s.log ++ expired.map fun slot => { kind := .timeout, val := slot } }

/-- Entry to retransmission: "nothing is saved; `sstate` becomes `Retransmitting`; `TIMEOUT` records
are written" (R265). -/
def State.enterRetransmission (expired : List Nat) (s : State) : State :=
  (s.setSState .retransmitting).recordTimeouts expired

/-- Return from retransmission: "`sstate` returns to `Watching`" (R266). -/
def State.leaveRetransmission (s : State) : State := s.setSState .watching

/-! ## Running an operation -/

/-- What an effect answers as an outcome. -/
def outcomeOf : Except Fault State → Outcome
  | .ok t => .next t
  | .error f => .fault f

/-- Anything that touches the engines needs them: with `cstatus ≠ OK` "every operation is disabled"
(R38), and running one is a model fault (R256). -/
def onEngine (s : State) (effect : Except Fault State) : Outcome :=
  if s.cfg.cstatus = .ok then outcomeOf effect else .fault .engineNotConstructed

/-- An operation of R108: it acts only where its guard holds (R109, R227). Elsewhere its agent waits and
nothing changes: P6 of 95_test_vectors.md runs an `R` whose operation is "none" and goes on (log 6). -/
def runOperation (enabled : State → Bool) (effect : State → Except Fault State) (s : State) : Outcome :=
  onEngine s (if enabled s then effect s else .ok s)

end Sys2Proof.Machine
end

