-- ==== Sys2Proof/Machine/Environment.lean ====
section
/-! DEFINITION. The environment's operations: `SYS.CONSTRUCT` (spec 70 R280) and `ENV.ADVANCE`
(47 R226). -/

namespace Sys2Proof.Machine

/-- "set every register to its reset value (R49), with `now = lastPoll = t0`" and `cstatus <- OK`
(R280). The model's own fields are no register of the block and stay (log 11). -/
def State.constructed (l : Launch) (source : List Byte) (frames : List Frame) (s : State) : State where
  cfg :=
    { windowSize := l.windowSize, frameCapacityBits := l.frameCapacityBits
      dropPeriod := l.dropPeriod.toNat, timeoutInterval := l.timeoutInterval.toNat
      totalFrames := frames.length, pollTick := l.pollTick, cstatus := .ok
      senderBuilt := true }
  win :=
    { base := 0, sendTimestamp := List.replicate frames.length none
      acked := List.replicate frames.length false
      droppedOnce := List.replicate frames.length false }
  snd :=
    { sstate := .filling, eosPushed := false, listenerStopped := false, senderComplete := false
      lastPoll := l.t0 }
  cur := { expected := 0, assembled := [] }
  rcv := { rstate := .accepting, writeDone := false }
  fs := frames
  dch := []
  ach := []
  now := l.t0
  log := []
  sink := none
  source := source
  script := s.script
  turn := s.turn
  fnResult := s.fnResult

/-- `SYS.CONSTRUCT` (R280): the checks in the order of R261, the first violation only. -/
def construct (l : Launch) (s : State) : State :=
  if l.windowSize < 1 then s.failConstruction .configWindowSize
  else if l.frameCapacityBits ≤ Config.seqWidth then s.failConstruction .configFrameCapacity
  else if l.dropPeriod < 1 then s.failConstruction .configDropPeriod
  else if l.timeoutInterval ≤ 0 then s.failConstruction .configTimeout
  else
    match l.source with
    | none => s.failConstruction .sourceUnreadable
    | some source =>
      match encodeSource source l.frameCapacityBits with
      | .error fault => s.failConstruction fault
      | .ok frames => s.constructed l source frames

/-- "A receiver driven alone (for test) is constructed with `L` only": it "starts with `expected = 0`,
`assembled` empty" (R283). There is no sender: its registers stand at blanks no operation reads. R283
gives no source, no frame store and no time either. DESIGN CHOICE (log 26): `SRC` (R45, R60) holds the
empty byte string, the frame store is empty, and the clock stands at 0; no operation of the receiver
reads one of them. -/
def State.constructedAlone (payloadBits : Nat) (s : State) : State where
  cfg :=
    { windowSize := 0, frameCapacityBits := payloadBits + Config.seqWidth, dropPeriod := 0
      timeoutInterval := 0, totalFrames := 0, pollTick := 0, cstatus := .ok, senderBuilt := false }
  win := { base := 0, sendTimestamp := [], acked := [], droppedOnce := [] }
  snd :=
    { sstate := .filling, eosPushed := false, listenerStopped := false, senderComplete := false
      lastPoll := 0 }
  cur := { expected := 0, assembled := [] }
  rcv := { rstate := .accepting, writeDone := false }
  fs := []
  dch := []
  ach := []
  now := 0
  log := []
  sink := none
  source := []
  script := s.script
  turn := s.turn
  fnResult := s.fnResult

/-- The receiver alone (R283); a frame of `L = 0` payload bits is no frame (R7, R248). -/
def constructAlone (payloadBits : Nat) (s : State) : State :=
  if payloadBits < 1 then s.failConstruction .configFrameCapacity else s.constructedAlone payloadBits

/-- `SYS.CONSTRUCT` (R280, R283); "a second transfer is a second construction" (R284). -/
def execSysConstruct (c : Construction) (s : State) : Outcome :=
  .next (match c with
    | .pair l => construct l s
    | .receiverAlone payloadBits => constructAlone payloadBits s)

/-- `now <- now + d` (R226). -/
def advanceClock (d : Nat) (s : State) : Except Fault State := .ok { s with now := s.now + d }

/-- `ENV.ADVANCE(d)` (R226), within the latency contract (R236). -/
def execEnvAdvance (d : Nat) (s : State) : Outcome :=
  runOperation (envAdvanceEnabled d) (advanceClock d) s

end Sys2Proof.Machine
end

