-- ==== Sys2Proof/Machine/EventLog.lean ====
section
/-! DEFINITION. The event log (spec 46): `LOG.RECORD`, the record patterns `LOG.*` as words that append
their record, and the canonical text of a record (30 R101). -/

namespace Sys2Proof.Machine

/-- The canonical line of a record (R101): presentation only. -/
def renderRecord (r : LogRecord) : String :=
  match r.kind with
  | .sent => "SENT " ++ toString r.val
  | .dropped => "DROPPED " ++ toString r.val
  | .ackAccepted => "ACK " ++ toString r.val ++ " ACCEPTED"
  | .ackIgnored => "ACK " ++ toString r.val ++ " IGNORED"
  | .timeout => "TIMEOUT " ++ toString r.val
  | .writeDone => "WRITE DONE"
  | .fault => "FAULT " ++ toString r.val

/-- Append one record whose value is the signed `lval` field (R100, R215). -/
def recordWord (kind : LogKind) (val : SignedField) (s : State) : Outcome :=
  onEngine s (.ok (s.record kind val.toInt))

/-- `LOG.RECORD` (R215; log 8). -/
def execLogRecord (kind : LogKind) (val : SignedField) (s : State) : Outcome := recordWord kind val s

/-- `LOG.SENT` (R100; log 8). -/
def execLogSent (val : SignedField) (s : State) : Outcome := recordWord .sent val s

/-- `LOG.DROPPED` (R100; log 8). -/
def execLogDropped (val : SignedField) (s : State) : Outcome := recordWord .dropped val s

/-- `LOG.ACK_ACCEPTED` (R100; log 8). -/
def execLogAckAccepted (val : SignedField) (s : State) : Outcome := recordWord .ackAccepted val s

/-- `LOG.ACK_IGNORED` (R100; log 8). -/
def execLogAckIgnored (val : SignedField) (s : State) : Outcome := recordWord .ackIgnored val s

/-- `LOG.TIMEOUT` (R100; log 8). -/
def execLogTimeout (val : SignedField) (s : State) : Outcome := recordWord .timeout val s

/-- `LOG.WRITE_DONE` (R100; log 8). -/
def execLogWriteDone (val : SignedField) (s : State) : Outcome := recordWord .writeDone val s

/-- `LOG.FAULT` (R100; log 8). -/
def execLogFault (val : SignedField) (s : State) : Outcome := recordWord .fault val s

/-- `LOG.RESERVED`: `lkind` 7 is "reserved", "never written" (R100, R102): no effect is given. -/
def execLogReserved (_ : SignedField) (_ : State) : Outcome := .fault .reservedLogKind

end Sys2Proof.Machine
end

