-- ==== Sys2Proof/Machine/Functions.lean ====
section
/-! DEFINITION. The codec's function rows executed on their own (spec 40; log 7): the answer goes to the
model's own field `fnResult` and no state of the block changes (30 R105). -/

namespace Sys2Proof.Machine

/-- `CODEC.ENCODE` (R123): "frames | ConfigFrameCapacity | ConfigFrameCount". -/
def execCodecEncode (source : List Byte) (capacity : Nat) (s : State) : Outcome :=
  .next (s.setResult (match encodeSource source capacity with
    | .ok frames => .frames frames
    | .error fault => .raised fault))

/-- `CODEC.DECODE` (R126): "bytes | CodecResidue". -/
def execCodecDecode (payloads : List BitString) (s : State) : Outcome :=
  .next (s.setResult (.decoded (decodePayloads payloads)))

end Sys2Proof.Machine
end

