-- ==== Sys2Proof/Machine/Messages.lean ====
section
/-! DEFINITION. The message patterns as words (spec 30 R91 to R97): a word presented on its channel,
which is the `INJ.D` and `INJ.A` of 30 R106 (log 9). -/

namespace Sys2Proof.Machine

/-- `INJ.D` (R106): a message whose payload field has the channel's width (R90) joins the tail of
`DCH`. -/
def injectData (width : Nat) (m : DataMsg) (s : State) : Outcome :=
  onEngine s (if width = s.cfg.payloadBits then .ok (s.enqData m) else .error .messageWidthMismatch)

/-- `INJ.A` (R106): an ack joins the tail of `ACH`. -/
def injectAck (a : SignedField) (s : State) : Outcome := onEngine s (.ok (s.enqAck a))

/-- `MSG.FRAME` (R94). -/
def execMsgFrame (seq : SeqField) (plen : Nat) (payload : BitString) (s : State) : Outcome :=
  injectData payload.length (.frame seq plen payload) s

/-- `MSG.EOS` (R95): the other fields are "ignored on receive". -/
def execMsgEos (_ : SeqField) (_ : Nat) (payload : BitString) (s : State) : Outcome :=
  injectData payload.length .eos s

/-- `FMT.FRAME_F` (R91): a frame travels "inside a `FRAME` message" (R90), which carries exactly it
(R94). A frame longer than `frameCapacityBits` is no frame of this configuration (R90). -/
def execFmtFrameF (seq : SeqField) (payload : BitString) (s : State) : Outcome :=
  onEngine s (if payload.length ≤ s.cfg.payloadBits then
      .ok (s.enqData (frameMsg s.cfg.payloadBits { seq := seq, payload := payload }))
    else .error .messageWidthMismatch)

/-- `MSG.ACK`: an ack of value `0 .. 65535` (R97). -/
def execMsgAck (slot : SeqField) (s : State) : Outcome := injectAck (ackOf (slot.toNat : Int)) s

/-- `MSG.ACK_NONE`: the sentinel `-1` (R97). -/
def execMsgAckNone (s : State) : Outcome := injectAck (ackOf (-1)) s

/-- `MSG.ACK_UNEXPECTED`: bit 16 set, values `-65536 .. -2` (R97, R102). -/
def execMsgAckUnexpected (low : SeqField) (s : State) : Outcome :=
  injectAck (ackOf ((low.toNat : Int) - 2 ^ 16)) s

end Sys2Proof.Machine
end

