-- ==== Sys2Proof/Machine/Receiver.lean ====
section
/-! DEFINITION. The Receiver Engine (spec 45): `RX.ACCEPT`, `RX.REJECT`, `RX.EOS`, `RX.MALFORMED`,
`RX.IDLE`. -/

namespace Sys2Proof.Machine

/-- `expected <- expected + 1` (R200). -/
def State.advanceExpected (s : State) : State :=
  { s with cur := { s.cur with expected := s.cur.expected + 1 } }

/-- The effect of `RX.ACCEPT` (R200); an `EOS` at the head, which the guard excludes, is left there. -/
def rxAccept (s : State) : Except Fault State :=
  match s.deqData with
  | .error f => .error f
  | .ok (.eos, _) => .ok s
  | .ok (.frame _ plen payload, s1) =>
    .ok (((s1.appendPayload (payloadOf plen payload)).enqAck (ackOf s.cur.expected)).advanceExpected)

/-- The effect of `RX.REJECT` (R202): the ack `expected - 1`, the sentinel when nothing has been
accepted. -/
def rxReject (s : State) : Except Fault State :=
  match s.deqData with
  | .error f => .error f
  | .ok (_, s1) => .ok (s1.enqAck (ackOf ((s.cur.expected : Int) - 1)))

/-- `CodecResidue` is logged only when bits are left over (R131, R204). -/
def State.reportResidue (residue : Nat) (s : State) : State :=
  if residue = 0 then s else s.raiseFailSoft .codecResidue

/-- The effect of `RX.EOS` (R204). -/
def rxEos (s : State) : Except Fault State :=
  match s.deqData with
  | .error f => .error f
  | .ok (_, s1) =>
    let d := decodePayloads s.cur.assembled
    let s2 := { s1 with rcv := { s1.rcv with rstate := .stopped } }
    let s3 := ((s2.reportResidue d.residue).sinkWrite d.bytes).record .writeDone 0
    .ok { s3 with rcv := { s3.rcv with writeDone := true } }

/-- The effect of `RX.MALFORMED` (R206). -/
def rxMalformed (s : State) : Except Fault State :=
  match s.deqData with
  | .error f => .error f
  | .ok (_, s1) => .ok (s1.raiseFailSoft .malformedFrame)

/-- `RX.ACCEPT` (R200). -/
def execRxAccept (s : State) : Outcome := runOperation rxAcceptEnabled rxAccept s

/-- `RX.REJECT` (R202). -/
def execRxReject (s : State) : Outcome := runOperation rxRejectEnabled rxReject s

/-- `RX.EOS` (R204). -/
def execRxEos (s : State) : Outcome := runOperation rxEosEnabled rxEos s

/-- `RX.MALFORMED` (R206). -/
def execRxMalformed (s : State) : Outcome := runOperation rxMalformedEnabled rxMalformed s

/-- `RX.IDLE` (R232): "nothing; the state is unchanged". -/
def execRxIdle (s : State) : Outcome := runOperation rxIdleEnabled (fun s => .ok s) s

end Sys2Proof.Machine
end

