-- ==== Sys2Proof/Machine/Loss.lean ====
section
/-! DEFINITION. The Loss Simulator (spec 41): `LOSS.SHOULD_DROP`, one pure function. -/

namespace Sys2Proof.Machine

/-- `SHOULD_DROP` (R135): "`(slotIndex+1) mod dropPeriod == 0` and `slotIndex != 0`, and only on the
first transmission attempt ever made for that slot". -/
def shouldDrop (slot : Nat) (firstAttempt : Bool) (period : Nat) : Bool :=
  (slot + 1) % period == 0 && slot != 0 && firstAttempt

/-- `LOSS.SHOULD_DROP` executed on its own: the answer goes to `fnResult` (log 7). A period of 0 has no
meaning (R16, R282; log 16). DESIGN CHOICE (log 27): R135 bounds `slotIndex` by `N`, which is no operand
of the row, and states no answer beyond it; the row answers the formula for every natural. -/
def execLossShouldDrop (slot : Nat) (firstAttempt : Bool) (period : Nat) (s : State) : Outcome :=
  outcomeOf (if period = 0 then .error .dropPeriodZero
    else .ok (s.setResult (.flag (shouldDrop slot firstAttempt period))))

end Sys2Proof.Machine
end

