-- ==== Sys2Proof/Machine/Window.lean ====
section
/-! DEFINITION. The sliding-window frame sequencer (spec 42): `WIN.RANGE`, `WIN.SLIDE_SLOT`, `SEQ.XMIT`,
`SEQ.SENDWINDOW`. -/

namespace Sys2Proof.Machine

/-- `winEnd(base, W, N) = min(base + W, N)` (R146). -/
def winEnd (base window frames : Nat) : Nat := min (base + window) frames

/-- `RANGE(base, W, N)`: the slots `base .. winEnd - 1`, ascending (R146, R147). -/
def windowRange (base window frames : Nat) : List Nat :=
  List.range' base (winEnd base window frames - base)

/-- `SLIDE_SLOT(base', W, N)` (R148), with `base'` the incremented base and `W ≥ 1`. -/
def slideSlot (base window frames : Nat) : Option Nat :=
  if base + window - 1 < frames then some (base + window - 1) else none

/-- The active window of the sender (R18, R146). -/
def activeWindow (s : State) : List Nat := windowRange s.win.base s.cfg.windowSize s.cfg.totalFrames

/-- `XMIT(s, now)`: one transmission attempt of one slot (R150). -/
def xmit (slot : Nat) (now : Nat) (s : State) : Except Fault State :=
  if s.cfg.dropPeriod = 0 then .error .dropPeriodZero
  else
    match s.win.droppedOnce[slot]? with
    | none => .error .slotOutOfRange
    | some droppedBefore =>
      if shouldDrop slot (!droppedBefore) s.cfg.dropPeriod then
        .ok (((s.markDropped slot).record .dropped slot).stamp slot now)
      else
        match s.frameRead slot with
        | .error f => .error f
        | .ok frame =>
          .ok (((s.enqData (frameMsg s.cfg.payloadBits frame)).record .sent slot).stamp slot now)

/-- `XMIT` over a list of slots, in order, of those not yet acknowledged (R152). -/
def sendSlots (now : Nat) : List Nat → State → Except Fault State
  | [], s => .ok s
  | slot :: slots, s =>
    match s.win.acked[slot]? with
    | none => .error .slotOutOfRange
    | some true => sendSlots now slots s
    | some false =>
      match xmit slot now s with
      | .error f => .error f
      | .ok t => sendSlots now slots t

/-- `SENDWINDOW(now)` (R152). -/
def sendWindow (now : Nat) (s : State) : Except Fault State := sendSlots now (activeWindow s) s

/-- `WIN.RANGE` executed on its own (log 7). -/
def execWinRange (base window frames : Nat) (s : State) : Outcome :=
  .next (s.setResult (.slots (windowRange base window frames)))

/-- `WIN.SLIDE_SLOT` executed on its own (log 7). -/
def execWinSlideSlot (base window frames : Nat) (s : State) : Outcome :=
  .next (s.setResult (.slot (slideSlot base window frames)))

/-- `SEQ.XMIT` executed on its own, at the clock's `now`, on a slot of the active window, "the only
slots `XMIT` may be applied to" (R61, R150; log 8). -/
def execSeqXmit (slot : Nat) (s : State) : Outcome :=
  onEngine s (if slot ∈ activeWindow s then xmit slot s.now s else .error .slotOutsideWindow)

/-- `SEQ.SENDWINDOW` executed on its own, at the clock's `now` (R152; log 8). -/
def execSeqSendWindow (s : State) : Outcome := onEngine s (sendWindow s.now s)

end Sys2Proof.Machine
end

