-- ==== Sys2Proof/Machine/Sender.lean ====
section
/-! DEFINITION. The Sender Engine's operations but for the poll (spec 43): `TX.FILL`, `TX.FINISH`,
`TX.JOIN`, `TXA.ACK_ACCEPT`, `TXA.ACK_IGNORE`, `TXA.IDLE`, `TXA.STOP`. -/

namespace Sys2Proof.Machine

/-- `Done` when `base = N`, else `Watching`: the last line of `TX.FILL` and `TXA.ACK_ACCEPT`
(R160, R166). -/
def State.settleSState (s : State) : State :=
  s.setSState (if s.win.base = s.cfg.totalFrames then .done else .watching)

/-- The effect of `TX.FILL` (R160). -/
def txFill (s : State) : Except Fault State :=
  match sendWindow s.now s with
  | .error f => .error f
  | .ok t => .ok (t.setLastPoll s.now).settleSState

/-- Transmit the slot a slide exposes, if any (R148, R166). -/
def xmitExposed (now : Nat) (s : State) : Except Fault State :=
  match slideSlot s.win.base s.cfg.windowSize s.cfg.totalFrames with
  | none => .ok s
  | some slot => xmit slot now s

/-- The effect of `TXA.ACK_ACCEPT` (R166). -/
def ackAccept (s : State) : Except Fault State :=
  match s.deqAck with
  | .error f => .error f
  | .ok (a, s1) =>
    match ((s1.setSState .sliding).record .ackAccepted (ackValue a)).advanceBase with
    | .error f => .error f
    | .ok s2 =>
      match xmitExposed s.now s2 with
      | .error f => .error f
      | .ok t => .ok t.settleSState

/-- The effect of `TXA.ACK_IGNORE` (R168). -/
def ackIgnore (s : State) : Except Fault State :=
  match s.deqAck with
  | .error f => .error f
  | .ok (a, s1) => .ok (s1.record .ackIgnored (ackValue a))

/-- The effect of `TX.FINISH` (R172). -/
def txFinish (s : State) : Except Fault State :=
  let s1 := s.enqData .eos
  .ok { s1 with snd := { s1.snd with eosPushed := true } }

/-- The effect of `TX.JOIN` (R176). -/
def txJoin (s : State) : Except Fault State := .ok { s with snd := { s.snd with senderComplete := true } }

/-- The effect of `TXA.STOP` (R174). -/
def txaStop (s : State) : Except Fault State :=
  .ok { s with snd := { s.snd with listenerStopped := true } }

/-- `TX.FILL` (R160). -/
def execTxFill (s : State) : Outcome := runOperation txFillEnabled txFill s

/-- `TX.FINISH` (R172). -/
def execTxFinish (s : State) : Outcome := runOperation txFinishEnabled txFinish s

/-- `TX.JOIN` (R176). -/
def execTxJoin (s : State) : Outcome := runOperation txJoinEnabled txJoin s

/-- `TXA.ACK_ACCEPT` (R166). -/
def execTxaAckAccept (s : State) : Outcome := runOperation txaAckAcceptEnabled ackAccept s

/-- `TXA.ACK_IGNORE` (R168). -/
def execTxaAckIgnore (s : State) : Outcome := runOperation txaAckIgnoreEnabled ackIgnore s

/-- `TXA.IDLE` (R232): "nothing; the state is unchanged". -/
def execTxaIdle (s : State) : Outcome := runOperation txaIdleEnabled (fun s => .ok s) s

/-- `TXA.STOP` (R174). -/
def execTxaStop (s : State) : Outcome := runOperation txaStopEnabled txaStop s

end Sys2Proof.Machine
end

