-- ==== Sys2Proof/Machine/Timeout.lean ====
section
/-! DEFINITION. The packet timeout arbiter and the poll (spec 44): `TMO.EXPIRED`, `TMO.ARB`,
`TX.POLL`. -/

namespace Sys2Proof.Machine

/-- `EXPIRED(s, now) = (now - sendTimestamp[s] > timeoutInterval)`, strict (R185). -/
def slotExpired (slot : Nat) (now : Nat) (s : State) : Except Fault Bool :=
  match s.win.sendTimestamp[slot]? with
  | none => .error .slotOutOfRange
  | some none => .error .timestampNone
  | some (some ts) =>
    if now < ts then .error .clockBehindStamp
    else .ok (decide (s.cfg.timeoutInterval < now - ts))

/-- The expired slots of a list, in order (R186). -/
def expiredOf (now : Nat) (s : State) : List Nat → Except Fault (List Nat)
  | [] => .ok []
  | slot :: slots =>
    match slotExpired slot now s with
    | .error f => .error f
    | .ok e =>
      match expiredOf now s slots with
      | .error f => .error f
      | .ok rest => .ok (if e then slot :: rest else rest)

/-- `ARB(now)`: the expired slots of the active window, ascending; `timeoutAny` is "`E` is not empty"
(R186). -/
def arbitrate (now : Nat) (s : State) : Except Fault (List Nat) := expiredOf now s (activeWindow s)

/-- `timeoutAny` (R186). -/
def timeoutAny (expired : List Nat) : Bool := !expired.isEmpty

/-- The effect of `TX.POLL` (R188). -/
def txPoll (s : State) : Except Fault State :=
  match arbitrate s.now s with
  | .error f => .error f
  | .ok expired =>
    let s1 := s.setLastPoll s.now
    if timeoutAny expired then
      match sendWindow s.now (s1.enterRetransmission expired) with
      | .error f => .error f
      | .ok t => .ok t.leaveRetransmission
    else .ok s1

/-- `TX.POLL` (R188). -/
def execTxPoll (s : State) : Outcome := runOperation txPollEnabled txPoll s

/-- `TMO.EXPIRED` executed on its own (log 7). DESIGN CHOICE (log 28): R185's operand is "a slot of the
active window" and no answer is stated for another; a stamped slot outside the window is compared the
same way. -/
def execTmoExpired (slot : Nat) (at_ : Nat) (s : State) : Outcome :=
  onEngine s (match slotExpired slot at_ s with
    | .error f => .error f
    | .ok b => .ok (s.setResult (.flag b)))

/-- `TMO.ARB` executed on its own (log 7). -/
def execTmoArb (at_ : Nat) (s : State) : Outcome :=
  onEngine s (match arbitrate at_ s with
    | .error f => .error f
    | .ok expired => .ok (s.setResult (.expiry expired (timeoutAny expired))))

end Sys2Proof.Machine
end

