-- ==== Sys2Proof/Machine/Dispatch.lean ====
section
/-! DEFINITION. One arm per constructor of Instr: which meaning each instruction has. -/

namespace Sys2Proof.Machine

/-- One instruction executed (R105, R108). -/
def exec (i : Instr) (s : State) : Host.Outcome State Fault Refusal :=
  match i with
  | .sysConstruct c => Sys2Proof.Machine.execSysConstruct c s
  | .envAdvance d => Sys2Proof.Machine.execEnvAdvance d s
  | .txFill => Sys2Proof.Machine.execTxFill s
  | .txPoll => Sys2Proof.Machine.execTxPoll s
  | .txFinish => Sys2Proof.Machine.execTxFinish s
  | .txJoin => Sys2Proof.Machine.execTxJoin s
  | .txaAckAccept => Sys2Proof.Machine.execTxaAckAccept s
  | .txaAckIgnore => Sys2Proof.Machine.execTxaAckIgnore s
  | .txaIdle => Sys2Proof.Machine.execTxaIdle s
  | .txaStop => Sys2Proof.Machine.execTxaStop s
  | .rxAccept => Sys2Proof.Machine.execRxAccept s
  | .rxReject => Sys2Proof.Machine.execRxReject s
  | .rxEos => Sys2Proof.Machine.execRxEos s
  | .rxMalformed => Sys2Proof.Machine.execRxMalformed s
  | .rxIdle => Sys2Proof.Machine.execRxIdle s
  | .codecEncode source capacity => Sys2Proof.Machine.execCodecEncode source capacity s
  | .codecDecode payloads => Sys2Proof.Machine.execCodecDecode payloads s
  | .lossShouldDrop slot first period => Sys2Proof.Machine.execLossShouldDrop slot first period s
  | .winRange base window frames => Sys2Proof.Machine.execWinRange base window frames s
  | .winSlideSlot base window frames => Sys2Proof.Machine.execWinSlideSlot base window frames s
  | .seqXmit slot => Sys2Proof.Machine.execSeqXmit slot s
  | .seqSendWindow => Sys2Proof.Machine.execSeqSendWindow s
  | .tmoExpired slot t => Sys2Proof.Machine.execTmoExpired slot t s
  | .tmoArb t => Sys2Proof.Machine.execTmoArb t s
  | .logRecord kind val => Sys2Proof.Machine.execLogRecord kind val s
  | .msgFrame seq plen payload => Sys2Proof.Machine.execMsgFrame seq plen payload s
  | .msgEos seq plen payload => Sys2Proof.Machine.execMsgEos seq plen payload s
  | .fmtFrameF seq payload => Sys2Proof.Machine.execFmtFrameF seq payload s
  | .msgAck slot => Sys2Proof.Machine.execMsgAck slot s
  | .msgAckNone => Sys2Proof.Machine.execMsgAckNone s
  | .msgAckUnexpected low => Sys2Proof.Machine.execMsgAckUnexpected low s
  | .logSent val => Sys2Proof.Machine.execLogSent val s
  | .logDropped val => Sys2Proof.Machine.execLogDropped val s
  | .logAckAccepted val => Sys2Proof.Machine.execLogAckAccepted val s
  | .logAckIgnored val => Sys2Proof.Machine.execLogAckIgnored val s
  | .logTimeout val => Sys2Proof.Machine.execLogTimeout val s
  | .logWriteDone val => Sys2Proof.Machine.execLogWriteDone val s
  | .logFault val => Sys2Proof.Machine.execLogFault val s
  | .logReserved val => Sys2Proof.Machine.execLogReserved val s

end Sys2Proof.Machine
end

