-- ==== Sys2Proof/Machine/Schedule.lean ====
section
/-! DEFINITION. Which operation is executed next: the enabled operations of each agent (spec 30 R109,
47 R225), the script notation of 30 R106, the free schedule (47 R229; log 4), and the fetch from the
script (log 1). -/

namespace Sys2Proof.Machine

/-- The agents that execute operations of their own (R225). -/
inductive Agent where
  | main
  | listener
  | receiver
deriving DecidableEq, Repr

/-- `[i]` where the guard holds. -/
def offer (enabled : Bool) (i : Instr) : List Instr := bif enabled then [i] else []

/-- The enabled operations of the sender's main activity (R109). -/
def mainOps (s : State) : List Instr :=
  offer (txFillEnabled s) .txFill ++ offer (txPollEnabled s) .txPoll
    ++ offer (txFinishEnabled s) .txFinish ++ offer (txJoinEnabled s) .txJoin

/-- The enabled operations of the ack listener (R109). -/
def listenerOps (s : State) : List Instr :=
  offer (txaStopEnabled s) .txaStop ++ offer (txaAckAcceptEnabled s) .txaAckAccept
    ++ offer (txaAckIgnoreEnabled s) .txaAckIgnore ++ offer (txaIdleEnabled s) .txaIdle

/-- The enabled operations of the receiver (R109). -/
def receiverOps (s : State) : List Instr :=
  offer (rxAcceptEnabled s) .rxAccept ++ offer (rxRejectEnabled s) .rxReject
    ++ offer (rxEosEnabled s) .rxEos ++ offer (rxMalformedEnabled s) .rxMalformed
    ++ offer (rxIdleEnabled s) .rxIdle

/-- The enabled operations of an agent; none while the engines do not exist (R38, R109). -/
def agentOps (a : Agent) (s : State) : List Instr :=
  if s.cfg.cstatus = .ok then
    match a with
    | .main => mainOps s
    | .listener => listenerOps s
    | .receiver => receiverOps s
  else []

/-- The enabled operations of all three agents. -/
def enabledOps (s : State) : List Instr :=
  agentOps .main s ++ agentOps .listener s ++ agentOps .receiver s

/-! ## The script notation -/

/-- A step of the script notation (R106). -/
inductive ScriptStep where
  /-- `M`, `A`, `R`: the agent executes its one enabled operation. -/
  | agent (a : Agent)
  /-- `+d`. -/
  | advance (d : Nat)
  /-- `INJ.D F<s>`: "the `FRAME` of slot `s`". -/
  | injSlot (slot : Nat)
  /-- `INJ.D F<s>:<hex payload>/<plen>`, "an explicit frame" given by its payload bits, which a field of
  `L` bits holds left-justified (R93); `plen` need not be their number. DESIGN CHOICE (log 29): the
notation bounds neither number; a slot of 2^16 or more, which no sequence field holds, is taken modulo
2^16, and any `plen` stays as it is. -/
  | injFrame (slot : Nat) (payload : BitString) (plen : Nat)
  /-- `INJ.D EOS`. -/
  | injEos
  /-- `INJ.A K<n>`: "an ack of value `n`", of the field's range (R97). -/
  | injAck (ack : SignedField)
deriving DecidableEq, Repr

/-- `X*k` and `(X Y)*k`: "step `X`, or the group `X Y`, repeated `k` times" (R106). -/
def repeated (steps : List ScriptStep) (k : Nat) : List ScriptStep := (List.replicate k steps).flatten

/-- The word an ack of the notation is injected by (R97). -/
def ackInstr (a : SignedField) : Instr :=
  if a.msb = false then .msgAck (a.setWidth 16)
  else if a = -1 then .msgAckNone
  else .msgAckUnexpected (a.setWidth 16)

/-- One step of the notation (R106). A letter whose agent has no enabled operation does nothing and the
run goes on: P6 of 95_test_vectors.md ends in such an `R` (log 6). DESIGN CHOICE (log 29): an explicit
frame's slot is reduced modulo 2^16 to its sequence field. -/
def ScriptStep.run (st : ScriptStep) (s : State) : Outcome :=
  match st with
  | .agent a =>
    match (agentOps a s).head? with
    | some i => exec i s
    | none => .next s
  | .advance d => exec (.envAdvance d) s
  | .injSlot slot =>
    match s.frameRead slot with
    | .ok frame => exec (.fmtFrameF frame.seq frame.payload) s
    | .error f => .fault f
  | .injFrame slot payload plen =>
    exec (.msgFrame (BitVec.ofNat 16 slot) plen (payloadField s.cfg.payloadBits payload)) s
  | .injEos => exec (.msgEos 0 0 (List.replicate s.cfg.payloadBits false)) s
  | .injAck a => exec (ackInstr a) s

/-- A schedule of the notation run from a state (R106). -/
def runScript : List ScriptStep → State → Outcome
  | [], s => .next s
  | st :: steps, s =>
    match st.run s with
    | .next t => runScript steps t
    | .fault f => .fault f
    | .refused r => .refused r

/-- A program of the notation: what its launch builds, then its schedule (R106). -/
def runProgram (built : Construction) (steps : List ScriptStep) (s : State) : Outcome :=
  match exec (.sysConstruct built) s with
  | .next t => runScript steps t
  | .fault f => .fault f
  | .refused r => .refused r

/-! ## The free schedule and the fetch -/

/-- By how much the clock may be advanced when `d` is asked for: at most to the latency contract's bound
while `Watching` (R236). -/
def allowedDelay (d : Nat) (s : State) : Nat :=
  if s.snd.sstate = .watching then min d (s.snd.lastPoll + s.cfg.pollTick - s.now) else d

/-- What the environment and the agents could do next: every enabled operation, and time passing. -/
def choices (d : Nat) (s : State) : List Instr := enabledOps s ++ [.envAdvance (allowedDelay d s)]

/-- The free schedule's choice (R229; log 4): an enabled operation, or an allowed advance. -/
def freeChoice (s : State) : Instr :=
  let cs := choices (Config.freeDelay s.turn) s
  cs.getD (Config.freePick s.turn % cs.length) (.envAdvance 0)

/-- The instruction at the front of the script and the state with its bytes taken off; `none` when the
script is empty (log 1). -/
def fetch (s : State) : Option (Except DecodeError (Instr × State)) :=
  match s.script with
  | [] => none
  | b :: bs =>
    some (match decode (b :: bs) with
      | .error e => .error e
      | .ok (i, rest) => .ok (i, { s with script := rest }))

/-- The script with a word of opcode_table.json, its operands zeros, in front of it (log 3); a word the
decoder refuses stands there too, and the step that meets it refuses. -/
def placeWord (nbits w : Nat) (s : State) : State :=
  match tableScript nbits w with
  | some bytes => { s with script := bytes ++ s.script }
  | none => { s with script := (tableBytes nbits w).getD [0xFF] ++ s.script }

/-- One step of a fetched instruction (log 1). -/
def runFetched (i : Instr) (s : State) : Outcome :=
  if i.wellFormed then exec i s else .refused .illFormed

/-- One step of the closed block: the free schedule's choice is executed (R227, R229). -/
def runFree (s : State) : Outcome := exec (freeChoice s) { s with turn := s.turn + 1 }

end Sys2Proof.Machine
end

