-- ==== Sys2Proof/Machine/Step.lean ====
section
/-! DEFINITION. One step of the machine: the script's next instruction, or, with no script, one operation
of the closed block under the free schedule (spec 47 R227, R229; log 1, log 4). -/

namespace Sys2Proof.Machine

/-- One step. -/
def step (s : State) : Host.Outcome State Fault Refusal :=
  match fetch s with
  | none => runFree s
  | some (.error e) => .refused (.undecodable e)
  | some (.ok (i, t)) => runFetched i t

/-- The state whose very next step runs the table's word (log 3). -/
def State.withFetchWord (s : State) (nbits w : Nat) : State := placeWord nbits w s

end Sys2Proof.Machine
end

