-- ==== Sys2Proof/Machine/Runs.lean ====
section
/-! DEFINITION. The step relation of the closed block and its runs (spec 47 R227, R229), the fairness that
the spec "assumes for claims of termination only" (R238), and what a retransmission is caused by
(R191, R239). A run is a sequence of states; no state holds one. -/

namespace Sys2Proof.Machine

/-! ## Runs -/

/-- "A state `σ` steps to `σ'` when some agent has an enabled operation in `σ` … and `σ'` is the result of
that operation's pseudocode" (R227). The environment's operation within a run is the advance, where the
latency contract allows it (R225, R226, R236). -/
def StepsTo (s : State) (i : Instr) (t : State) : Prop :=
  (i ∈ enabledOps s ∨ ∃ d, i = .envAdvance d ∧ envAdvanceEnabled d s = true) ∧ exec i s = .next t

/-- A run: the states it goes through and the operation of each step (R227). Any agent with an enabled
operation may be chosen, in any state (R229). -/
def IsRun (states : Nat → State) (ops : Nat → Instr) : Prop :=
  ∀ n, StepsTo (states n) (ops n) (states (n + 1))

/-! ## Fairness -/

/-- "An agent whose operation stays enabled is eventually scheduled" (R238). -/
def AgentsAreFair (states : Nat → State) (ops : Nat → Instr) : Prop :=
  ∀ (a : Agent) (i : Instr) (n : Nat), (∀ m, n ≤ m → i ∈ agentOps a (states m)) →
    ∃ m, n ≤ m ∧ ops m ∈ agentOps a (states m)

/-- "While `sstate = Watching` time eventually advances past any bound" (R238). -/
def TimePasses (states : Nat → State) : Prop :=
  ∀ n bound : Nat, (∀ m, n ≤ m → (states m).snd.sstate = .watching) →
    ∃ m, n ≤ m ∧ bound < (states m).now

/-- R238: weak fairness of the agents and of time. -/
def Fair (states : Nat → State) (ops : Nat → Instr) : Prop :=
  AgentsAreFair states ops ∧ TimePasses states

/-! ## What causes a retransmission -/

/-- The value `expected` has when a receiver that expects `e` has consumed these messages
(R200, R202). -/
def dataCursor : Nat → List DataMsg → Nat
  | e, [] => e
  | e, .frame seq _ _ :: ms => dataCursor (if seqValue seq = e then e + 1 else e) ms
  | e, .eos :: ms => dataCursor e ms

/-- A slot of the window is lost: the frames in flight will not carry the receiver to the window's end, so
only a retransmission can (R139; DEDUCED, log 23). -/
def slotLost (s : State) : Bool :=
  decide (dataCursor s.cur.expected s.dch < winEnd s.win.base s.cfg.windowSize s.cfg.totalFrames)

/-- The step retransmits the window: a poll that finds an expired slot (R188, R265). -/
def retransmits (s : State) (i : Instr) : Bool :=
  i == .txPoll && match arbitrate s.now s with
    | .ok expired => timeoutAny expired
    | .error _ => false

/-- "The retransmissions caused by *loss*" (R239) among the first `n` steps of a run. -/
def lossRetransmissions (states : Nat → State) (ops : Nat → Instr) (n : Nat) : List Nat :=
  (List.range n).filter fun k => retransmits (states k) (ops k) && slotLost (states k)

/-- The eligible slots (R136). -/
def eligibleSlots (s : State) : List Nat :=
  (List.range s.cfg.totalFrames).filter fun i => i != 0 && (i + 1) % s.cfg.dropPeriod == 0

end Sys2Proof.Machine
end

