-- ==== Sys2Proof/Safety.lean ====
section
/-! DEFINITION. What counts as a safe run, in the terms the statements use: the invariants of the sender
and the receiver (spec 10 R31, R36), the laws of the closed system (20 R80), completion (47 R240). -/

namespace Sys2Proof.Machine

/-! ## Reading the per-slot files -/

/-- `sendTimestamp[i]`, `NONE` where no slot `i` exists. -/
def stampOf (s : State) (i : Nat) : Option Nat := s.win.sendTimestamp[i]?.getD none

/-- `droppedOnce[i]`, false where no slot `i` exists. -/
def wasDropped (s : State) (i : Nat) : Bool := s.win.droppedOnce[i]?.getD false

/-- `winEnd` of the sender's active window (R146). -/
def windowEnd (s : State) : Nat := winEnd s.win.base s.cfg.windowSize s.cfg.totalFrames

/-- Slot `i` is withheld if it is attempted now (R135, R137, R150). -/
def withheldNow (s : State) (i : Nat) : Bool := shouldDrop i (!wasDropped s i) s.cfg.dropPeriod

/-- The `FRAME` message of slot `i` (R94). -/
def slotMsg (s : State) (i : Nat) : DataMsg :=
  frameMsg s.cfg.payloadBits (s.fs.getD i { seq := 0, payload := [] })

/-- The messages a pass over `slots` enqueues: one per slot that is not withheld (R150, R152). -/
def sentMsgs (s : State) (slots : List Nat) : List DataMsg :=
  (slots.filter fun i => !withheldNow s i).map (slotMsg s)

/-- The record of one attempt: `DROPPED i` or `SENT i` (R150). -/
def attemptRecord (s : State) (i : Nat) : LogRecord :=
  { kind := if withheldNow s i then .dropped else .sent, val := i }

/-- Every slot of the active window is stamped, not later than now (R31 item 5). -/
def WindowStamped (s : State) : Prop :=
  ∀ i, s.win.base ≤ i → i < windowEnd s → ∃ t, stampOf s i = some t ∧ t ≤ s.now

/-- From `s` to `t` every slot of the active window has been attempted once, in order, at `s.now`, the
records of the attempts standing in the log after `before` (R150, R152): the withheld slots are marked,
the others' frames are enqueued, all are stamped, and nothing else of WindowState moves. -/
structure WindowAttempted (before : List LogRecord) (s t : State) : Prop where
  dch : t.dch = s.dch ++ sentMsgs s (activeWindow s)
  log : t.log = s.log ++ before ++ (activeWindow s).map (attemptRecord s)
  base : t.win.base = s.win.base
  acked : t.win.acked = s.win.acked
  stampCount : t.win.sendTimestamp.length = s.win.sendTimestamp.length
  dropCount : t.win.droppedOnce.length = s.win.droppedOnce.length
  stamps : ∀ i, stampOf t i =
    if s.win.base ≤ i ∧ i < windowEnd s then some s.now else stampOf s i
  drops : ∀ i, wasDropped t i =
    (wasDropped s i || (decide (s.win.base ≤ i ∧ i < windowEnd s) && withheldNow s i))

/-- The slots of the active window whose age at `at_` exceeds the timeout interval, ascending
(R185, R186). -/
def expiredSlots (at_ : Nat) (s : State) : List Nat :=
  (activeWindow s).filter fun i =>
    (stampOf s i).any fun ts => decide (s.cfg.timeoutInterval < at_ - ts)

/-! ## Outcomes -/

/-- An outcome with its next state changed. -/
def mapNext (f : State → State) : Outcome → Outcome
  | .next t => .next (f t)
  | .fault r => .fault r
  | .refused r => .refused r

/-! ## The operations of R108, by agent -/

/-- The sender's operations (R225). -/
def senderOps : List Instr :=
  [.txFill, .txPoll, .txFinish, .txJoin, .txaAckAccept, .txaAckIgnore, .txaIdle, .txaStop]

/-- The receiver's operations (R225). -/
def receiverEngineOps : List Instr := [.rxAccept, .rxReject, .rxEos, .rxMalformed, .rxIdle]

/-! ## Invariants -/

/-- A message's payload field is as wide as the channel's (R90, R93). -/
def fieldFits (l : Nat) : DataMsg → Bool
  | .frame _ _ payload => payload.length == l
  | .eos => true

/-- What every step keeps, whatever is injected: the canonical stores, legal registers (R6), R31 items
1, 3, 6 and 7, the order of the exit flags, R36, and the bounds of R32 and R33. -/
structure MachineInv (s : State) : Prop where
  stores : Memory.wf s
  config : s.cfg.cstatus = .ok → Config.seqWidth < s.cfg.frameCapacityBits
  senderConfig : s.cfg.senderBuilt = true →
    1 ≤ s.cfg.windowSize ∧ 1 ≤ s.cfg.dropPeriod ∧ 1 ≤ s.cfg.timeoutInterval
  /-- A receiver driven alone has no frame store (R283; log 26). -/
  alone : s.cfg.senderBuilt = false → s.cfg.totalFrames = 0
  baseBound : s.win.base ≤ s.cfg.totalFrames
  ackedBelowBase : ∀ i, i < s.cfg.totalFrames → s.win.acked[i]? = some (decide (i < s.win.base))
  droppedEligible : ∀ i, i < s.cfg.totalFrames → wasDropped s i = true →
    i ≠ 0 ∧ (i + 1) % s.cfg.dropPeriod = 0 ∧ (stampOf s i).isSome = true
  doneIff : s.snd.sstate = .done ↔ s.snd.sstate ≠ .filling ∧ s.win.base = s.cfg.totalFrames
  resting : s.snd.sstate ≠ .sliding ∧ s.snd.sstate ≠ .retransmitting
  /-- The exit flags are set only in `Done`, and in order (R172, R174, R176, R242). -/
  flags : (s.snd.eosPushed = true → s.snd.sstate = .done) ∧
    (s.snd.listenerStopped = true → s.snd.sstate = .done) ∧
    (s.snd.senderComplete = true → s.snd.eosPushed = true ∧ s.snd.listenerStopped = true)
  cursor : s.cur.assembled.length = s.cur.expected
  cursorBound : s.cur.expected ≤ Config.maxFrames
  payloadBounds : ∀ p ∈ s.cur.assembled, 1 ≤ p.length ∧ p.length ≤ s.cfg.payloadBits
  writeDoneIff : s.rcv.writeDone = true ↔ s.rcv.rstate = .stopped
  fieldWidths : ∀ m ∈ s.dch, fieldFits s.cfg.payloadBits m = true

/-- The value `expected` had when the last of these acks was sent, if the listener's `base` was `b`
before the first of them: each ack is the next one, or repeats one already counted; no ack is negative
(R80 items 2 and 3). -/
def ackCursor : Nat → List SignedField → Option Nat
  | b, [] => some b
  | b, a :: as =>
    if ackValue a = b then ackCursor (b + 1) as
    else if 0 ≤ ackValue a ∧ ackValue a < b then ackCursor b as
    else none

/-- The laws of the closed system: both engines, the two channels, nothing injected (R31, R80, R187,
R189, R236). -/
structure ClosedInv (s : State) : Prop where
  machine : MachineInv s
  constructed : s.cfg.cstatus = .ok
  built : s.cfg.senderBuilt = true
  /-- The frame store is the codec's (R40). -/
  encoded : encodeSource s.source s.cfg.frameCapacityBits = .ok s.fs
  /-- R80 item 1. -/
  cursorBelow : s.cur.expected ≤ s.cfg.totalFrames
  /-- R80 items 1 to 3. -/
  acks : ackCursor s.win.base s.ach = some s.cur.expected
  /-- R80 item 4: every frame in flight is one of the frame store's. -/
  frames : ∀ m ∈ s.dch, m = .eos ∨ ∃ i, i < s.cfg.totalFrames ∧ m = slotMsg s i
  /-- The accepted payloads are those of the first `expected` slots (R208). -/
  assembledPrefix : s.cur.assembled = (s.fs.take s.cur.expected).map Frame.payload
  /-- Before the first acceptance the head is `F0` (or, with no frame at all, `EOS`) (R161). -/
  firstIsSlotZero : s.cur.expected = 0 → ∀ m, s.dch.head? = some m → m = .eos ∨ m = slotMsg s 0
  /-- R80 item 4: the marker is the last message. -/
  noEosBefore : s.snd.eosPushed = false → .eos ∉ s.dch
  eosLast : s.snd.eosPushed = true → s.rcv.rstate = .accepting →
    ∃ ms, s.dch = ms ++ [.eos] ∧ .eos ∉ ms
  afterEos : s.rcv.rstate = .stopped →
    s.dch = [] ∧ s.snd.eosPushed = true ∧ s.sink = some s.source
  beforeEos : s.rcv.rstate = .accepting → s.sink = none
  /-- Before the fill nothing has been sent (R175). -/
  unfilled : s.snd.sstate = .filling →
    s.dch = [] ∧ s.ach = [] ∧ s.cur.expected = 0 ∧
    ∀ i, i < s.cfg.totalFrames → stampOf s i = none ∧ wasDropped s i = false
  /-- R31 item 5. -/
  stamped : s.snd.sstate ≠ .filling → WindowStamped s
  /-- No stamp lies in the future (R31 item 5). -/
  stampsPast : ∀ i t, stampOf s i = some t → t ≤ s.now
  /-- The slots beyond the window have never been attempted (R149). -/
  unsent : ∀ i, windowEnd s ≤ i → stampOf s i = none
  /-- An attempted eligible slot has been withheld (R137, R189). -/
  attemptedEligible : ∀ i t, i < s.cfg.totalFrames → stampOf s i = some t → i ≠ 0 →
    (i + 1) % s.cfg.dropPeriod = 0 → wasDropped s i = true
  /-- "Across the active window the timestamps are non-decreasing in slot order" (R187). -/
  stampsOrdered : ∀ i t u, s.win.base ≤ i → i + 1 < windowEnd s →
    stampOf s i = some t → stampOf s (i + 1) = some u → t ≤ u
  /-- When the receiver has consumed what is in flight it has reached the window's end, or expects a slot
  that was withheld (R139, R241). -/
  deliverable : s.snd.sstate ≠ .filling →
    windowEnd s ≤ dataCursor s.cur.expected s.dch ∨
      wasDropped s (dataCursor s.cur.expected s.dch) = true
  /-- The latency contract (R236). -/
  polled : s.snd.lastPoll ≤ s.now ∧
    (s.snd.sstate = .watching → s.now ≤ s.snd.lastPoll + s.cfg.pollTick)
  /-- At the last poll no slot of the window was left expired (R192). -/
  unexpired : s.snd.sstate = .watching → ∀ i t, s.win.base ≤ i → i < windowEnd s →
    stampOf s i = some t → s.snd.lastPoll ≤ t + s.cfg.timeoutInterval

/-- "The transfer *reports completion* when `senderComplete = true` and `writeDone = true`" (R240). -/
def Completed (s : State) : Prop := s.snd.senderComplete = true ∧ s.rcv.writeDone = true

/-- An operation that only finds a channel empty (R232). -/
def isIdle : Instr → Bool
  | .txaIdle => true
  | .rxIdle => true
  | _ => false

end Sys2Proof.Machine
end

