-- ==== Sys2Proof/Certificates/Slice0/Obligations.lean ====
section
/-! DEFINITION. The statements for the provers. Every docstring names the rule of `spec/` it rests on;
what is the model's own choice is said there too, with its log entry. -/

open Sys2Proof Sys2Proof.Machine

/-! ## Encoding, decoding, stepping -/

/-- Words written out from the spec's encodings decode to the instructions they stand for: the labels of
R108, the `DM` words of R133 (`F0`, `F5` at `C = 32`), of V30-4 (`C = 24`) and of the `EOS`, the `F`
word of R91, the acks of R97, the records of R100. The leading byte is the model's (log 2). -/
def Obligations.DecodeReadsTheSpecsWords : Prop :=
  decode [0x02] = .ok (.txFill, []) ∧ decode [0x0E] = .ok (.rxIdle, []) ∧
  decodeTableWord 38 0x0000104865 = some (.msgFrame 0 16 (natToBits 16 0x4865)) ∧
  decodeTableWord 38 0x0000A86400 = some (.msgFrame 5 8 (natToBits 16 0x6400)) ∧
  decodeTableWord 38 0x2000000000 = some (.msgEos 0 0 (natToBits 16 0)) ∧
  decodeDm 8 0x0001842 = .msgFrame 1 8 (natToBits 8 0x42) ∧
  decodeTableWord 32 0x0003576F = some (.fmtFrameF 3 (natToBits 16 0x576F)) ∧
  decodeTableWord 17 0x00005 = some (.msgAck 5) ∧
  decodeTableWord 17 0x1FFFF = some .msgAckNone ∧
  decodeTableWord 17 0x10000 = some (.msgAckUnexpected 0) ∧
  decodeTableWord 20 0x20003 = some (.logDropped 3) ∧
  decodeTableWord 20 0x7FFFF = some (.logAckIgnored 0x1FFFF) ∧
  decodeTableWord 20 0xA0000 = some (.logWriteDone 0) ∧
  decodeTableWord 20 0xC0010 = some (.logFault 16)

/-- Decoding what the encoder writes gives the instruction back, with every operand, and leaves the bytes
behind it (R91 to R100, R108; the byte form is log 2). -/
def Obligations.DecodeOfEncodeIsTheInstruction : Prop :=
  ∀ (i : Instr) (rest : List Byte), i.wellFormed = true → decode (encode i ++ rest) = .ok (i, rest)

/-- The other direction: bytes that decode are the encoding of the instruction they decode to, which is
well-formed; so each instruction has one encoding and no bit of it is dropped. -/
def Obligations.DecodedBytesAreTheEncoding : Prop :=
  ∀ (bs rest : List Byte) (i : Instr), decode bs = .ok (i, rest) →
    i.wellFormed = true ∧ encode i ++ rest = bs

/-- "Labels `0F` and `1A` to `1F` are unused" (R108). R108 puts labels on no channel: that a label leads
an instruction's bytes is the model's byte form (log 2, DESIGN CHOICE), and that its decoder rejects an
unused one by name, whatever follows, and encodes no instruction under one, is stated of that form. -/
def Obligations.UnusedLabelsAreRejected : Prop :=
  ∀ (b : Byte) (bs : List Byte), b.toNat = 0x0F ∨ (0x1A ≤ b.toNat ∧ b.toNat ≤ 0x1F) →
    decode (b :: bs) = .error (.unusedLabel b.toNat) ∧ ∀ i : Instr, encode i ≠ b :: bs

/-- A step runs the decoded instruction (the model's fetch, log 1): with an instruction at the front of
the script, `step` is `exec` of it on the state with its bytes taken off. Bytes that are no instruction
are refused by name. -/
def Obligations.StepRunsTheDecodedInstruction : Prop :=
  (∀ (s : State) (i : Instr) (rest : List Byte), decode s.script = .ok (i, rest) →
    i.wellFormed = true → step s = exec i { s with script := rest }) ∧
  (∀ (s : State) (e : DecodeError), s.script ≠ [] → decode s.script = .error e →
    step s = .refused (.undecodable e))

/-- With no script the block runs closed under a free schedule (R227, R229; log 4): the step is `exec` of
the free choice, and that is an enabled operation of some agent or an advance the latency contract
allows. -/
def Obligations.EmptyScriptRunsAnEnabledOperation : Prop :=
  ∀ s : State, s.script = [] →
    step s = exec (freeChoice s) { s with turn := s.turn + 1 } ∧
    (freeChoice s ∈ enabledOps s ∨ ∃ d, freeChoice s = .envAdvance d ∧ envAdvanceEnabled d s = true)

/-! ## Construction and the clock -/

/-- R261: construction "checks in this order and reports the first violation only: `windowSize`,
`frameCapacityBits`, `dropPeriod`, `timeoutInterval`, source readable, frame count". The bounds are
R280's and R245's. That it completes in every state, also after an earlier construction, is the model's
reading of R284 (log 11, DEDUCED). -/
def Obligations.ConstructionReportsTheFirstViolation : Prop :=
  ∀ (l : Launch) (s : State), ∃ t, exec (.sysConstruct (.pair l)) s = .next t ∧
    t.cfg.cstatus =
      if l.windowSize < 1 then .configWindowSize
      else if l.frameCapacityBits ≤ 16 then .configFrameCapacity
      else if l.dropPeriod < 1 then .configDropPeriod
      else if l.timeoutInterval ≤ 0 then .configTimeout
      else match l.source with
        | none => .sourceUnreadable
        | some bytes =>
          if 2 ^ 16 * (l.frameCapacityBits - 16) < 8 * bytes.length then .configFrameCount else .ok

/-- R49, R280: what a successful construction leaves, every register at its reset value, the frame store
as R123 cuts it; only the model's own fields stay (log 11). -/
def Obligations.ConstructionSetsEveryRegister : Prop :=
  ∀ (l : Launch) (s : State) (bytes : List Byte), 1 ≤ l.windowSize → 16 < l.frameCapacityBits →
    1 ≤ l.dropPeriod → 0 < l.timeoutInterval → l.source = some bytes →
    8 * bytes.length ≤ 2 ^ 16 * (l.frameCapacityBits - 16) →
    exec (.sysConstruct (.pair l)) s = .next
      { cfg :=
          { windowSize := l.windowSize, frameCapacityBits := l.frameCapacityBits
            dropPeriod := l.dropPeriod.toNat, timeoutInterval := l.timeoutInterval.toNat
            totalFrames := frameCount bytes.length (l.frameCapacityBits - 16)
            pollTick := l.pollTick, cstatus := .ok, senderBuilt := true }
        win :=
          { base := 0
            sendTimestamp :=
              List.replicate (frameCount bytes.length (l.frameCapacityBits - 16)) none
            acked := List.replicate (frameCount bytes.length (l.frameCapacityBits - 16)) false
            droppedOnce :=
              List.replicate (frameCount bytes.length (l.frameCapacityBits - 16)) false }
        snd :=
          { sstate := .filling, eosPushed := false, listenerStopped := false
            senderComplete := false, lastPoll := l.t0 }
        cur := { expected := 0, assembled := [] }
        rcv := { rstate := .accepting, writeDone := false }
        fs := (List.range (frameCount bytes.length (l.frameCapacityBits - 16))).map
          (frameOf (bitStream bytes) (l.frameCapacityBits - 16))
        dch := [], ach := [], now := l.t0, log := [], sink := none, source := bytes
        script := s.script, turn := s.turn, fnResult := s.fnResult }

/-- R283: "A receiver driven alone (for test) is constructed with `L` only": it has `L` to tell a
well-formed frame, "starts with `expected = 0`, `assembled` empty", and nothing stands in the channels,
the log or the sink; with no sender, no agent but the receiver has an operation. An `L` of 0 is refused
(R248). The values of the sender's registers, the empty frame store, the clock's 0 and the form of the
construction are the model's (log 26, DESIGN CHOICE). -/
def Obligations.ReceiverAloneIsBuiltFromItsPayloadWidth : Prop :=
  ∀ (n : Nat) (s : State),
    (1 ≤ n → ∃ t, exec (.sysConstruct (.receiverAlone n)) s = .next t ∧
      t.cfg.cstatus = .ok ∧ t.cfg.payloadBits = n ∧ t.cur = { expected := 0, assembled := [] } ∧
      t.rcv = { rstate := .accepting, writeDone := false } ∧
      t.dch = [] ∧ t.ach = [] ∧ t.log = [] ∧ t.sink = none ∧ MachineInv t ∧
      ∀ d w, let u := { t with dch := d, ach := w }
        agentOps .main u = [] ∧ agentOps .listener u = [] ∧ (d = [] → enabledOps u = [.rxIdle])) ∧
    (n = 0 → ∃ t, exec (.sysConstruct (.receiverAlone n)) s = .next t ∧
      t.cfg.cstatus = .configFrameCapacity)

/-- R38, R246: after a failed construction "every operation is disabled, both channels, the log and the
sink stay empty", and whatever operation is tried stops with the fault that R256 asks for; only a new
construction helps. -/
def Obligations.FailedConstructionDisablesEveryOperation : Prop :=
  ∀ (c : Construction) (s t : State), exec (.sysConstruct c) s = .next t → t.cfg.cstatus ≠ .ok →
    t.dch = [] ∧ t.ach = [] ∧ t.log = [] ∧ t.sink = none ∧ enabledOps t = [] ∧
    (∀ i ∈ senderOps ++ receiverEngineOps, exec i t = .fault .engineNotConstructed) ∧
    ∀ d, exec (.envAdvance d) t = .fault .engineNotConstructed

/-- R226, R236: `now <- now + d`, `now` only; with `d > 0` "enabled only if `sstate ≠ Watching` or
`now + d ≤ lastPoll + POLL_TICK`". Otherwise there is no such step: time waits and nothing changes
(log 6). -/
def Obligations.AdvanceMovesTheClockWithinTheLatencyContract : Prop :=
  ∀ (d : Nat) (s : State), s.cfg.cstatus = .ok →
    (d = 0 ∨ s.snd.sstate ≠ .watching ∨ s.now + d ≤ s.snd.lastPoll + s.cfg.pollTick →
      exec (.envAdvance d) s = .next { s with now := s.now + d }) ∧
    (0 < d → s.snd.sstate = .watching → s.snd.lastPoll + s.cfg.pollTick < s.now + d →
      exec (.envAdvance d) s = .next s)

/-! ## The codec -/

/-- R121: `B[8k + i] = bit (7 - i) of v`, and the stream has `8 * len(source)` bits. -/
def Obligations.StreamTakesEachBytesHighBitFirst : Prop :=
  ∀ source : List Byte, (bitStream source).length = 8 * source.length ∧
    ∀ (k i : Nat) (v : Byte), i < 8 → source[k]? = some v →
      (bitStream source)[8 * k + i]? = some (v.getLsbD (7 - i))

/-- `CODEC.ENCODE` (R123, R128, R130): the faults and, otherwise, all the frames: `N` is the least count
with `N * L ≥ total`, and frame `k` holds the stream bits `[k * L, min((k + 1) * L, total))`. Nothing
but the model's result field changes (log 7). -/
def Obligations.EncodeCutsTheStreamIntoFrames : Prop :=
  ∀ (source : List Byte) (c : Nat) (s : State),
    (c ≤ 16 → exec (.codecEncode source c) s =
      .next { s with fnResult := .raised .configFrameCapacity }) ∧
    (16 < c → 2 ^ 16 * (c - 16) < 8 * source.length → exec (.codecEncode source c) s =
      .next { s with fnResult := .raised .configFrameCount }) ∧
    (16 < c → 8 * source.length ≤ 2 ^ 16 * (c - 16) →
      ∃ fs : List Frame, exec (.codecEncode source c) s = .next { s with fnResult := .frames fs } ∧
        8 * source.length ≤ fs.length * (c - 16) ∧
        (∀ n, 8 * source.length ≤ n * (c - 16) → fs.length ≤ n) ∧
        ∀ k < fs.length, ∃ f, fs[k]? = some f ∧ f.seq.toNat = k ∧
          f.payload.length = min ((k + 1) * (c - 16)) (8 * source.length) - k * (c - 16) ∧
          ∀ j < f.payload.length, f.payload[j]? = (bitStream source)[k * (c - 16) + j]?)

/-- R124, R125: `N = ceil(8 * len / L)`; every frame but the last is full, the last has the rest, between
1 and `L` bits; frame `s` carries `seq = s`. -/
def Obligations.FramesAreFullButTheLast : Prop :=
  ∀ (source : List Byte) (c : Nat) (fs : List Frame), encodeSource source c = .ok fs →
    16 < c ∧ fs.length ≤ 2 ^ 16 ∧ fs.length = (8 * source.length + (c - 16) - 1) / (c - 16) ∧
    ∀ (k : Nat) (f : Frame), fs[k]? = some f → f.seq.toNat = k ∧
      (k + 1 < fs.length → frameLen f = c - 16) ∧
      (k + 1 = fs.length → frameLen f = 8 * source.length - k * (c - 16) ∧
        1 ≤ frameLen f ∧ frameLen f ≤ c - 16)

/-- `CODEC.DECODE` (R126, R131): the concatenated bits regrouped, first bit most significant; the whole
bytes are kept and the residue is what is left over. Nothing but the model's result field changes
(log 7). -/
def Obligations.DecodeRegroupsTheBits : Prop :=
  ∀ (payloads : List BitString) (s : State),
    ∃ d : Decoded, exec (.codecDecode payloads) s = .next { s with fnResult := .decoded d } ∧
      d.residue = payloads.flatten.length % 8 ∧ d.bytes.length = payloads.flatten.length / 8 ∧
      ∀ k < d.bytes.length, ∃ b, d.bytes[k]? = some b ∧
        ∀ i < 8, payloads.flatten[8 * k + i]? = some (b.getLsbD (7 - i))

/-- R127: "For every byte string `x` and every legal `C` for which `ENCODE(x, C)` does not fault,
`DECODE([f.payload for f in ENCODE(x, C)]) = x`". The answers stand in the model's result field
(log 7). -/
def Obligations.DecodeOfEncodedFramesIsTheSource : Prop :=
  ∀ (x : List Byte) (c : Nat) (fs : List Frame) (s t : State),
    exec (.codecEncode x c) s = .next t → t.fnResult = .frames fs →
    exec (.codecDecode (fs.map Frame.payload)) t =
      .next { t with fnResult := .decoded { bytes := x, residue := 0 } }

/-! ## The loss simulator, the sequencer and the timeout arbiter, executed on their own -/

/-- R135: a slot is dropped if and only if `(slotIndex+1) mod dropPeriod == 0` and `slotIndex != 0`, on
its first attempt only; the answer stands in the model's result field (log 7). A period of 0, refused
at construction (R282), stops the row (log 16). R135 bounds the slot by `N`; that the row answers the
same formula for every other slot is the model's choice (log 27, DESIGN CHOICE). -/
def Obligations.DropRuleOfTheLossSimulator : Prop :=
  ∀ (slot period : Nat) (first : Bool) (s : State),
    (1 ≤ period → exec (.lossShouldDrop slot first period) s =
      .next { s with
        fnResult := .flag (decide ((slot + 1) % period = 0 ∧ slot ≠ 0 ∧ first = true)) }) ∧
    (period = 0 → exec (.lossShouldDrop slot first period) s = .fault .dropPeriodZero)

/-- R146, R148: `RANGE(base, W, N)` is the slots `base .. min(base + W, N) - 1`, ascending;
`SLIDE_SLOT(base', W, N)` is `base' + W - 1` where that is below `N`; and moving the window from
`[b, b+W)` to `[b+1, b+1+W)` takes slot `b` out and adds exactly the slide's slot, at its end. The
rows' answers stand in the model's result field (log 7). -/
def Obligations.WindowIsClippedAndSlidesByOne : Prop :=
  (∀ (base w n : Nat) (s : State),
    ∃ l : List Nat, exec (.winRange base w n) s = .next { s with fnResult := .slots l } ∧
      (∀ i, i ∈ l ↔ base ≤ i ∧ i < min (base + w) n) ∧ l.Pairwise (· < ·)) ∧
  (∀ (base w n : Nat) (s : State), 1 ≤ w →
    exec (.winSlideSlot base w n) s = .next { s with
      fnResult := .slot (if base + w - 1 < n then some (base + w - 1) else none) }) ∧
  (∀ b w n : Nat, 1 ≤ w → b < n →
    b :: windowRange (b + 1) w n = windowRange b w n ++ (slideSlot (b + 1) w n).toList)

/-- `SEQ.XMIT` (R150) of a slot of the active window: a withheld attempt marks the slot and logs
`DROPPED`, any other enqueues the frame and logs `SENT`; both stamp `now`; nothing else changes. A slot
outside the window stops (R61). Run on its own it is the model's (log 8). -/
def Obligations.XmitAttemptsOneSlot : Prop :=
  ∀ (i : Nat) (s : State), s.cfg.cstatus = .ok → 1 ≤ s.cfg.dropPeriod → Memory.wf s →
    (s.win.base ≤ i → i < windowEnd s → (i + 1) % s.cfg.dropPeriod = 0 → i ≠ 0 →
      wasDropped s i = false →
      exec (.seqXmit i) s = .next { s with
        log := s.log ++ [{ kind := .dropped, val := i }]
        win := { s.win with
          sendTimestamp := s.win.sendTimestamp.set i (some s.now)
          droppedOnce := s.win.droppedOnce.set i true } }) ∧
    (s.win.base ≤ i → i < windowEnd s →
      ((i + 1) % s.cfg.dropPeriod ≠ 0 ∨ i = 0 ∨ wasDropped s i = true) →
      ∃ f, s.fs[i]? = some f ∧ exec (.seqXmit i) s = .next { s with
        dch := s.dch ++ [.frame f.seq (frameLen f) (payloadField s.cfg.payloadBits f.payload)]
        log := s.log ++ [{ kind := .sent, val := i }]
        win := { s.win with sendTimestamp := s.win.sendTimestamp.set i (some s.now) } }) ∧
    (i < s.win.base ∨ windowEnd s ≤ i → exec (.seqXmit i) s = .fault .slotOutsideWindow)

/-- `SEQ.SENDWINDOW` (R152): one attempt of every slot of the active window, ascending, all with the same
`now`; nothing else changes. Run on its own it is the model's (log 8). -/
def Obligations.SendWindowAttemptsTheWholeWindow : Prop :=
  ∀ s : State, MachineInv s → s.cfg.cstatus = .ok →
    ∃ t, exec .seqSendWindow s = .next t ∧ WindowAttempted [] s t ∧
      t = { s with dch := t.dch, log := t.log, win := t.win }

/-- R185: the strict comparison `now - sendTimestamp[s] > timeoutInterval`; and the stops R256 asks for,
where a stamp is `NONE` or ahead of `now`. That a slot that does not exist stops is the model's reading
of R65 (log 19, DEDUCED), and that a stamped slot outside the active window is compared the same way is
its choice (log 28, DESIGN CHOICE). The answer stands in the model's result field (log 7). -/
def Obligations.ExpiredComparesStrictly : Prop :=
  ∀ (i at_ : Nat) (s : State), s.cfg.cstatus = .ok →
    (∀ ts, stampOf s i = some ts → ts ≤ at_ →
      exec (.tmoExpired i at_) s =
        .next { s with fnResult := .flag (decide (s.cfg.timeoutInterval < at_ - ts)) }) ∧
    (i < s.win.sendTimestamp.length → stampOf s i = none →
      exec (.tmoExpired i at_) s = .fault .timestampNone) ∧
    (∀ ts, stampOf s i = some ts → at_ < ts →
      exec (.tmoExpired i at_) s = .fault .clockBehindStamp) ∧
    (s.win.sendTimestamp.length ≤ i → exec (.tmoExpired i at_) s = .fault .slotOutOfRange)

/-- R186: the expired slots of the window, ascending, and whether there is one, in the model's result
field (log 7). -/
def Obligations.ArbiterListsTheExpiredSlots : Prop :=
  ∀ (at_ : Nat) (s : State), s.cfg.cstatus = .ok →
    (∀ i, s.win.base ≤ i → i < windowEnd s → ∃ ts, stampOf s i = some ts ∧ ts ≤ at_) →
    exec (.tmoArb at_) s = .next { s with
      fnResult := .expiry (expiredSlots at_ s) (decide (expiredSlots at_ s ≠ [])) }

/-! ## The sender's operations -/

/-- `TX.FILL` (R160): one attempt of each slot of the window, `lastPoll <- now`, then `Done` when
`base = N` and `Watching` otherwise; nothing else changes. -/
def Obligations.FillTransmitsTheFirstWindow : Prop :=
  ∀ s : State, MachineInv s → s.cfg.cstatus = .ok → s.cfg.senderBuilt = true →
    s.snd.sstate = .filling →
    ∃ t, exec .txFill s = .next t ∧ WindowAttempted [] s t ∧
      t = { s with
        dch := t.dch, log := t.log, win := t.win
        snd := { s.snd with
          lastPoll := s.now
          sstate := if s.win.base = s.cfg.totalFrames then .done else .watching } }

/-- `TX.POLL` (R188): with no expired slot "nothing changes but `lastPoll`"; with one, `TIMEOUT` for each
expired slot ascending, then one attempt of every slot of the window, and back to `Watching`. -/
def Obligations.PollRetransmitsTheWindowOnExpiry : Prop :=
  ∀ s : State, MachineInv s → s.cfg.cstatus = .ok → s.cfg.senderBuilt = true →
    s.snd.sstate = .watching → WindowStamped s →
    (expiredSlots s.now s = [] →
      exec .txPoll s = .next { s with snd := { s.snd with lastPoll := s.now } }) ∧
    (expiredSlots s.now s ≠ [] →
      ∃ t, exec .txPoll s = .next t ∧
        WindowAttempted ((expiredSlots s.now s).map fun (i : Nat) => ⟨.timeout, (i : Int)⟩) s t ∧
        t = { s with
          dch := t.dch, log := t.log, win := t.win, snd := { s.snd with lastPoll := s.now } })

/-- `TXA.ACK_ACCEPT` (R166): the ack is consumed and logged, `acked[base]` set, `base` incremented, the
exposed slot, if any, attempted once, and the sender is `Done` when `base` has reached `N`; nothing else
changes. -/
def Obligations.AcceptedAckSlidesTheWindowByOne : Prop :=
  ∀ (s : State) (a : SignedField) (rest : List SignedField), MachineInv s → s.cfg.cstatus = .ok →
    s.cfg.senderBuilt = true → s.snd.sstate = .watching → s.snd.listenerStopped = false →
    s.ach = a :: rest → ackValue a = s.win.base →
    ∃ t, exec .txaAckAccept s = .next t ∧
      t = { s with
        ach := rest, dch := t.dch, log := t.log, win := t.win
        snd := { s.snd with
          sstate := if s.win.base + 1 = s.cfg.totalFrames then .done else .watching } } ∧
      t.win.base = s.win.base + 1 ∧ t.win.acked = s.win.acked.set s.win.base true ∧
      (s.win.base + s.cfg.windowSize < s.cfg.totalFrames →
        t.dch = s.dch ++ sentMsgs s [s.win.base + s.cfg.windowSize] ∧
        t.log = s.log ++ [{ kind := .ackAccepted, val := s.win.base },
          attemptRecord s (s.win.base + s.cfg.windowSize)] ∧
        t.win.sendTimestamp =
          s.win.sendTimestamp.set (s.win.base + s.cfg.windowSize) (some s.now) ∧
        t.win.droppedOnce =
          if withheldNow s (s.win.base + s.cfg.windowSize) then
            s.win.droppedOnce.set (s.win.base + s.cfg.windowSize) true
          else s.win.droppedOnce) ∧
      (s.cfg.totalFrames ≤ s.win.base + s.cfg.windowSize →
        t.dch = s.dch ∧ t.log = s.log ++ [{ kind := .ackAccepted, val := s.win.base }] ∧
        t.win.sendTimestamp = s.win.sendTimestamp ∧ t.win.droppedOnce = s.win.droppedOnce)

/-- `TXA.ACK_IGNORE` (R168, R169, R255): an ack that differs from `base`, the sentinel `-1` and every
unexpected value among them, is consumed and logged; nothing else changes. -/
def Obligations.IgnoredAckIsOnlyLogged : Prop :=
  ∀ (s : State) (a : SignedField) (rest : List SignedField), s.cfg.cstatus = .ok →
    s.cfg.senderBuilt = true → s.snd.sstate ≠ .done → s.snd.listenerStopped = false →
    s.ach = a :: rest → a.toInt ≠ s.win.base →
    exec .txaAckIgnore s = .next { s with
      ach := rest, log := s.log ++ [{ kind := .ackIgnored, val := a.toInt }] }

/-- R172, R174, R176: `TX.FINISH` enqueues the marker and sets `eosPushed`, `TXA.STOP` sets
`listenerStopped`, `TX.JOIN` sets `senderComplete`; none writes anything else. -/
def Obligations.TerminationSetsOneFlagAtATime : Prop :=
  ∀ s : State, s.cfg.cstatus = .ok → s.cfg.senderBuilt = true →
    (s.snd.sstate = .done → s.snd.eosPushed = false →
      exec .txFinish s = .next { s with
        dch := s.dch ++ [.eos], snd := { s.snd with eosPushed := true } }) ∧
    (s.snd.sstate = .done → s.snd.listenerStopped = false →
      exec .txaStop s = .next { s with snd := { s.snd with listenerStopped := true } }) ∧
    (s.snd.eosPushed = true → s.snd.listenerStopped = true → s.snd.senderComplete = false →
      exec .txJoin s = .next { s with snd := { s.snd with senderComplete := true } })

/-- R232, R70: an empty channel "is not an error": the idle operations complete and the state is
unchanged. -/
def Obligations.IdleOperationsChangeNothing : Prop :=
  ∀ s : State, s.cfg.cstatus = .ok →
    (s.cfg.senderBuilt = true → s.snd.listenerStopped = false → s.snd.sstate ≠ .done → s.ach = [] →
      exec .txaIdle s = .next s) ∧
    (s.rcv.rstate = .accepting → s.dch = [] → exec .rxIdle s = .next s)

/-! ## The receiver's operations -/

/-- `RX.ACCEPT` (R200): the payload's first `plen` bits are appended, the ack carries the value before the
increment, `expected` grows by one; nothing else changes. -/
def Obligations.AcceptedFrameIsAppendedAndAcked : Prop :=
  ∀ (s : State) (seq : SeqField) (plen : Nat) (payload : BitString) (rest : List DataMsg),
    s.cfg.cstatus = .ok → s.rcv.rstate = .accepting → s.dch = .frame seq plen payload :: rest →
    1 ≤ plen → plen ≤ s.cfg.frameCapacityBits - 16 → seq.toNat = s.cur.expected →
    ∃ a : SignedField, a.toInt = s.cur.expected ∧
      exec .rxAccept s = .next { s with
        dch := rest, ach := s.ach ++ [a]
        cur := { expected := s.cur.expected + 1
                 assembled := s.cur.assembled ++ [payload.take plen] } }

/-- `RX.REJECT` (R202): any other well-formed frame is discarded and answered by `expected - 1`, the
sentinel `-1` when nothing has been accepted; nothing else changes. The cursor's bound is R32's and
R203's, kept by `MachineInv`. -/
def Obligations.RejectedFrameRepeatsTheLastAck : Prop :=
  ∀ (s : State) (seq : SeqField) (plen : Nat) (payload : BitString) (rest : List DataMsg),
    s.cfg.cstatus = .ok → s.rcv.rstate = .accepting → s.dch = .frame seq plen payload :: rest →
    1 ≤ plen → plen ≤ s.cfg.frameCapacityBits - 16 → seq.toNat ≠ s.cur.expected →
    s.cur.expected ≤ 2 ^ 16 →
    ∃ a : SignedField, a.toInt = (s.cur.expected : Int) - 1 ∧
      exec .rxReject s = .next { s with dch := rest, ach := s.ach ++ [a] }

/-- `RX.EOS` (R204, R131): the assembled payloads are decoded and handed to the sink, `WRITE_DONE` is
logged, after a `FAULT 17` if bits are left over; the receiver stops; no ack, and nothing else changes. -/
def Obligations.EndOfStreamFlushesTheSink : Prop :=
  ∀ (s : State) (rest : List DataMsg), s.cfg.cstatus = .ok → s.rcv.rstate = .accepting →
    s.dch = .eos :: rest →
    exec .rxEos s = .next { s with
      dch := rest
      rcv := { rstate := .stopped, writeDone := true }
      sink := some (decodePayloads s.cur.assembled).bytes
      log := s.log
        ++ (if s.cur.assembled.flatten.length % 8 = 0 then [] else [{ kind := .fault, val := 17 }])
        ++ [{ kind := .writeDone, val := 0 }] }

/-- `RX.MALFORMED` (R206, R264): a frame with `plen = 0` or `plen > L` is discarded and `FAULT 16` logged,
whatever its sequence number; no ack, and nothing else changes. `RX.ACCEPT` and `RX.REJECT` are not
enabled on it and leave it (log 6). -/
def Obligations.MalformedFrameIsOnlyLogged : Prop :=
  ∀ (s : State) (seq : SeqField) (plen : Nat) (payload : BitString) (rest : List DataMsg),
    s.cfg.cstatus = .ok → s.rcv.rstate = .accepting → s.dch = .frame seq plen payload :: rest →
    plen = 0 ∨ s.cfg.frameCapacityBits - 16 < plen →
    exec .rxMalformed s = .next { s with
      dch := rest, log := s.log ++ [{ kind := .fault, val := 16 }] } ∧
    exec .rxAccept s = .next s ∧ exec .rxReject s = .next s

/-! ## Words of the formats, executed as the script's injections and records -/

/-- `MSG.FRAME`, `MSG.EOS`, `FMT.FRAME_F` (R91 to R95, and `INJ.D` of R106; log 9): the message joins the
tail of `DCH`, the other fields of an `EOS` being ignored; a word of another width than the channel's
(R90) stops (log 18). `MSG.ACK`, `MSG.ACK_NONE`, `MSG.ACK_UNEXPECTED` (R96, R97, and `INJ.A` of R106;
log 9): the ack that joins the tail of `ACH` reads, sign-extended, as `0 .. 65535`, as `-1`, as
`-65536 ..`. -/
def Obligations.MessageWordsJoinTheirChannels : Prop :=
  (∀ (seq : SeqField) (plen : Nat) (payload : BitString) (s : State), s.cfg.cstatus = .ok →
    (payload.length = s.cfg.frameCapacityBits - 16 →
      exec (.msgFrame seq plen payload) s =
        .next { s with dch := s.dch ++ [.frame seq plen payload] } ∧
      exec (.msgEos seq plen payload) s = .next { s with dch := s.dch ++ [.eos] }) ∧
    (payload.length ≠ s.cfg.frameCapacityBits - 16 →
      exec (.msgFrame seq plen payload) s = .fault .messageWidthMismatch ∧
      exec (.msgEos seq plen payload) s = .fault .messageWidthMismatch) ∧
    (payload.length ≤ s.cfg.frameCapacityBits - 16 →
      exec (.fmtFrameF seq payload) s = .next { s with
        dch := s.dch ++ [.frame seq payload.length (payload ++
          List.replicate (s.cfg.frameCapacityBits - 16 - payload.length) false)] }) ∧
    (s.cfg.frameCapacityBits - 16 < payload.length →
      exec (.fmtFrameF seq payload) s = .fault .messageWidthMismatch)) ∧
  ∀ (v : SeqField) (s : State), s.cfg.cstatus = .ok →
    (∃ a : SignedField, a.toInt = v.toNat ∧
      exec (.msgAck v) s = .next { s with ach := s.ach ++ [a] }) ∧
    (∃ a : SignedField, a.toInt = -1 ∧
      exec .msgAckNone s = .next { s with ach := s.ach ++ [a] }) ∧
    (∃ a : SignedField, a.toInt = (v.toNat : Int) - 65536 ∧
      exec (.msgAckUnexpected v) s = .next { s with ach := s.ach ++ [a] })

/-- `LOG.RECORD` and the record words (R100, R215): exactly one record is appended, its value the signed
field; nothing else changes. Run on their own they are the model's (log 8). -/
def Obligations.LogWordsAppendOneRecord : Prop :=
  ∀ (val : SignedField) (s : State), s.cfg.cstatus = .ok →
    (∀ kind, exec (.logRecord kind val) s =
      .next { s with log := s.log ++ [{ kind := kind, val := val.toInt }] }) ∧
    exec (.logSent val) s = .next { s with log := s.log ++ [{ kind := .sent, val := val.toInt }] } ∧
    exec (.logDropped val) s =
      .next { s with log := s.log ++ [{ kind := .dropped, val := val.toInt }] } ∧
    exec (.logAckAccepted val) s =
      .next { s with log := s.log ++ [{ kind := .ackAccepted, val := val.toInt }] } ∧
    exec (.logAckIgnored val) s =
      .next { s with log := s.log ++ [{ kind := .ackIgnored, val := val.toInt }] } ∧
    exec (.logTimeout val) s =
      .next { s with log := s.log ++ [{ kind := .timeout, val := val.toInt }] } ∧
    exec (.logWriteDone val) s =
      .next { s with log := s.log ++ [{ kind := .writeDone, val := val.toInt }] } ∧
    exec (.logFault val) s =
      .next { s with log := s.log ++ [{ kind := .fault, val := val.toInt }] }

/-- `LOG.RESERVED`: `lkind` 7 is "reserved", "never written" (R100, R102), and no effect is given. That
executing the word stops, in every state, with a fault of that name is the model's (log 24, DEDUCED). -/
def Obligations.ReservedLogKindStops : Prop :=
  ∀ (val : SignedField) (s : State), exec (.logReserved val) s = .fault .reservedLogKind

/-! ## Dispatch, ownership, channels -/

/-- R109: the one enabled operation of each agent, or none, in every state that keeps the machine's
invariants; a receiver alone has no sender beside it (R283; log 26). -/
def Obligations.EachAgentHasAtMostOneOperation : Prop :=
  ∀ s : State, MachineInv s → s.cfg.cstatus = .ok →
    agentOps .main s =
      (if s.cfg.senderBuilt = false then []
       else if s.snd.sstate = .filling then [.txFill]
       else if s.snd.sstate = .watching then [.txPoll]
       else if s.snd.eosPushed = false then [.txFinish]
       else if s.snd.listenerStopped = true ∧ s.snd.senderComplete = false then [.txJoin]
       else []) ∧
    agentOps .listener s =
      (if s.cfg.senderBuilt = false ∨ s.snd.listenerStopped = true then []
       else if s.snd.sstate = .done then [.txaStop]
       else match s.ach with
        | [] => [.txaIdle]
        | a :: _ => if ackValue a = s.win.base then [.txaAckAccept] else [.txaAckIgnore]) ∧
    agentOps .receiver s =
      (if s.rcv.rstate = .stopped then []
       else match s.dch with
        | [] => [.rxIdle]
        | .eos :: _ => [.rxEos]
        | .frame seq plen _ :: _ =>
          if plen = 0 ∨ s.cfg.payloadBits < plen then [.rxMalformed]
          else if seq.toNat = s.cur.expected then [.rxAccept] else [.rxReject])

/-- R227: "`σ` steps to `σ'` when some agent has an enabled operation": an operation of an agent that is
not its enabled one is no step of the block. The model then waits: nothing changes, as at the seventh
`R` of P6 in 95_test_vectors.md (log 6). -/
def Obligations.DisabledOperationsChangeNothing : Prop :=
  ∀ (i : Instr) (s : State), i ∈ senderOps ++ receiverEngineOps → s.cfg.cstatus = .ok →
    i ∉ enabledOps s → exec i s = .next s

/-- R271, R20, R72, R234: "no operation of the receiver reads or writes WindowState", nor the sender's
control state, the ack channel's earlier contents, or the clock; "no operation of the sender reads or
writes ReceiverCursor", nor the receiver's control state, the sink, or the data channel's earlier
contents: whatever stands there stays, and what the operation does besides is the same. -/
def Obligations.NeitherEngineReadsOrWritesTheOther : Prop :=
  (∀ (i : Instr) (s : State) (w : WindowState) (c : SenderControl) (n : Nat) (acks : List SignedField),
    i ∈ receiverEngineOps →
    exec i { s with win := w, snd := c, now := n, ach := acks } =
      mapNext (fun t => { t with
        win := w, snd := c, now := n, ach := acks ++ t.ach.drop s.ach.length }) (exec i s)) ∧
  ∀ (i : Instr) (s : State) (c : ReceiverCursor) (r : ReceiverControl) (k : Option (List Byte))
    (msgs : List DataMsg), i ∈ senderOps →
    exec i { s with cur := c, rcv := r, sink := k, dch := msgs } =
      mapNext (fun t => { t with
        cur := c, rcv := r, sink := k, dch := msgs ++ t.dch.drop s.dch.length }) (exec i s)

/-- R37, R132, R45, R226: after construction no instruction writes the configuration registers, the frame
store or the source; and `now` "never decreases, and nothing else ever writes it" but an advance. -/
def Obligations.ConfigurationStoresAndClockAreReadOnly : Prop :=
  ∀ (i : Instr) (s t : State), exec i s = .next t → (∀ l, i ≠ .sysConstruct l) →
    t.cfg = s.cfg ∧ t.fs = s.fs ∧ t.source = s.source ∧
    ∃ d, t.now = s.now + d ∧ (d ≠ 0 → i = .envAdvance d)

/-- R219: "No record is ever removed or changed", until a new construction. -/
def Obligations.LogIsAppendOnly : Prop :=
  ∀ (i : Instr) (s t : State), exec i s = .next t → (∀ l, i ≠ .sysConstruct l) →
    s.log <+: t.log

/-- R67, R68, R69, R72: a message leaves a channel only at the head, to its one consumer, and joins only
at the tail; nothing in between is lost, duplicated, reordered or altered. -/
def Obligations.ChannelsAreFirstInFirstOut : Prop :=
  ∀ (i : Instr) (s t : State), exec i s = .next t → (∀ l, i ≠ .sysConstruct l) →
    ((∃ ms, t.dch = s.dch ++ ms) ∨
      (i ∈ [.rxAccept, .rxReject, .rxEos, .rxMalformed] ∧ ∃ m, s.dch = m :: t.dch)) ∧
    ((∃ acks, t.ach = s.ach ++ acks) ∨
      (i ∈ [.txaAckAccept, .txaAckIgnore] ∧ ∃ a, s.ach = a :: t.ach))

/-! ## Laws of the registers -/

/-- R165: "`base` never decreases, and increases by exactly 1 per accepted in-order ack;
out-of-order/duplicate acks never move `base`." -/
def Obligations.BaseMovesOnlyByAnAcceptedAck : Prop :=
  ∀ (i : Instr) (s t : State), exec i s = .next t → (∀ l, i ≠ .sysConstruct l) →
    (i ≠ .txaAckAccept ∨ i ∉ enabledOps s → t.win.base = s.win.base) ∧
    (i = .txaAckAccept → i ∈ enabledOps s → t.win.base = s.win.base + 1 ∧
      ∃ a rest, s.ach = a :: rest ∧ ackValue a = s.win.base)

/-- R36: "`assembled` length == `expected` at all times": every instruction keeps it, an enabled
`RX.ACCEPT` alone moves either, by one, and a successful construction starts it with both empty. -/
def Obligations.AssembledLengthIsExpected : Prop :=
  ∀ (i : Instr) (s t : State), exec i s = .next t →
    (s.cur.assembled.length = s.cur.expected → t.cur.assembled.length = t.cur.expected) ∧
    ((∃ l, i = .sysConstruct l) → t.cfg.cstatus = .ok →
      t.cur = { expected := 0, assembled := [] }) ∧
    (i = .rxAccept → i ∈ enabledOps s → t.cur.expected = s.cur.expected + 1) ∧
    ((∀ l, i ≠ .sysConstruct l) → i ≠ .rxAccept ∨ i ∉ enabledOps s → t.cur = s.cur)

/-- R228: seen between operations the sender goes `Filling → Watching → Done` or `Filling → Done`, each by
the operation and under the condition of the graph, and "There is no transition out of `Done`, none into
`Filling`". The premises are R175's and R31's. -/
def Obligations.SenderStateFollowsItsGraph : Prop :=
  ∀ (i : Instr) (s t : State), MachineInv s → (s.snd.sstate = .filling → s.ach = []) →
    exec i s = .next t → (∀ l, i ≠ .sysConstruct l) →
    t.snd.sstate = s.snd.sstate ∧ (i = .txFill → i ∉ enabledOps s) ∨
    i = .txFill ∧ i ∈ enabledOps s ∧ s.snd.sstate = .filling ∧
      t.snd.sstate = (if s.win.base < s.cfg.totalFrames then .watching else .done) ∨
    i = .txaAckAccept ∧ s.snd.sstate = .watching ∧ t.snd.sstate = .done ∧
      t.win.base = s.cfg.totalFrames

/-- R230, R205: `Accepting → Stopped` on `RX.EOS` and no other change; "nothing leaves `Stopped`", and in
it the receiver has no enabled operation. -/
def Obligations.ReceiverStopsOnceAtEndOfStream : Prop :=
  (∀ (i : Instr) (s t : State), exec i s = .next t → (∀ l, i ≠ .sysConstruct l) →
    (i ≠ .rxEos ∨ i ∉ enabledOps s → t.rcv = s.rcv) ∧
    (i = .rxEos → i ∈ enabledOps s →
      s.rcv.rstate = .accepting ∧ t.rcv = { rstate := .stopped, writeDone := true })) ∧
  (∀ s : State, s.rcv.rstate = .stopped → agentOps .receiver s = [])

/-- R140, R150: a slot is withheld at most once: a set drop flag stays set, and an operation logs
`DROPPED k` exactly when it sets the flag of slot `k`, once. -/
def Obligations.SlotIsWithheldAtMostOnce : Prop :=
  ∀ (i : Instr) (s t : State) (k : Nat), MachineInv s → i ∈ senderOps ++ receiverEngineOps →
    exec i s = .next t →
    (wasDropped s k = true → wasDropped t k = true) ∧
    (t.log.drop s.log.length).count { kind := .dropped, val := (k : Int) } =
      (wasDropped t k).toNat - (wasDropped s k).toNat

/-- R31 items 2 and 5, R23: a stamp is only ever written for a slot of the active window, as it stands
after the operation, and it is the clock's `now`. -/
def Obligations.OnlyTheActiveWindowIsStamped : Prop :=
  ∀ (i : Instr) (s t : State) (k : Nat), MachineInv s → exec i s = .next t →
    (∀ l, i ≠ .sysConstruct l) → stampOf t k ≠ stampOf s k →
    t.win.base ≤ k ∧ k < windowEnd t ∧ stampOf t k = some s.now

/-! ## Invariants -/

/-- The stores' canonical form, the legal registers, R31 items 1, 3, 6 and 7, R36 and the order of the
exit flags, kept by every step of the machine, whatever the script holds. -/
def Obligations.EveryStepKeepsTheMachineInvariant : Prop :=
  ∀ s t : State, MachineInv s → step s = .next t → MachineInv t

/-- The machine's invariant holds at reset (log 5 names the reset launch). -/
def Obligations.ResetKeepsTheMachineInvariant : Prop := MachineInv State.reset

/-- The laws of the closed system (R31, R80, R187, R189, R236, R208) hold after every successful
construction. -/
def Obligations.ConstructionStartsTheClosedSystem : Prop :=
  ∀ (l : Launch) (s t : State), exec (.sysConstruct (.pair l)) s = .next t → t.cfg.cstatus = .ok →
    ClosedInv t

/-- Under every schedule the closed system keeps its laws and never stops: whatever enabled operation, or
allowed advance, is taken, it completes and the laws hold after it (R31, R80, R187, R189, R256); and so
does every step of the machine's own with no script, which leaves the script empty. -/
def Obligations.EveryScheduleKeepsTheClosedLaws : Prop :=
  (∀ (s : State) (d : Nat) (i : Instr), ClosedInv s → i ∈ choices d s →
    ∃ t, exec i s = .next t ∧ ClosedInv t) ∧
  ∀ s : State, ClosedInv s → s.script = [] → ∃ t, step s = .next t ∧ ClosedInv t ∧ t.script = []

/-! ## The closed system -/

/-- R189: "`SHOULD_DROP` is false for every slot of a retransmission, and a retransmission enqueues
exactly `winEnd - base` frames". -/
def Obligations.RetransmissionsAreAlwaysDelivered : Prop :=
  ∀ s t : State, ClosedInv s → exec .txPoll s = .next t → expiredSlots s.now s ≠ [] →
    t.dch = s.dch ++ (activeWindow s).map (slotMsg s) ∧
    (activeWindow s).length = windowEnd s - s.win.base ∧
    t.win.droppedOnce = s.win.droppedOnce

/-- R187: "slot `base` always holds the oldest timestamp, the list `E` … is always a prefix of the window,
and the window times out exactly when slot `base` does". -/
def Obligations.WindowTimesOutWithItsBase : Prop :=
  ∀ s : State, ClosedInv s → s.snd.sstate = .watching →
    (∀ i ts u, i ∈ activeWindow s → stampOf s s.win.base = some ts → stampOf s i = some u → ts ≤ u) ∧
    ∀ at_ : Nat, s.now ≤ at_ → expiredSlots at_ s <+: activeWindow s ∧
      (expiredSlots at_ s ≠ [] ↔ s.win.base ∈ expiredSlots at_ s)

/-- R192, R297: a slot of the window stamped at `ts` is reported at a poll exactly when `now` exceeds
`ts + timeoutInterval`, and then no later than one polling tick after it. -/
def Obligations.TimeoutFiresWithinOnePollTick : Prop :=
  ∀ (s t : State) (k ts : Nat), ClosedInv s → exec .txPoll s = .next t → k ∈ activeWindow s →
    stampOf s k = some ts →
    ({ kind := .timeout, val := (k : Int) } ∈ t.log.drop s.log.length ↔
      ts + s.cfg.timeoutInterval < s.now) ∧
    (ts + s.cfg.timeoutInterval < s.now →
      s.now ≤ ts + s.cfg.timeoutInterval + s.cfg.pollTick)

/-- R155, R31 item 4: once the fill has run, the slots transmitted but not yet acknowledged are exactly
the active window, and they are at most `windowSize`. -/
def Obligations.UnacknowledgedSlotsAreTheWindow : Prop :=
  ∀ s : State, ClosedInv s → s.snd.sstate ≠ .filling →
    (∀ i, (stampOf s i).isSome = true ∧ s.win.acked[i]? = some false ↔ i ∈ activeWindow s) ∧
    (activeWindow s).length ≤ s.cfg.windowSize

/-- R240, R208: in the completed state "no agent but the environment has an enabled operation, `DCH` is
empty, `sink = source`, `base = expected = N`, and `ACH` holds only values `< N`". -/
def Obligations.CompletionDeliversTheSource : Prop :=
  ∀ s : State, ClosedInv s → Completed s →
    s.sink = some s.source ∧ s.dch = [] ∧ s.win.base = s.cfg.totalFrames ∧
    s.cur.expected = s.cfg.totalFrames ∧
    (∀ a ∈ s.ach, 0 ≤ ackValue a ∧ ackValue a < s.cfg.totalFrames) ∧ enabledOps s = []

/-- R241: a state of the closed system that is not completed has an enabled operation other than an idle
one or a poll, or it is `Watching` with both channels empty, and then a poll late enough retransmits the
window, which is not empty. -/
def Obligations.ClosedSystemHasNoDeadlock : Prop :=
  ∀ s : State, ClosedInv s → ¬Completed s →
    (∃ i ∈ enabledOps s, i ≠ .txPoll ∧ isIdle i = false) ∨
    (s.snd.sstate = .watching ∧ s.dch = [] ∧ s.ach = [] ∧
      ∀ n ts, stampOf s s.win.base = some ts → ts + s.cfg.timeoutInterval < n → s.now ≤ n →
        ∃ t, exec .txPoll { s with now := n } = .next t ∧
          t.dch = (activeWindow s).map (slotMsg s) ∧ t.dch ≠ [])

/-- R239: "Under rule R238 every run reaches the completed state": whatever schedule the agents and the
clock follow from a state of the closed system, if it is fair it reports completion. The runs are of the
step relation (R227), not of one scheduler (log 23). -/
def Obligations.EveryFairRunCompletesTheTransfer : Prop :=
  ∀ (states : Nat → State) (ops : Nat → Instr), IsRun states ops → Fair states ops →
    ClosedInv (states 0) → ∃ n, Completed (states n)

/-- R239, R140: in every run, fair or not, "the number of retransmissions caused by *loss* is at most the
number of eligible slots", which is `floor(N / dropPeriod)`, or `N - 1` with a period of 1; any other
retransmission is spurious (R191): messages are outstanding in a channel, and `timeoutInterval` has
passed over slot `base`. What counts as caused by loss is the model's reading of R139 (log 23, DEDUCED). -/
def Obligations.LossCausesBoundedRetransmissions : Prop :=
  ∀ (states : Nat → State) (ops : Nat → Instr), IsRun states ops → ClosedInv (states 0) →
    (∀ n, (lossRetransmissions states ops n).length ≤ (eligibleSlots (states 0)).length) ∧
    (eligibleSlots (states 0)).length =
      (if (states 0).cfg.dropPeriod = 1 then (states 0).cfg.totalFrames - 1
       else (states 0).cfg.totalFrames / (states 0).cfg.dropPeriod) ∧
    ∀ k, retransmits (states k) (ops k) = true → slotLost (states k) = false →
      ((states k).dch ≠ [] ∨ (states k).ach ≠ []) ∧
      ∃ ts, stampOf (states k) (states k).win.base = some ts ∧
        ts + (states k).cfg.timeoutInterval < (states k).now

/-- The fair runs are not empty of such ends (R239): from every state of the closed system some schedule
of the agents and of the clock completes the transfer, if the clock can move at all between polls. -/
def Obligations.SomeScheduleCompletesTheTransfer : Prop :=
  ∀ s : State, ClosedInv s → 0 < s.cfg.pollTick →
    ∃ (steps : List ScriptStep) (t : State),
      (∀ st ∈ steps, (∃ a, st = .agent a) ∨ ∃ d, st = .advance d) ∧
      runScript steps s = .next t ∧ Completed t
end

