-- ==== Sys2Proof/Laws/Decode.lean ====
section
/-! SUPPORT. What the operand readers give back of what the writers wrote, and the bit strings as
numbers: the pieces of "decoding an encoded instruction gives it back". -/

namespace Sys2Proof.Laws

/-! ### Bits and numbers -/

theorem bitsToNat_lt (bs : BitString) : bitsToNat bs < 2 ^ bs.length := by
  induction bs with
  | nil => simp [bitsToNat]
  | cons b bs ih =>
    have hb : b.toNat ≤ 1 := by cases b <;> simp
    have : b.toNat * 2 ^ bs.length ≤ 1 * 2 ^ bs.length := Nat.mul_le_mul_right _ hb
    simp only [bitsToNat, List.length_cons, Nat.pow_succ]
    omega

@[simp] theorem natToBits_length (n v : Nat) : (natToBits n v).length = n := by
  induction n with
  | zero => rfl
  | succ n ih => simp [natToBits, ih]

theorem bitsToNat_natToBits (n v : Nat) : bitsToNat (natToBits n v) = v % 2 ^ n := by
  induction n with
  | zero => simp [natToBits, bitsToNat, Nat.mod_one]
  | succ n ih =>
    simp only [natToBits, bitsToNat, natToBits_length, ih]
    rw [Nat.testBit_eq_decide_div_mod_eq, Nat.pow_succ, Nat.mod_mul]
    rcases Nat.mod_two_eq_zero_or_one (v / 2 ^ n) with h | h <;> simp [h, Nat.add_comm]

/-- Only the low `n` bits matter. -/
theorem natToBits_mod (n v w : Nat) (h : v % 2 ^ n = w % 2 ^ n) : natToBits n v = natToBits n w := by
  induction n with
  | zero => rfl
  | succ n ih =>
    have hb : v.testBit n = w.testBit n := by
      have := congrArg (fun x => x.testBit n) h
      simpa [Nat.testBit_mod_two_pow] using this
    have hlow : v % 2 ^ n = w % 2 ^ n := by
      have := congrArg (fun x => x % 2 ^ n) h
      simpa [Nat.pow_succ, Nat.mod_mul_right_mod] using this
    simp [natToBits, hb, ih hlow]

theorem natToBits_bitsToNat (bs : BitString) : natToBits bs.length (bitsToNat bs) = bs := by
  induction bs with
  | nil => rfl
  | cons b bs ih =>
    have hlt := bitsToNat_lt bs
    have hhead : (bitsToNat (b :: bs)).testBit bs.length = b := by
      simp only [bitsToNat]
      rw [Nat.testBit_eq_decide_div_mod_eq, Nat.add_comm,
        Nat.add_mul_div_right _ _ (Nat.two_pow_pos _), Nat.div_eq_of_lt hlt]
      cases b <;> simp
    have htail : natToBits bs.length (bitsToNat (b :: bs)) = bs := by
      rw [natToBits_mod bs.length _ (bitsToNat bs) (by simp [bitsToNat]), ih]
    simp only [List.length_cons, natToBits, hhead, htail]

/-- `PLEN_WIDTH` "is the least `w` with `2^w > L`" (R92). -/
theorem lt_two_pow_plenWidth (l : Nat) : l < 2 ^ plenWidth l := by
  unfold plenWidth
  split
  · omega
  · exact Nat.lt_log2_self

/-! ### Readers and writers -/

@[simp] theorem thenRead_ok {α β : Type} (a : α) (rest : List Byte) (k : α → List Byte → Read β) :
    thenRead (.ok (a, rest)) k = k a rest := rfl

@[simp] theorem thenRead_error {α β : Type} (e : DecodeError) (k : α → List Byte → Read β) :
    thenRead (.error e) k = .error e := rfl

/-- A read that succeeds through `thenRead` succeeded at its first operand. -/
theorem thenRead_eq_ok {α β : Type} {r : Read α} {k : α → List Byte → Read β} {y : β × List Byte}
    (h : thenRead r k = .ok y) : ∃ a rest, r = .ok (a, rest) ∧ k a rest = .ok y := by
  cases r with
  | error e => simp at h
  | ok p => exact ⟨p.1, p.2, rfl, h⟩

/-- Enough fuel is enough. -/
theorem writeGroups_fuel (n f g : Nat) (hf : n ≤ f) (hg : n ≤ g) :
    writeGroups f n = writeGroups g n := by
  induction f generalizing n g with
  | zero =>
    obtain rfl : n = 0 := by omega
    cases g <;> simp [writeGroups]
  | succ f ih =>
    cases g with
    | zero =>
      obtain rfl : n = 0 := by omega
      simp [writeGroups]
    | succ g =>
      simp only [writeGroups]
      split
      · rfl
      · rw [ih (n / 128) g (by omega) (by omega)]

theorem writeNat_small {n : Nat} (h : n < 128) : writeNat n = [BitVec.ofNat 8 n] := by
  unfold writeNat
  cases n <;> simp [writeGroups, h]

theorem writeNat_large {n : Nat} (h : 128 ≤ n) :
    writeNat n = BitVec.ofNat 8 (128 + n % 128) :: writeNat (n / 128) := by
  unfold writeNat
  obtain ⟨m, rfl⟩ : ∃ m, n = m + 1 := ⟨n - 1, by omega⟩
  simp only [writeGroups, Nat.not_lt.mpr h, ↓reduceIte]
  rw [writeGroups_fuel ((m + 1) / 128) m ((m + 1) / 128) (by omega) (by omega)]

@[simp] theorem readNat_writeNat (n : Nat) (rest : List Byte) :
    readNat (writeNat n ++ rest) = .ok (n, rest) := by
  induction n using Nat.strongRecOn with
  | ind n ih =>
    by_cases h : n < 128
    · have h8 : n % 256 = n := by omega
      simp [writeNat_small h, readNat, h8, h]
    · have hm : (128 + n % 128) % 256 = 128 + n % 128 := by omega
      rw [writeNat_large (by omega)]
      simp only [List.cons_append, readNat, BitVec.toNat_ofNat]
      rw [ih (n / 128) (by omega)]
      simp only [show (2 : Nat) ^ 8 = 256 from rfl, hm]
      rw [if_neg (by omega), if_neg (by omega)]
      congr 2
      omega

/-- A number read is the number written: no other bytes spell it. -/
theorem writeNat_of_readNat (bs rest : List Byte) (n : Nat) (h : readNat bs = .ok (n, rest)) :
    writeNat n ++ rest = bs := by
  induction bs generalizing n rest with
  | nil => simp [readNat] at h
  | cons b bs ih =>
    have hb := b.isLt
    unfold readNat at h
    split at h
    · rename_i hlt
      simp only [Except.ok.injEq, Prod.mk.injEq] at h
      obtain ⟨rfl, rfl⟩ := h
      simp [writeNat_small hlt]
    · rename_i hge
      cases hr : readNat bs with
      | error e => simp [hr] at h
      | ok p =>
        obtain ⟨m, r⟩ := p
        simp only [hr] at h
        split at h
        · cases h
        · rename_i hm
          simp only [Except.ok.injEq, Prod.mk.injEq] at h
          obtain ⟨rfl, rfl⟩ := h
          have h1 : 128 ≤ b.toNat - 128 + 128 * m := by omega
          have h2 : (b.toNat - 128 + 128 * m) / 128 = m := by omega
          have h3 : 128 + (b.toNat - 128 + 128 * m) % 128 = b.toNat := by omega
          rw [writeNat_large h1, h2, h3, List.cons_append, ih r m hr]
          simp

@[simp] theorem readPos_writePos {n : Nat} (h : 1 ≤ n) (rest : List Byte) :
    readPos (writePos n ++ rest) = .ok (n, rest) := by
  simp only [readPos, writePos, readNat_writeNat, thenRead_ok]
  congr 2
  omega

@[simp] theorem unfoldInt_foldInt (i : Int) : unfoldInt (foldInt i) = i := by
  cases i with
  | ofNat n => simp [foldInt, unfoldInt]
  | negSucc n =>
    have h1 : (2 * n + 1) % 2 = 1 := by omega
    have h2 : (2 * n + 1) / 2 = n := by omega
    simp [foldInt, unfoldInt, h1, h2]

@[simp] theorem foldInt_unfoldInt (n : Nat) : foldInt (unfoldInt n) = n := by
  unfold unfoldInt
  split <;> simp only [foldInt] <;> omega

@[simp] theorem readInt_writeInt (i : Int) (rest : List Byte) :
    readInt (writeInt i ++ rest) = .ok (i, rest) := by simp [readInt, writeInt]

@[simp] theorem readBool_writeBool (b : Bool) (rest : List Byte) :
    readBool (writeBool b ++ rest) = .ok (b, rest) := by cases b <;> simp [readBool, writeBool]

@[simp] theorem readWord_writeNat {width n : Nat} (h : n < 2 ^ width) (rest : List Byte) :
    readWord width (writeNat n ++ rest) = .ok (n, rest) := by simp [readWord, h]

@[simp] theorem readSigned_writeSigned (v : SignedField) (rest : List Byte) :
    readSigned (writeSigned v ++ rest) = .ok (v, rest) := by
  simp [readSigned, writeSigned, readWord_writeNat v.isLt]

@[simp] theorem readBytes_writeBytes (l rest : List Byte) :
    readBytes (writeBytes l ++ rest) = .ok (l, rest) := by simp [readBytes, writeBytes]

@[simp] theorem readSource_writeSource (o : Option (List Byte)) (rest : List Byte) :
    readSource (writeSource o ++ rest) = .ok (o, rest) := by
  cases o <;> simp [readSource, writeSource]

@[simp] theorem readBits_writeBits (p : BitString) (rest : List Byte) :
    readBits (writeBits p ++ rest) = .ok (p, rest) := by
  simp [readBits, writeBits, readWord_writeNat (bitsToNat_lt p), natToBits_bitsToNat]

theorem readBitsTimes_writeBits (ps : List BitString) (rest : List Byte) :
    readBitsTimes ps.length (ps.flatMap writeBits ++ rest) = .ok (ps, rest) := by
  induction ps with
  | nil => rfl
  | cons p ps ih => simp [readBitsTimes, ih]

@[simp] theorem readBitsList_writeBitsList (ps : List BitString) (rest : List Byte) :
    readBitsList (writeBitsList ps ++ rest) = .ok (ps, rest) := by
  simp [readBitsList, writeBitsList, readBitsTimes_writeBits]

@[simp] theorem ofCode_code (k : LogKind) : LogKind.ofCode k.code = some k := by cases k <;> rfl

@[simp] theorem readLogKind_writeLogKind (k : LogKind) (rest : List Byte) :
    readLogKind (writeLogKind k ++ rest) = .ok (k, rest) := by simp [readLogKind, writeLogKind]

@[simp] theorem readLaunch_writeLaunch (l : Launch) (rest : List Byte) :
    readLaunch (writeLaunch l ++ rest) = .ok (l, rest) := by simp [readLaunch, writeLaunch]

@[simp] theorem readConstruction_writeConstruction (c : Construction) (rest : List Byte) :
    readConstruction (writeConstruction c ++ rest) = .ok (c, rest) := by
  cases c <;> simp [readConstruction, writeConstruction]

/-! ### The words of the formats -/

theorem dmWord_lt {kind : Nat} (seq : SeqField) {plen : Nat} (payload : BitString) (hk : kind < 2)
    (hp : plen < 2 ^ plenWidth payload.length) :
    dmWord kind seq plen payload < 2 ^ dmWidth payload.length := by
  have h1 := bitsToNat_lt payload
  have h2 := seq.isLt
  simp only [dmWord, dmWidth, Config.seqWidth, Nat.pow_add]
  generalize 2 ^ plenWidth payload.length = P at *
  generalize 2 ^ payload.length = Q at *
  have a : kind * 2 ^ 16 + seq.toNat + 1 ≤ 2 ^ 1 * 2 ^ 16 := by omega
  have b : (kind * 2 ^ 16 + seq.toNat) * P + plen + 1 ≤ 2 ^ 1 * 2 ^ 16 * P := by
    calc (kind * 2 ^ 16 + seq.toNat) * P + plen + 1 ≤ (kind * 2 ^ 16 + seq.toNat) * P + P := by omega
      _ = (kind * 2 ^ 16 + seq.toNat + 1) * P := by ring
      _ ≤ _ := Nat.mul_le_mul_right _ a
  calc ((kind * 2 ^ 16 + seq.toNat) * P + plen) * Q + bitsToNat payload
      < ((kind * 2 ^ 16 + seq.toNat) * P + plen) * Q + Q := by omega
    _ = ((kind * 2 ^ 16 + seq.toNat) * P + plen + 1) * Q := by ring
    _ ≤ _ := Nat.mul_le_mul_right _ b

theorem frameWord_lt (seq : SeqField) (payload : BitString) :
    frameWord seq payload < 2 ^ (Config.seqWidth + payload.length) := by
  have h1 := bitsToNat_lt payload
  have h2 := seq.isLt
  simp only [frameWord, Config.seqWidth, Nat.pow_add]
  generalize 2 ^ payload.length = Q at *
  calc seq.toNat * Q + bitsToNat payload < seq.toNat * Q + Q := by omega
    _ = (seq.toNat + 1) * Q := by ring
    _ ≤ _ := Nat.mul_le_mul_right _ h2

/-- What stands above a field, and the field. -/
theorem field_div {hi lo w : Nat} (h : lo < 2 ^ w) : (hi * 2 ^ w + lo) / 2 ^ w = hi := by
  rw [Nat.add_comm, Nat.add_mul_div_right _ _ (Nat.two_pow_pos w), Nat.div_eq_of_lt h, Nat.zero_add]

theorem field_mod {hi lo w : Nat} (h : lo < 2 ^ w) : (hi * 2 ^ w + lo) % 2 ^ w = lo := by
  rw [Nat.add_comm, Nat.add_mul_mod_self_right, Nat.mod_eq_of_lt h]

theorem natToBits_field (hi : Nat) (payload : BitString) :
    natToBits payload.length (hi * 2 ^ payload.length + bitsToNat payload) = payload := by
  rw [natToBits_mod payload.length _ (bitsToNat payload) (by simp), natToBits_bitsToNat]

/-! ### What a reader has read is what the writer writes -/

theorem writePos_of_readPos {bs rest : List Byte} {n : Nat} (h : readPos bs = .ok (n, rest)) :
    1 ≤ n ∧ writePos n ++ rest = bs := by
  obtain ⟨a, r, h1, h2⟩ := thenRead_eq_ok h
  cases h2
  exact ⟨by omega, by simpa [writePos] using writeNat_of_readNat _ _ _ h1⟩

theorem writeInt_of_readInt {bs rest : List Byte} {i : Int} (h : readInt bs = .ok (i, rest)) :
    writeInt i ++ rest = bs := by
  obtain ⟨a, r, h1, h2⟩ := thenRead_eq_ok h
  cases h2
  simpa [writeInt] using writeNat_of_readNat _ _ _ h1

theorem writeBool_of_readBool {bs rest : List Byte} {b : Bool} (h : readBool bs = .ok (b, rest)) :
    writeBool b ++ rest = bs := by
  obtain ⟨a, r, h1, h2⟩ := thenRead_eq_ok h
  split at h2
  · cases h2; subst a; exact writeNat_of_readNat _ _ _ h1
  · split at h2
    · cases h2; subst a; exact writeNat_of_readNat _ _ _ h1
    · cases h2

theorem writeNat_of_readWord {w n : Nat} {bs rest : List Byte} (h : readWord w bs = .ok (n, rest)) :
    n < 2 ^ w ∧ writeNat n ++ rest = bs := by
  obtain ⟨a, r, h1, h2⟩ := thenRead_eq_ok h
  split at h2
  · cases h2; exact ⟨by assumption, writeNat_of_readNat _ _ _ h1⟩
  · cases h2

theorem writeSigned_of_readSigned {bs rest : List Byte} {v : SignedField}
    (h : readSigned bs = .ok (v, rest)) : writeSigned v ++ rest = bs := by
  obtain ⟨a, r, h1, h2⟩ := thenRead_eq_ok h
  cases h2
  obtain ⟨h3, h4⟩ := writeNat_of_readWord h1
  rw [writeSigned, BitVec.toNat_ofNat, Nat.mod_eq_of_lt h3]
  exact h4

theorem writeBytes_of_readBytes {bs rest l : List Byte} (h : readBytes bs = .ok (l, rest)) :
    writeBytes l ++ rest = bs := by
  obtain ⟨a, r, h1, h2⟩ := thenRead_eq_ok h
  split at h2
  · cases h2; rw [← writeNat_of_readNat _ _ _ h1]; simp [writeBytes, *]
  · cases h2

theorem writeSource_of_readSource {bs rest : List Byte} {o : Option (List Byte)}
    (h : readSource bs = .ok (o, rest)) : writeSource o ++ rest = bs := by
  obtain ⟨a, r, h1, h2⟩ := thenRead_eq_ok h
  have hb := writeBool_of_readBool h1
  split at h2
  · obtain ⟨l, r2, h3, h4⟩ := thenRead_eq_ok h2
    cases h4
    subst a
    rw [← hb, ← writeBytes_of_readBytes h3]
    simp [writeSource]
  · cases h2
    simp_all [writeSource]

theorem writeBits_of_readBits {bs rest : List Byte} {p : BitString} (h : readBits bs = .ok (p, rest)) :
    writeBits p ++ rest = bs := by
  obtain ⟨a, r, h1, h2⟩ := thenRead_eq_ok h
  obtain ⟨v, r2, h3, h4⟩ := thenRead_eq_ok h2
  cases h4
  obtain ⟨h5, h6⟩ := writeNat_of_readWord h3
  rw [← writeNat_of_readNat _ _ _ h1, ← h6]
  simp [writeBits, bitsToNat_natToBits, Nat.mod_eq_of_lt h5]

theorem flatMap_writeBits_of_readBitsTimes {n : Nat} {bs rest : List Byte} {ps : List BitString}
    (h : readBitsTimes n bs = .ok (ps, rest)) : ps.length = n ∧ ps.flatMap writeBits ++ rest = bs := by
  induction n generalizing bs ps with
  | zero => simp [readBitsTimes] at h; obtain ⟨rfl, rfl⟩ := h; simp
  | succ n ih =>
    obtain ⟨a, r, h1, h2⟩ := thenRead_eq_ok h
    obtain ⟨v, r2, h3, h4⟩ := thenRead_eq_ok h2
    cases h4
    obtain ⟨h5, h6⟩ := ih h3
    rw [← writeBits_of_readBits h1, ← h6]
    simp [h5]

theorem writeBitsList_of_readBitsList {bs rest : List Byte} {ps : List BitString}
    (h : readBitsList bs = .ok (ps, rest)) : writeBitsList ps ++ rest = bs := by
  obtain ⟨a, r, h1, h2⟩ := thenRead_eq_ok h
  obtain ⟨h5, h6⟩ := flatMap_writeBits_of_readBitsTimes h2
  rw [← writeNat_of_readNat _ _ _ h1, ← h6]
  simp [writeBitsList, h5]

theorem writeLogKind_of_readLogKind {bs rest : List Byte} {k : LogKind}
    (h : readLogKind bs = .ok (k, rest)) : writeLogKind k ++ rest = bs := by
  obtain ⟨a, r, h1, h2⟩ := thenRead_eq_ok h
  rw [← writeNat_of_readNat _ _ _ h1]
  split at h2
  · cases h2
    rename_i h7
    unfold LogKind.ofCode at h7
    split at h7 <;> cases h7 <;> rfl
  · cases h2

theorem writeLaunch_of_readLaunch {bs rest : List Byte} {l : Launch} (h : readLaunch bs = .ok (l, rest)) :
    writeLaunch l ++ rest = bs := by
  obtain ⟨a, r, h1, h⟩ := thenRead_eq_ok h
  obtain ⟨a2, r2, h2, h⟩ := thenRead_eq_ok h
  obtain ⟨a3, r3, h3, h⟩ := thenRead_eq_ok h
  obtain ⟨a4, r4, h4, h⟩ := thenRead_eq_ok h
  obtain ⟨a5, r5, h5, h⟩ := thenRead_eq_ok h
  obtain ⟨a6, r6, h6, h⟩ := thenRead_eq_ok h
  obtain ⟨a7, r7, h7, h⟩ := thenRead_eq_ok h
  cases h
  rw [← writeNat_of_readNat _ _ _ h1, ← writeNat_of_readNat _ _ _ h2, ← writeInt_of_readInt h3,
    ← writeInt_of_readInt h4, ← writeNat_of_readNat _ _ _ h5, ← writeSource_of_readSource h6,
    ← writeNat_of_readNat _ _ _ h7]
  simp [writeLaunch]

theorem writeConstruction_of_readConstruction {bs rest : List Byte} {c : Construction}
    (h : readConstruction bs = .ok (c, rest)) : writeConstruction c ++ rest = bs := by
  obtain ⟨a, r, h1, h2⟩ := thenRead_eq_ok h
  rw [← writeBool_of_readBool h1]
  cases a
  · obtain ⟨l, r2, h3, h4⟩ := thenRead_eq_ok h2
    cases h4
    simp [writeConstruction, ← writeLaunch_of_readLaunch h3]
  · obtain ⟨n, r2, h3, h4⟩ := thenRead_eq_ok h2
    cases h4
    simp [writeConstruction, ← writeNat_of_readNat _ _ _ h3]

/-- The instruction a `DM` word is read as is well-formed, and its bytes are that word's. -/
theorem encode_decodeDm {l w : Nat} (hl : 1 ≤ l) (h : w < 2 ^ dmWidth l) :
    (decodeDm l w).wellFormed = true ∧
    ∀ rest, encode (decodeDm l w) ++ rest = 0x20 :: (writePos l ++ (writeNat w ++ rest)) := by
  have key : ∀ k, w / 2 ^ (l + plenWidth l + Config.seqWidth) = k →
      dmWord k (BitVec.ofNat 16 (w / 2 ^ (l + plenWidth l))) (w / 2 ^ l % 2 ^ plenWidth l)
        (natToBits l w) = w := by
    intro k hk
    simp only [dmWord, natToBits_length, bitsToNat_natToBits, BitVec.toNat_ofNat]
    have : k * 2 ^ Config.seqWidth + w / 2 ^ (l + plenWidth l) % 2 ^ 16 = w / 2 ^ (l + plenWidth l) := by
      rw [← hk, Nat.pow_add _ (l + plenWidth l), ← Nat.div_div_eq_div_mul]
      exact Nat.div_add_mod' _ _
    rw [this, Nat.pow_add, ← Nat.div_div_eq_div_mul, Nat.div_add_mod', Nat.div_add_mod']
  have hk : w / 2 ^ (l + plenWidth l + Config.seqWidth) < 2 := by
    rw [Nat.div_lt_iff_lt_mul (Nat.two_pow_pos _), ← Nat.pow_succ',
      show (l + plenWidth l + Config.seqWidth).succ = dmWidth l by simp [dmWidth]; omega]
    exact h
  have hp := Nat.mod_lt (w / 2 ^ l) (Nat.two_pow_pos (plenWidth l))
  obtain ⟨q, hq⟩ : ∃ q, w / 2 ^ (l + plenWidth l + Config.seqWidth) = q := ⟨_, rfl⟩
  unfold decodeDm
  simp only
  rw [hq] at hk ⊢
  obtain rfl | rfl : q = 0 ∨ q = 1 := by omega
  all_goals
    have hw := key _ hq
    simp only [Nat.zero_mod, Nat.one_mod, Nat.one_ne_zero, ↓reduceIte, Instr.wellFormed, dmFieldsFit,
      natToBits_length, encode, hw]
    simp [hl, hp]

end Sys2Proof.Laws
end

