-- ==== Sys2Proof/Laws/Codec.lean ====
section
/-! SUPPORT. What the codec's two functions give: the stream bit by bit, the frames, and that regrouping
the frames' payloads gives the stream back. -/

namespace Sys2Proof.Laws

open Sys2Proof.Machine

/-! ### The stream -/

@[simp] theorem byteBits_length (b : Byte) : (byteBits b).length = 8 := natToBits_length _ _

@[simp] theorem bitStream_nil : bitStream [] = [] := rfl

theorem bitStream_cons (b : Byte) (bs : List Byte) : bitStream (b :: bs) = byteBits b ++ bitStream bs := rfl

@[simp] theorem bitStream_length (source : List Byte) :
    (bitStream source).length = 8 * source.length := by
  induction source with
  | nil => rfl
  | cons b bs ih => simp [bitStream_cons, ih]; omega

theorem natToBits_getElem? (n v i : Nat) (h : i < n) :
    (natToBits n v)[i]? = some (v.testBit (n - 1 - i)) := by
  induction n generalizing i with
  | zero => omega
  | succ n ih =>
    cases i with
    | zero => simp [natToBits]
    | succ i =>
      simp only [natToBits, List.getElem?_cons_succ]
      rw [ih i (by omega), show n + 1 - 1 - (i + 1) = n - 1 - i from by omega]

/-- `B[8k + i] = bit (7 - i) of v` (R121), for the stream from byte `k` on. -/
theorem bitStream_drop (source : List Byte) (k : Nat) :
    (bitStream source).drop (8 * k) = bitStream (source.drop k) := by
  induction k generalizing source with
  | zero => simp
  | succ k ih =>
    cases source with
    | nil => simp
    | cons b bs =>
      rw [bitStream_cons, List.drop_succ_cons, ← ih bs,
        show 8 * (k + 1) = (byteBits b).length + 8 * k from by simp; omega, List.drop_append,
        List.drop_of_length_le (by omega), Nat.add_sub_cancel_left, List.nil_append]

/-- A byte is read back from its bits. -/
theorem byteAt_bitStream {source : List Byte} {k : Nat} {b : Byte} (h : source[k]? = some b) :
    byteAt (bitStream source) k = b := by
  obtain ⟨hlt, rfl⟩ := List.getElem?_eq_some_iff.mp h
  unfold byteAt
  rw [bitStream_drop, List.drop_eq_getElem_cons hlt, bitStream_cons,
    List.take_append_of_le_length (by simp), List.take_of_length_le (by simp)]
  apply BitVec.eq_of_toNat_eq
  simpa [byteBits, bitsToNat_natToBits] using (source[k]).isLt

/-! ### Frames -/

theorem ceilDiv_le {a b q : Nat} (hb : 1 ≤ b) : ceilDiv a b ≤ q ↔ a ≤ q * b := by
  unfold ceilDiv
  rw [Nat.div_le_iff_le_mul_add_pred (by omega), Nat.mul_comm b q]
  omega

theorem lt_ceilDiv {a b q : Nat} (hb : 1 ≤ b) : q < ceilDiv a b ↔ q * b < a := by
  have := @ceilDiv_le a b q hb
  omega

/-- Everything `CODEC.ENCODE` can answer without a fault (R123). -/
theorem encodeSource_eq_ok {source : List Byte} {c : Nat} {fs : List Frame} :
    encodeSource source c = .ok fs ↔
      16 < c ∧ frameCount source.length (c - 16) ≤ 65536 ∧
      fs = (List.range (frameCount source.length (c - 16))).map
        (frameOf (bitStream source) (c - 16)) := by
  unfold encodeSource
  simp only [Config.seqWidth, Config.maxFrames]
  by_cases hc : c ≤ 16
  · simp only [hc, ↓reduceIte, reduceCtorEq, false_iff]; omega
  · by_cases hn : 65536 < frameCount source.length (c - 16)
    · simp only [hc, hn, ↓reduceIte, reduceCtorEq, false_iff]; omega
    · simp only [hc, hn, ↓reduceIte, Except.ok.injEq]
      constructor
      · rintro rfl; exact ⟨by omega, by omega, rfl⟩
      · rintro ⟨-, -, rfl⟩; rfl

@[simp] theorem frameLen_frameOf (stream : BitString) (l s : Nat) (h : s * l ≤ stream.length) :
    frameLen (frameOf stream l s) = min ((s + 1) * l) stream.length - s * l := by
  simp only [frameLen, frameOf, List.length_take, List.length_drop]
  omega

/-- The payloads of the first `n` slots are the first `n * l` bits of the stream (R123, R127). -/
theorem frames_flatten (stream : BitString) (l n : Nat) :
    (((List.range n).map (frameOf stream l)).map Frame.payload).flatten = stream.take (n * l) := by
  induction n with
  | zero => simp
  | succ n ih =>
    rw [List.range_succ, List.map_append, List.map_append, List.flatten_append, ih]
    simp only [List.map_cons, List.map_nil, List.flatten_cons, List.flatten_nil, List.append_nil, frameOf]
    have hmul : (n + 1) * l = n * l + l := by rw [Nat.add_mul, Nat.one_mul]
    by_cases h : n * l ≤ stream.length
    · rw [show (n + 1) * l = n * l + ((n + 1) * l - n * l) from by omega, List.take_add]
      congr 1
      by_cases h2 : (n + 1) * l ≤ stream.length
      · rw [show min (n * l + ((n + 1) * l - n * l)) stream.length - n * l = (n + 1) * l - n * l from by omega]
      · rw [List.take_of_length_le (by simp; omega), List.take_of_length_le (by simp; omega)]
    · rw [List.drop_of_length_le (by omega), List.take_nil, List.append_nil,
        List.take_of_length_le (by omega), List.take_of_length_le (by omega)]

/-- The frames of an encoded source concatenate to its stream. -/
theorem encoded_flatten {source : List Byte} {c : Nat} {fs : List Frame}
    (h : encodeSource source c = .ok fs) : (fs.map Frame.payload).flatten = bitStream source := by
  obtain ⟨hc, -, rfl⟩ := encodeSource_eq_ok.mp h
  rw [frames_flatten, List.take_of_length_le]
  rw [bitStream_length]
  exact (ceilDiv_le (by omega)).mp (Nat.le_refl _)

/-- Payloads that concatenate to a source's stream decode to the source, with nothing left over
(R126, R127). -/
theorem decodePayloads_of_flatten {payloads : List BitString} {source : List Byte}
    (h : payloads.flatten = bitStream source) :
    decodePayloads payloads = { bytes := source, residue := 0 } := by
  unfold decodePayloads
  rw [h, bitStream_length]
  congr 1
  · apply List.ext_getElem?
    intro k
    rw [show 8 * source.length / 8 = source.length from by omega]
    by_cases hk : k < source.length
    · simp [hk, byteAt_bitStream (List.getElem?_eq_getElem hk)]
    · simp [hk]
  · omega

/-- Every frame of an encoded source carries its slot number and a payload of 1 to `L` bits
(R124, R125). -/
theorem encoded_frame {source : List Byte} {c : Nat} {fs : List Frame}
    (h : encodeSource source c = .ok fs) {k : Nat} {f : Frame} (hf : fs[k]? = some f) :
    f = frameOf (bitStream source) (c - 16) k ∧ k < fs.length ∧ k * (c - 16) < 8 * source.length := by
  obtain ⟨hc, -, rfl⟩ := encodeSource_eq_ok.mp h
  obtain ⟨hk, rfl⟩ := List.getElem?_eq_some_iff.mp hf
  rw [List.length_map, List.length_range] at hk
  exact ⟨by simp, by simpa using hk, (lt_ceilDiv (by omega)).mp hk⟩

theorem encoded_frameLen {source : List Byte} {c : Nat} {fs : List Frame}
    (h : encodeSource source c = .ok fs) {f : Frame} (hf : f ∈ fs) :
    1 ≤ frameLen f ∧ frameLen f ≤ c - 16 := by
  obtain ⟨k, hk⟩ := List.getElem?_of_mem hf
  obtain ⟨rfl, -, hlt⟩ := encoded_frame h hk
  have hc := (encodeSource_eq_ok.mp h).1
  have hmul : (k + 1) * (c - 16) = k * (c - 16) + (c - 16) := by rw [Nat.add_mul, Nat.one_mul]
  rw [frameLen_frameOf _ _ _ (by rw [bitStream_length]; omega), bitStream_length]
  omega

theorem encoded_length_le {source : List Byte} {c : Nat} {fs : List Frame}
    (h : encodeSource source c = .ok fs) : fs.length ≤ 65536 := by
  obtain ⟨-, hn, rfl⟩ := encodeSource_eq_ok.mp h
  simpa using hn

end Sys2Proof.Laws
end

