-- ==== Sys2Proof/Laws/State.lean ====
section
/-! SUPPORT. One lemma per field per named update of the state, so that no later proof unfolds a record
update. -/

namespace Sys2Proof.Laws

open Sys2Proof.Machine

variable (s : State)

/-! ### `State.enqData` -/

@[simp] theorem enqData_cfg (m : DataMsg) : (s.enqData m).cfg = s.cfg := rfl
@[simp] theorem enqData_win (m : DataMsg) : (s.enqData m).win = s.win := rfl
@[simp] theorem enqData_snd (m : DataMsg) : (s.enqData m).snd = s.snd := rfl
@[simp] theorem enqData_cur (m : DataMsg) : (s.enqData m).cur = s.cur := rfl
@[simp] theorem enqData_rcv (m : DataMsg) : (s.enqData m).rcv = s.rcv := rfl
@[simp] theorem enqData_fs (m : DataMsg) : (s.enqData m).fs = s.fs := rfl
@[simp] theorem enqData_dch (m : DataMsg) : (s.enqData m).dch = s.dch ++ [m] := rfl
@[simp] theorem enqData_ach (m : DataMsg) : (s.enqData m).ach = s.ach := rfl
@[simp] theorem enqData_now (m : DataMsg) : (s.enqData m).now = s.now := rfl
@[simp] theorem enqData_log (m : DataMsg) : (s.enqData m).log = s.log := rfl
@[simp] theorem enqData_sink (m : DataMsg) : (s.enqData m).sink = s.sink := rfl
@[simp] theorem enqData_source (m : DataMsg) : (s.enqData m).source = s.source := rfl
@[simp] theorem enqData_script (m : DataMsg) : (s.enqData m).script = s.script := rfl
@[simp] theorem enqData_turn (m : DataMsg) : (s.enqData m).turn = s.turn := rfl
@[simp] theorem enqData_fnResult (m : DataMsg) : (s.enqData m).fnResult = s.fnResult := rfl

/-! ### `State.enqAck` -/

@[simp] theorem enqAck_cfg (a : SignedField) : (s.enqAck a).cfg = s.cfg := rfl
@[simp] theorem enqAck_win (a : SignedField) : (s.enqAck a).win = s.win := rfl
@[simp] theorem enqAck_snd (a : SignedField) : (s.enqAck a).snd = s.snd := rfl
@[simp] theorem enqAck_cur (a : SignedField) : (s.enqAck a).cur = s.cur := rfl
@[simp] theorem enqAck_rcv (a : SignedField) : (s.enqAck a).rcv = s.rcv := rfl
@[simp] theorem enqAck_fs (a : SignedField) : (s.enqAck a).fs = s.fs := rfl
@[simp] theorem enqAck_dch (a : SignedField) : (s.enqAck a).dch = s.dch := rfl
@[simp] theorem enqAck_ach (a : SignedField) : (s.enqAck a).ach = s.ach ++ [a] := rfl
@[simp] theorem enqAck_now (a : SignedField) : (s.enqAck a).now = s.now := rfl
@[simp] theorem enqAck_log (a : SignedField) : (s.enqAck a).log = s.log := rfl
@[simp] theorem enqAck_sink (a : SignedField) : (s.enqAck a).sink = s.sink := rfl
@[simp] theorem enqAck_source (a : SignedField) : (s.enqAck a).source = s.source := rfl
@[simp] theorem enqAck_script (a : SignedField) : (s.enqAck a).script = s.script := rfl
@[simp] theorem enqAck_turn (a : SignedField) : (s.enqAck a).turn = s.turn := rfl
@[simp] theorem enqAck_fnResult (a : SignedField) : (s.enqAck a).fnResult = s.fnResult := rfl

/-! ### `State.appendPayload` -/

@[simp] theorem appendPayload_cfg (p : BitString) : (s.appendPayload p).cfg = s.cfg := rfl
@[simp] theorem appendPayload_win (p : BitString) : (s.appendPayload p).win = s.win := rfl
@[simp] theorem appendPayload_snd (p : BitString) : (s.appendPayload p).snd = s.snd := rfl
@[simp] theorem appendPayload_cur (p : BitString) : (s.appendPayload p).cur = { s.cur with assembled := s.cur.assembled ++ [p] } := rfl
@[simp] theorem appendPayload_rcv (p : BitString) : (s.appendPayload p).rcv = s.rcv := rfl
@[simp] theorem appendPayload_fs (p : BitString) : (s.appendPayload p).fs = s.fs := rfl
@[simp] theorem appendPayload_dch (p : BitString) : (s.appendPayload p).dch = s.dch := rfl
@[simp] theorem appendPayload_ach (p : BitString) : (s.appendPayload p).ach = s.ach := rfl
@[simp] theorem appendPayload_now (p : BitString) : (s.appendPayload p).now = s.now := rfl
@[simp] theorem appendPayload_log (p : BitString) : (s.appendPayload p).log = s.log := rfl
@[simp] theorem appendPayload_sink (p : BitString) : (s.appendPayload p).sink = s.sink := rfl
@[simp] theorem appendPayload_source (p : BitString) : (s.appendPayload p).source = s.source := rfl
@[simp] theorem appendPayload_script (p : BitString) : (s.appendPayload p).script = s.script := rfl
@[simp] theorem appendPayload_turn (p : BitString) : (s.appendPayload p).turn = s.turn := rfl
@[simp] theorem appendPayload_fnResult (p : BitString) : (s.appendPayload p).fnResult = s.fnResult := rfl

/-! ### `State.record` -/

@[simp] theorem record_cfg (k : LogKind) (v : Int) : (s.record k v).cfg = s.cfg := rfl
@[simp] theorem record_win (k : LogKind) (v : Int) : (s.record k v).win = s.win := rfl
@[simp] theorem record_snd (k : LogKind) (v : Int) : (s.record k v).snd = s.snd := rfl
@[simp] theorem record_cur (k : LogKind) (v : Int) : (s.record k v).cur = s.cur := rfl
@[simp] theorem record_rcv (k : LogKind) (v : Int) : (s.record k v).rcv = s.rcv := rfl
@[simp] theorem record_fs (k : LogKind) (v : Int) : (s.record k v).fs = s.fs := rfl
@[simp] theorem record_dch (k : LogKind) (v : Int) : (s.record k v).dch = s.dch := rfl
@[simp] theorem record_ach (k : LogKind) (v : Int) : (s.record k v).ach = s.ach := rfl
@[simp] theorem record_now (k : LogKind) (v : Int) : (s.record k v).now = s.now := rfl
@[simp] theorem record_log (k : LogKind) (v : Int) : (s.record k v).log = s.log ++ [{ kind := k, val := v }] := rfl
@[simp] theorem record_sink (k : LogKind) (v : Int) : (s.record k v).sink = s.sink := rfl
@[simp] theorem record_source (k : LogKind) (v : Int) : (s.record k v).source = s.source := rfl
@[simp] theorem record_script (k : LogKind) (v : Int) : (s.record k v).script = s.script := rfl
@[simp] theorem record_turn (k : LogKind) (v : Int) : (s.record k v).turn = s.turn := rfl
@[simp] theorem record_fnResult (k : LogKind) (v : Int) : (s.record k v).fnResult = s.fnResult := rfl

/-! ### `State.sinkWrite` -/

@[simp] theorem sinkWrite_cfg (bs : List Byte) : (s.sinkWrite bs).cfg = s.cfg := rfl
@[simp] theorem sinkWrite_win (bs : List Byte) : (s.sinkWrite bs).win = s.win := rfl
@[simp] theorem sinkWrite_snd (bs : List Byte) : (s.sinkWrite bs).snd = s.snd := rfl
@[simp] theorem sinkWrite_cur (bs : List Byte) : (s.sinkWrite bs).cur = s.cur := rfl
@[simp] theorem sinkWrite_rcv (bs : List Byte) : (s.sinkWrite bs).rcv = s.rcv := rfl
@[simp] theorem sinkWrite_fs (bs : List Byte) : (s.sinkWrite bs).fs = s.fs := rfl
@[simp] theorem sinkWrite_dch (bs : List Byte) : (s.sinkWrite bs).dch = s.dch := rfl
@[simp] theorem sinkWrite_ach (bs : List Byte) : (s.sinkWrite bs).ach = s.ach := rfl
@[simp] theorem sinkWrite_now (bs : List Byte) : (s.sinkWrite bs).now = s.now := rfl
@[simp] theorem sinkWrite_log (bs : List Byte) : (s.sinkWrite bs).log = s.log := rfl
@[simp] theorem sinkWrite_sink (bs : List Byte) : (s.sinkWrite bs).sink = some bs := rfl
@[simp] theorem sinkWrite_source (bs : List Byte) : (s.sinkWrite bs).source = s.source := rfl
@[simp] theorem sinkWrite_script (bs : List Byte) : (s.sinkWrite bs).script = s.script := rfl
@[simp] theorem sinkWrite_turn (bs : List Byte) : (s.sinkWrite bs).turn = s.turn := rfl
@[simp] theorem sinkWrite_fnResult (bs : List Byte) : (s.sinkWrite bs).fnResult = s.fnResult := rfl

/-! ### `State.setSState` -/

@[simp] theorem setSState_cfg (v : SState) : (s.setSState v).cfg = s.cfg := rfl
@[simp] theorem setSState_win (v : SState) : (s.setSState v).win = s.win := rfl
@[simp] theorem setSState_snd (v : SState) : (s.setSState v).snd = { s.snd with sstate := v } := rfl
@[simp] theorem setSState_cur (v : SState) : (s.setSState v).cur = s.cur := rfl
@[simp] theorem setSState_rcv (v : SState) : (s.setSState v).rcv = s.rcv := rfl
@[simp] theorem setSState_fs (v : SState) : (s.setSState v).fs = s.fs := rfl
@[simp] theorem setSState_dch (v : SState) : (s.setSState v).dch = s.dch := rfl
@[simp] theorem setSState_ach (v : SState) : (s.setSState v).ach = s.ach := rfl
@[simp] theorem setSState_now (v : SState) : (s.setSState v).now = s.now := rfl
@[simp] theorem setSState_log (v : SState) : (s.setSState v).log = s.log := rfl
@[simp] theorem setSState_sink (v : SState) : (s.setSState v).sink = s.sink := rfl
@[simp] theorem setSState_source (v : SState) : (s.setSState v).source = s.source := rfl
@[simp] theorem setSState_script (v : SState) : (s.setSState v).script = s.script := rfl
@[simp] theorem setSState_turn (v : SState) : (s.setSState v).turn = s.turn := rfl
@[simp] theorem setSState_fnResult (v : SState) : (s.setSState v).fnResult = s.fnResult := rfl

/-! ### `State.setLastPoll` -/

@[simp] theorem setLastPoll_cfg (t : Nat) : (s.setLastPoll t).cfg = s.cfg := rfl
@[simp] theorem setLastPoll_win (t : Nat) : (s.setLastPoll t).win = s.win := rfl
@[simp] theorem setLastPoll_snd (t : Nat) : (s.setLastPoll t).snd = { s.snd with lastPoll := t } := rfl
@[simp] theorem setLastPoll_cur (t : Nat) : (s.setLastPoll t).cur = s.cur := rfl
@[simp] theorem setLastPoll_rcv (t : Nat) : (s.setLastPoll t).rcv = s.rcv := rfl
@[simp] theorem setLastPoll_fs (t : Nat) : (s.setLastPoll t).fs = s.fs := rfl
@[simp] theorem setLastPoll_dch (t : Nat) : (s.setLastPoll t).dch = s.dch := rfl
@[simp] theorem setLastPoll_ach (t : Nat) : (s.setLastPoll t).ach = s.ach := rfl
@[simp] theorem setLastPoll_now (t : Nat) : (s.setLastPoll t).now = s.now := rfl
@[simp] theorem setLastPoll_log (t : Nat) : (s.setLastPoll t).log = s.log := rfl
@[simp] theorem setLastPoll_sink (t : Nat) : (s.setLastPoll t).sink = s.sink := rfl
@[simp] theorem setLastPoll_source (t : Nat) : (s.setLastPoll t).source = s.source := rfl
@[simp] theorem setLastPoll_script (t : Nat) : (s.setLastPoll t).script = s.script := rfl
@[simp] theorem setLastPoll_turn (t : Nat) : (s.setLastPoll t).turn = s.turn := rfl
@[simp] theorem setLastPoll_fnResult (t : Nat) : (s.setLastPoll t).fnResult = s.fnResult := rfl

/-! ### `State.stamp` -/

@[simp] theorem stamp_cfg (i : Nat) (t : Nat) : (s.stamp i t).cfg = s.cfg := rfl
@[simp] theorem stamp_win (i : Nat) (t : Nat) : (s.stamp i t).win = { s.win with sendTimestamp := s.win.sendTimestamp.set i (some t) } := rfl
@[simp] theorem stamp_snd (i : Nat) (t : Nat) : (s.stamp i t).snd = s.snd := rfl
@[simp] theorem stamp_cur (i : Nat) (t : Nat) : (s.stamp i t).cur = s.cur := rfl
@[simp] theorem stamp_rcv (i : Nat) (t : Nat) : (s.stamp i t).rcv = s.rcv := rfl
@[simp] theorem stamp_fs (i : Nat) (t : Nat) : (s.stamp i t).fs = s.fs := rfl
@[simp] theorem stamp_dch (i : Nat) (t : Nat) : (s.stamp i t).dch = s.dch := rfl
@[simp] theorem stamp_ach (i : Nat) (t : Nat) : (s.stamp i t).ach = s.ach := rfl
@[simp] theorem stamp_now (i : Nat) (t : Nat) : (s.stamp i t).now = s.now := rfl
@[simp] theorem stamp_log (i : Nat) (t : Nat) : (s.stamp i t).log = s.log := rfl
@[simp] theorem stamp_sink (i : Nat) (t : Nat) : (s.stamp i t).sink = s.sink := rfl
@[simp] theorem stamp_source (i : Nat) (t : Nat) : (s.stamp i t).source = s.source := rfl
@[simp] theorem stamp_script (i : Nat) (t : Nat) : (s.stamp i t).script = s.script := rfl
@[simp] theorem stamp_turn (i : Nat) (t : Nat) : (s.stamp i t).turn = s.turn := rfl
@[simp] theorem stamp_fnResult (i : Nat) (t : Nat) : (s.stamp i t).fnResult = s.fnResult := rfl

/-! ### `State.markDropped` -/

@[simp] theorem markDropped_cfg (i : Nat) : (s.markDropped i).cfg = s.cfg := rfl
@[simp] theorem markDropped_win (i : Nat) : (s.markDropped i).win = { s.win with droppedOnce := s.win.droppedOnce.set i true } := rfl
@[simp] theorem markDropped_snd (i : Nat) : (s.markDropped i).snd = s.snd := rfl
@[simp] theorem markDropped_cur (i : Nat) : (s.markDropped i).cur = s.cur := rfl
@[simp] theorem markDropped_rcv (i : Nat) : (s.markDropped i).rcv = s.rcv := rfl
@[simp] theorem markDropped_fs (i : Nat) : (s.markDropped i).fs = s.fs := rfl
@[simp] theorem markDropped_dch (i : Nat) : (s.markDropped i).dch = s.dch := rfl
@[simp] theorem markDropped_ach (i : Nat) : (s.markDropped i).ach = s.ach := rfl
@[simp] theorem markDropped_now (i : Nat) : (s.markDropped i).now = s.now := rfl
@[simp] theorem markDropped_log (i : Nat) : (s.markDropped i).log = s.log := rfl
@[simp] theorem markDropped_sink (i : Nat) : (s.markDropped i).sink = s.sink := rfl
@[simp] theorem markDropped_source (i : Nat) : (s.markDropped i).source = s.source := rfl
@[simp] theorem markDropped_script (i : Nat) : (s.markDropped i).script = s.script := rfl
@[simp] theorem markDropped_turn (i : Nat) : (s.markDropped i).turn = s.turn := rfl
@[simp] theorem markDropped_fnResult (i : Nat) : (s.markDropped i).fnResult = s.fnResult := rfl

/-! ### `State.setResult` -/

@[simp] theorem setResult_cfg (r : FnResult) : (s.setResult r).cfg = s.cfg := rfl
@[simp] theorem setResult_win (r : FnResult) : (s.setResult r).win = s.win := rfl
@[simp] theorem setResult_snd (r : FnResult) : (s.setResult r).snd = s.snd := rfl
@[simp] theorem setResult_cur (r : FnResult) : (s.setResult r).cur = s.cur := rfl
@[simp] theorem setResult_rcv (r : FnResult) : (s.setResult r).rcv = s.rcv := rfl
@[simp] theorem setResult_fs (r : FnResult) : (s.setResult r).fs = s.fs := rfl
@[simp] theorem setResult_dch (r : FnResult) : (s.setResult r).dch = s.dch := rfl
@[simp] theorem setResult_ach (r : FnResult) : (s.setResult r).ach = s.ach := rfl
@[simp] theorem setResult_now (r : FnResult) : (s.setResult r).now = s.now := rfl
@[simp] theorem setResult_log (r : FnResult) : (s.setResult r).log = s.log := rfl
@[simp] theorem setResult_sink (r : FnResult) : (s.setResult r).sink = s.sink := rfl
@[simp] theorem setResult_source (r : FnResult) : (s.setResult r).source = s.source := rfl
@[simp] theorem setResult_script (r : FnResult) : (s.setResult r).script = s.script := rfl
@[simp] theorem setResult_turn (r : FnResult) : (s.setResult r).turn = s.turn := rfl
@[simp] theorem setResult_fnResult (r : FnResult) : (s.setResult r).fnResult = r := rfl

/-! ### `State.raiseFailSoft` -/

@[simp] theorem raiseFailSoft_cfg (f : FaultCode) : (s.raiseFailSoft f).cfg = s.cfg := rfl
@[simp] theorem raiseFailSoft_win (f : FaultCode) : (s.raiseFailSoft f).win = s.win := rfl
@[simp] theorem raiseFailSoft_snd (f : FaultCode) : (s.raiseFailSoft f).snd = s.snd := rfl
@[simp] theorem raiseFailSoft_cur (f : FaultCode) : (s.raiseFailSoft f).cur = s.cur := rfl
@[simp] theorem raiseFailSoft_rcv (f : FaultCode) : (s.raiseFailSoft f).rcv = s.rcv := rfl
@[simp] theorem raiseFailSoft_fs (f : FaultCode) : (s.raiseFailSoft f).fs = s.fs := rfl
@[simp] theorem raiseFailSoft_dch (f : FaultCode) : (s.raiseFailSoft f).dch = s.dch := rfl
@[simp] theorem raiseFailSoft_ach (f : FaultCode) : (s.raiseFailSoft f).ach = s.ach := rfl
@[simp] theorem raiseFailSoft_now (f : FaultCode) : (s.raiseFailSoft f).now = s.now := rfl
@[simp] theorem raiseFailSoft_log (f : FaultCode) : (s.raiseFailSoft f).log = s.log ++ [{ kind := .fault, val := f.code }] := rfl
@[simp] theorem raiseFailSoft_sink (f : FaultCode) : (s.raiseFailSoft f).sink = s.sink := rfl
@[simp] theorem raiseFailSoft_source (f : FaultCode) : (s.raiseFailSoft f).source = s.source := rfl
@[simp] theorem raiseFailSoft_script (f : FaultCode) : (s.raiseFailSoft f).script = s.script := rfl
@[simp] theorem raiseFailSoft_turn (f : FaultCode) : (s.raiseFailSoft f).turn = s.turn := rfl
@[simp] theorem raiseFailSoft_fnResult (f : FaultCode) : (s.raiseFailSoft f).fnResult = s.fnResult := rfl

/-! ### `State.recordTimeouts` -/

@[simp] theorem recordTimeouts_cfg (l : List Nat) : (s.recordTimeouts l).cfg = s.cfg := rfl
@[simp] theorem recordTimeouts_win (l : List Nat) : (s.recordTimeouts l).win = s.win := rfl
@[simp] theorem recordTimeouts_snd (l : List Nat) : (s.recordTimeouts l).snd = s.snd := rfl
@[simp] theorem recordTimeouts_cur (l : List Nat) : (s.recordTimeouts l).cur = s.cur := rfl
@[simp] theorem recordTimeouts_rcv (l : List Nat) : (s.recordTimeouts l).rcv = s.rcv := rfl
@[simp] theorem recordTimeouts_fs (l : List Nat) : (s.recordTimeouts l).fs = s.fs := rfl
@[simp] theorem recordTimeouts_dch (l : List Nat) : (s.recordTimeouts l).dch = s.dch := rfl
@[simp] theorem recordTimeouts_ach (l : List Nat) : (s.recordTimeouts l).ach = s.ach := rfl
@[simp] theorem recordTimeouts_now (l : List Nat) : (s.recordTimeouts l).now = s.now := rfl
@[simp] theorem recordTimeouts_log (l : List Nat) : (s.recordTimeouts l).log = s.log ++ l.map fun i => { kind := .timeout, val := i } := rfl
@[simp] theorem recordTimeouts_sink (l : List Nat) : (s.recordTimeouts l).sink = s.sink := rfl
@[simp] theorem recordTimeouts_source (l : List Nat) : (s.recordTimeouts l).source = s.source := rfl
@[simp] theorem recordTimeouts_script (l : List Nat) : (s.recordTimeouts l).script = s.script := rfl
@[simp] theorem recordTimeouts_turn (l : List Nat) : (s.recordTimeouts l).turn = s.turn := rfl
@[simp] theorem recordTimeouts_fnResult (l : List Nat) : (s.recordTimeouts l).fnResult = s.fnResult := rfl

/-! ### `State.enterRetransmission` -/

@[simp] theorem enterRetransmission_cfg (l : List Nat) : (s.enterRetransmission l).cfg = s.cfg := rfl
@[simp] theorem enterRetransmission_win (l : List Nat) : (s.enterRetransmission l).win = s.win := rfl
@[simp] theorem enterRetransmission_snd (l : List Nat) : (s.enterRetransmission l).snd = { s.snd with sstate := .retransmitting } := rfl
@[simp] theorem enterRetransmission_cur (l : List Nat) : (s.enterRetransmission l).cur = s.cur := rfl
@[simp] theorem enterRetransmission_rcv (l : List Nat) : (s.enterRetransmission l).rcv = s.rcv := rfl
@[simp] theorem enterRetransmission_fs (l : List Nat) : (s.enterRetransmission l).fs = s.fs := rfl
@[simp] theorem enterRetransmission_dch (l : List Nat) : (s.enterRetransmission l).dch = s.dch := rfl
@[simp] theorem enterRetransmission_ach (l : List Nat) : (s.enterRetransmission l).ach = s.ach := rfl
@[simp] theorem enterRetransmission_now (l : List Nat) : (s.enterRetransmission l).now = s.now := rfl
@[simp] theorem enterRetransmission_log (l : List Nat) : (s.enterRetransmission l).log = s.log ++ l.map fun i => { kind := .timeout, val := i } := rfl
@[simp] theorem enterRetransmission_sink (l : List Nat) : (s.enterRetransmission l).sink = s.sink := rfl
@[simp] theorem enterRetransmission_source (l : List Nat) : (s.enterRetransmission l).source = s.source := rfl
@[simp] theorem enterRetransmission_script (l : List Nat) : (s.enterRetransmission l).script = s.script := rfl
@[simp] theorem enterRetransmission_turn (l : List Nat) : (s.enterRetransmission l).turn = s.turn := rfl
@[simp] theorem enterRetransmission_fnResult (l : List Nat) : (s.enterRetransmission l).fnResult = s.fnResult := rfl

/-! ### `State.leaveRetransmission` -/

@[simp] theorem leaveRetransmission_cfg : (s.leaveRetransmission).cfg = s.cfg := rfl
@[simp] theorem leaveRetransmission_win : (s.leaveRetransmission).win = s.win := rfl
@[simp] theorem leaveRetransmission_snd : (s.leaveRetransmission).snd = { s.snd with sstate := .watching } := rfl
@[simp] theorem leaveRetransmission_cur : (s.leaveRetransmission).cur = s.cur := rfl
@[simp] theorem leaveRetransmission_rcv : (s.leaveRetransmission).rcv = s.rcv := rfl
@[simp] theorem leaveRetransmission_fs : (s.leaveRetransmission).fs = s.fs := rfl
@[simp] theorem leaveRetransmission_dch : (s.leaveRetransmission).dch = s.dch := rfl
@[simp] theorem leaveRetransmission_ach : (s.leaveRetransmission).ach = s.ach := rfl
@[simp] theorem leaveRetransmission_now : (s.leaveRetransmission).now = s.now := rfl
@[simp] theorem leaveRetransmission_log : (s.leaveRetransmission).log = s.log := rfl
@[simp] theorem leaveRetransmission_sink : (s.leaveRetransmission).sink = s.sink := rfl
@[simp] theorem leaveRetransmission_source : (s.leaveRetransmission).source = s.source := rfl
@[simp] theorem leaveRetransmission_script : (s.leaveRetransmission).script = s.script := rfl
@[simp] theorem leaveRetransmission_turn : (s.leaveRetransmission).turn = s.turn := rfl
@[simp] theorem leaveRetransmission_fnResult : (s.leaveRetransmission).fnResult = s.fnResult := rfl

/-! ### `State.advanceExpected` -/

@[simp] theorem advanceExpected_cfg : (s.advanceExpected).cfg = s.cfg := rfl
@[simp] theorem advanceExpected_win : (s.advanceExpected).win = s.win := rfl
@[simp] theorem advanceExpected_snd : (s.advanceExpected).snd = s.snd := rfl
@[simp] theorem advanceExpected_cur : (s.advanceExpected).cur = { s.cur with expected := s.cur.expected + 1 } := rfl
@[simp] theorem advanceExpected_rcv : (s.advanceExpected).rcv = s.rcv := rfl
@[simp] theorem advanceExpected_fs : (s.advanceExpected).fs = s.fs := rfl
@[simp] theorem advanceExpected_dch : (s.advanceExpected).dch = s.dch := rfl
@[simp] theorem advanceExpected_ach : (s.advanceExpected).ach = s.ach := rfl
@[simp] theorem advanceExpected_now : (s.advanceExpected).now = s.now := rfl
@[simp] theorem advanceExpected_log : (s.advanceExpected).log = s.log := rfl
@[simp] theorem advanceExpected_sink : (s.advanceExpected).sink = s.sink := rfl
@[simp] theorem advanceExpected_source : (s.advanceExpected).source = s.source := rfl
@[simp] theorem advanceExpected_script : (s.advanceExpected).script = s.script := rfl
@[simp] theorem advanceExpected_turn : (s.advanceExpected).turn = s.turn := rfl
@[simp] theorem advanceExpected_fnResult : (s.advanceExpected).fnResult = s.fnResult := rfl

/-! ### `State.settleSState` -/

@[simp] theorem settleSState_cfg : (s.settleSState).cfg = s.cfg := rfl
@[simp] theorem settleSState_win : (s.settleSState).win = s.win := rfl
@[simp] theorem settleSState_snd : (s.settleSState).snd = { s.snd with sstate := if s.win.base = s.cfg.totalFrames then .done else .watching } := rfl
@[simp] theorem settleSState_cur : (s.settleSState).cur = s.cur := rfl
@[simp] theorem settleSState_rcv : (s.settleSState).rcv = s.rcv := rfl
@[simp] theorem settleSState_fs : (s.settleSState).fs = s.fs := rfl
@[simp] theorem settleSState_dch : (s.settleSState).dch = s.dch := rfl
@[simp] theorem settleSState_ach : (s.settleSState).ach = s.ach := rfl
@[simp] theorem settleSState_now : (s.settleSState).now = s.now := rfl
@[simp] theorem settleSState_log : (s.settleSState).log = s.log := rfl
@[simp] theorem settleSState_sink : (s.settleSState).sink = s.sink := rfl
@[simp] theorem settleSState_source : (s.settleSState).source = s.source := rfl
@[simp] theorem settleSState_script : (s.settleSState).script = s.script := rfl
@[simp] theorem settleSState_turn : (s.settleSState).turn = s.turn := rfl
@[simp] theorem settleSState_fnResult : (s.settleSState).fnResult = s.fnResult := rfl

end Sys2Proof.Laws
end

