-- ==== Sys2Proof/Laws/Ops.lean ====
section
/-! SUPPORT. What running an operation can answer, said once: later proofs cite these and unfold neither
`runOperation` nor the channel primitives. -/

namespace Sys2Proof.Laws

open Sys2Proof.Machine

/-! ### Outcomes -/

@[simp] theorem outcomeOf_ok (t : Machine.State) : outcomeOf (.ok t) = .next t := rfl

@[simp] theorem outcomeOf_error (f : Fault) : outcomeOf (.error f) = .fault f := rfl

theorem outcomeOf_eq_next {r : Except Fault Machine.State} {t : Machine.State} :
    outcomeOf r = .next t ↔ r = .ok t := by cases r <;> simp

theorem outcomeOf_ne_refused (r : Except Fault Machine.State) (f : Refusal) :
    outcomeOf r ≠ .refused f := by cases r <;> simp

theorem onEngine_up {s : Machine.State} (h : s.cfg.cstatus = .ok) (r : Except Fault Machine.State) :
    onEngine s r = outcomeOf r := by simp [onEngine, h]

theorem onEngine_down {s : Machine.State} (h : s.cfg.cstatus ≠ .ok) (r : Except Fault Machine.State) :
    onEngine s r = .fault .engineNotConstructed := by simp [onEngine, h]

theorem onEngine_eq_next {s t : Machine.State} {r : Except Fault Machine.State} :
    onEngine s r = .next t ↔ s.cfg.cstatus = .ok ∧ r = .ok t := by
  unfold onEngine
  split <;> simp_all [outcomeOf_eq_next]

/-- With the engines built and the guard holding, an operation is its effect. -/
theorem runOperation_enabled {en : Machine.State → Bool} {eff : Machine.State → Except Fault Machine.State}
    {s : Machine.State} (h : s.cfg.cstatus = .ok) (he : en s = true) :
    runOperation en eff s = outcomeOf (eff s) := by simp [runOperation, onEngine, h, he]

/-- With the engines built and the guard not holding, the operation waits and nothing changes
(R227; log 6). -/
theorem runOperation_disabled {en : Machine.State → Bool} {eff : Machine.State → Except Fault Machine.State}
    {s : Machine.State} (h : s.cfg.cstatus = .ok) (he : en s = false) :
    runOperation en eff s = .next s := by simp [runOperation, onEngine, h, he]

/-- Without the engines there is no operation (R38). -/
theorem runOperation_down {en : Machine.State → Bool} {eff : Machine.State → Except Fault Machine.State}
    {s : Machine.State} (h : s.cfg.cstatus ≠ .ok) :
    runOperation en eff s = .fault .engineNotConstructed := by simp [runOperation, onEngine, h]

/-- Everything a next state of an operation tells whose guard holds: the engines exist, and the effect
answered. -/
theorem runOperation_eq_next {en : Machine.State → Bool} {eff : Machine.State → Except Fault Machine.State}
    {s t : Machine.State} (he : en s = true) :
    runOperation en eff s = .next t ↔ s.cfg.cstatus = .ok ∧ eff s = .ok t := by
  unfold runOperation
  rw [onEngine_eq_next, if_pos he]

/-- And one whose guard does not hold: nothing has changed. -/
theorem runOperation_waits {en : Machine.State → Bool} {eff : Machine.State → Except Fault Machine.State}
    {s t : Machine.State} (he : en s = false) :
    runOperation en eff s = .next t ↔ s.cfg.cstatus = .ok ∧ t = s := by
  unfold runOperation
  rw [onEngine_eq_next, he]
  simp [eq_comm]

/-! ### The channels -/

theorem deqData_cons {s : Machine.State} {m : DataMsg} {rest : List DataMsg} (h : s.dch = m :: rest) :
    s.deqData = .ok (m, { s with dch := rest }) := by simp [State.deqData, h]

theorem deqAck_cons {s : Machine.State} {a : SignedField} {rest : List SignedField}
    (h : s.ach = a :: rest) : s.deqAck = .ok (a, { s with ach := rest }) := by simp [State.deqAck, h]

/-- A dequeue takes exactly the head (R67, R68). -/
theorem deqData_eq_ok {s t : Machine.State} {m : DataMsg} (h : s.deqData = .ok (m, t)) :
    ∃ rest, s.dch = m :: rest ∧ t = { s with dch := rest } := by
  unfold State.deqData at h
  split at h <;> simp_all

theorem deqAck_eq_ok {s t : Machine.State} {a : SignedField} (h : s.deqAck = .ok (a, t)) :
    ∃ rest, s.ach = a :: rest ∧ t = { s with ach := rest } := by
  unfold State.deqAck at h
  split at h <;> simp_all

theorem advanceBase_eq_ok {s t : Machine.State} :
    s.advanceBase = .ok t ↔ s.win.base < s.win.acked.length ∧
      t = { s with win := { s.win with
        acked := s.win.acked.set s.win.base true, base := s.win.base + 1 } } := by
  unfold State.advanceBase
  split <;> simp_all [eq_comm]

theorem frameRead_eq_ok {s : Machine.State} {i : Nat} {f : Frame} :
    s.frameRead i = .ok f ↔ s.fs[i]? = some f := by
  unfold State.frameRead
  split <;> simp_all

/-! ### The guards, as propositions -/

theorem txFillEnabled_iff {s : Machine.State} : txFillEnabled s = true ↔ s.cfg.senderBuilt = true ∧ s.snd.sstate = .filling := by
  simp [txFillEnabled]

theorem txPollEnabled_iff {s : Machine.State} : txPollEnabled s = true ↔ s.cfg.senderBuilt = true ∧ s.snd.sstate = .watching := by
  simp [txPollEnabled]

theorem txFinishEnabled_iff {s : Machine.State} :
    txFinishEnabled s = true ↔
      s.cfg.senderBuilt = true ∧ s.snd.sstate = .done ∧ s.snd.eosPushed = false := by
  simp [txFinishEnabled, and_assoc]

theorem txJoinEnabled_iff {s : Machine.State} :
    txJoinEnabled s = true ↔
      s.cfg.senderBuilt = true ∧ s.snd.eosPushed = true ∧ s.snd.listenerStopped = true ∧
        s.snd.senderComplete = false := by
  simp [txJoinEnabled, and_assoc]

theorem listening_iff {s : Machine.State} :
    listening s = true ↔
      s.cfg.senderBuilt = true ∧ s.snd.listenerStopped = false ∧ s.snd.sstate ≠ .done := by
  simp [listening, and_assoc]

theorem txaAckAcceptEnabled_iff {s : Machine.State} :
    txaAckAcceptEnabled s = true ↔
      (s.cfg.senderBuilt = true ∧ s.snd.listenerStopped = false ∧ s.snd.sstate ≠ .done) ∧
      ∃ a rest, s.ach = a :: rest ∧ ackValue a = s.win.base := by
  unfold txaAckAcceptEnabled
  rw [Bool.and_eq_true, listening_iff]
  cases s.ach <;> simp [ackIsBase]

theorem txaAckIgnoreEnabled_iff {s : Machine.State} :
    txaAckIgnoreEnabled s = true ↔
      (s.cfg.senderBuilt = true ∧ s.snd.listenerStopped = false ∧ s.snd.sstate ≠ .done) ∧
      ∃ a rest, s.ach = a :: rest ∧ ackValue a ≠ s.win.base := by
  unfold txaAckIgnoreEnabled
  rw [Bool.and_eq_true, listening_iff]
  cases s.ach <;> simp [ackIsBase]

theorem txaIdleEnabled_iff {s : Machine.State} :
    txaIdleEnabled s = true ↔
      (s.cfg.senderBuilt = true ∧ s.snd.listenerStopped = false ∧ s.snd.sstate ≠ .done) ∧ s.ach = [] := by
  unfold txaIdleEnabled
  rw [Bool.and_eq_true, listening_iff, List.isEmpty_iff]

theorem txaStopEnabled_iff {s : Machine.State} :
    txaStopEnabled s = true ↔
      s.cfg.senderBuilt = true ∧ s.snd.listenerStopped = false ∧ s.snd.sstate = .done := by
  simp [txaStopEnabled, and_assoc]

theorem plenWellFormed_iff {l n : Nat} : plenWellFormed l n = true ↔ 1 ≤ n ∧ n ≤ l := by
  simp [plenWellFormed]

theorem rxAcceptEnabled_iff {s : Machine.State} :
    rxAcceptEnabled s = true ↔ s.rcv.rstate = .accepting ∧
      ∃ seq plen payload rest, s.dch = .frame seq plen payload :: rest ∧
        (1 ≤ plen ∧ plen ≤ s.cfg.payloadBits) ∧ seq.toNat = s.cur.expected := by
  unfold rxAcceptEnabled accepting headSeq
  cases h : s.dch with
  | nil => simp
  | cons m rest =>
    cases m with
    | eos => simp
    | frame seq plen payload =>
      by_cases hp : plenWellFormed s.cfg.payloadBits plen = true
      · simp [hp, plenWellFormed_iff.mp hp, seqValue]
      · have hn := mt plenWellFormed_iff.mpr hp
        simp [hp, hn]

theorem rxRejectEnabled_iff {s : Machine.State} :
    rxRejectEnabled s = true ↔ s.rcv.rstate = .accepting ∧
      ∃ seq plen payload rest, s.dch = .frame seq plen payload :: rest ∧
        (1 ≤ plen ∧ plen ≤ s.cfg.payloadBits) ∧ seq.toNat ≠ s.cur.expected := by
  unfold rxRejectEnabled accepting headSeq
  cases h : s.dch with
  | nil => simp
  | cons m rest =>
    cases m with
    | eos => simp
    | frame seq plen payload =>
      by_cases hp : plenWellFormed s.cfg.payloadBits plen = true
      · simp [hp, plenWellFormed_iff.mp hp, seqValue]
      · have hn := mt plenWellFormed_iff.mpr hp
        simp [hp, hn]

theorem rxEosEnabled_iff {s : Machine.State} :
    rxEosEnabled s = true ↔ s.rcv.rstate = .accepting ∧ ∃ rest, s.dch = .eos :: rest := by
  unfold rxEosEnabled accepting
  cases s.dch <;> simp

theorem rxMalformedEnabled_iff {s : Machine.State} :
    rxMalformedEnabled s = true ↔ s.rcv.rstate = .accepting ∧
      ∃ seq plen payload rest, s.dch = .frame seq plen payload :: rest ∧
        ¬(1 ≤ plen ∧ plen ≤ s.cfg.payloadBits) := by
  unfold rxMalformedEnabled accepting headMalformed
  cases h : s.dch with
  | nil => simp
  | cons m rest =>
    cases m with
    | eos => simp
    | frame seq plen payload =>
      by_cases hp : plenWellFormed s.cfg.payloadBits plen = true
      · simp [hp, plenWellFormed_iff.mp hp]
      · have hn := mt plenWellFormed_iff.mpr hp
        simp only [hp, List.head?_cons]
        simpa using fun _ h => Nat.lt_of_not_le fun h' => hn ⟨h, h'⟩

theorem rxIdleEnabled_iff {s : Machine.State} :
    rxIdleEnabled s = true ↔ s.rcv.rstate = .accepting ∧ s.dch = [] := by
  unfold rxIdleEnabled accepting
  rw [Bool.and_eq_true, List.isEmpty_iff]
  simp

theorem envAdvanceEnabled_iff {d : Nat} {s : Machine.State} :
    envAdvanceEnabled d s = true ↔
      d = 0 ∨ s.snd.sstate ≠ .watching ∨ s.now + d ≤ s.snd.lastPoll + s.cfg.pollTick := by
  simp [envAdvanceEnabled, or_assoc]

/-! ### The ack field -/

/-- An ack the receiver produces is read back as the number it carries (R96, R97). -/
theorem ackValue_ackOf {v : Int} (h1 : -65536 ≤ v) (h2 : v ≤ 65535) : ackValue (ackOf v) = v := by
  unfold ackValue ackOf
  rw [BitVec.toInt_ofInt]
  exact Int.bmod_eq_of_le (by omega) (by omega)

end Sys2Proof.Laws
end

