-- ==== Sys2Proof/Laws/Window.lean ====
section
/-! SUPPORT. Everything one transmission attempt, a pass over slots and the timeout arbiter can do. -/

namespace Sys2Proof.Laws

open Sys2Proof.Machine

/-! ### The window -/

theorem mem_windowRange {b w n i : Nat} : i ∈ windowRange b w n ↔ b ≤ i ∧ i < winEnd b w n := by
  simp only [windowRange, List.mem_range'_1]
  omega

theorem windowRange_nodup (b w n : Nat) : (windowRange b w n).Nodup := List.nodup_range'

theorem mem_activeWindow {s : Machine.State} {i : Nat} :
    i ∈ activeWindow s ↔ s.win.base ≤ i ∧ i < windowEnd s := mem_windowRange

theorem windowEnd_le (s : Machine.State) : windowEnd s ≤ s.cfg.totalFrames := Nat.min_le_right _ _

theorem slideSlot_eq_some {b w n i : Nat} :
    slideSlot b w n = some i ↔ i = b + w - 1 ∧ i < n := by
  unfold slideSlot
  split <;> simp <;> omega

theorem slideSlot_eq_none {b w n : Nat} : slideSlot b w n = none ↔ n ≤ b + w - 1 := by
  unfold slideSlot
  split <;> simp <;> omega

theorem shouldDrop_iff {i p : Nat} {first : Bool} :
    shouldDrop i first p = true ↔ (i + 1) % p = 0 ∧ i ≠ 0 ∧ first = true := by
  simp [shouldDrop, and_assoc]

/-! ### One attempt -/

/-- The state after one attempt of slot `i` (R150). -/
def afterAttempt (now : Nat) (i : Nat) (s : Machine.State) : Machine.State :=
  { s with
    dch := s.dch ++ sentMsgs s [i]
    log := s.log ++ [attemptRecord s i]
    win := { s.win with
      sendTimestamp := s.win.sendTimestamp.set i (some now)
      droppedOnce := if withheldNow s i then s.win.droppedOnce.set i true else s.win.droppedOnce } }

/-- Everything `XMIT` can do: it answers only the state after one attempt of an existing slot. -/
theorem xmit_eq_ok {s t : Machine.State} {i : Nat} {now : Nat} (h : xmit i now s = .ok t) :
    t = afterAttempt now i s ∧ i < s.win.droppedOnce.length ∧ s.cfg.dropPeriod ≠ 0 := by
  unfold xmit at h
  split at h
  · cases h
  · rename_i hp
    split at h
    · cases h
    · rename_i d hd
      have hlt : i < s.win.droppedOnce.length := (List.getElem?_eq_some_iff.mp hd).1
      have hw : withheldNow s i = shouldDrop i (!d) s.cfg.dropPeriod := by
        simp [withheldNow, wasDropped, hd]
      split at h
      · rename_i hdrop
        cases h
        refine ⟨?_, hlt, hp⟩
        simp [afterAttempt, State.stamp, State.record, State.markDropped, sentMsgs, attemptRecord,
          hw, hdrop]
      · rename_i hdrop
        cases hf : s.frameRead i with
        | error f => simp [hf] at h
        | ok f =>
          simp only [hf, Except.ok.injEq] at h
          subst h
          have hfs := frameRead_eq_ok.mp hf
          refine ⟨?_, hlt, hp⟩
          simp [afterAttempt, State.stamp, State.record, State.enqData, sentMsgs, attemptRecord,
            hw, hdrop, slotMsg, hfs]

/-- Where `XMIT` answers: an existing slot, a legal drop period (R150: "Faults: none"). -/
theorem xmit_of_slot {s : Machine.State} {i : Nat} (now : Nat) (hd : i < s.win.droppedOnce.length)
    (hf : i < s.fs.length) (hp : s.cfg.dropPeriod ≠ 0) :
    xmit i now s = .ok (afterAttempt now i s) := by
  have : ∃ t, xmit i now s = .ok t := by
    unfold xmit
    rw [if_neg hp, List.getElem?_eq_getElem hd]
    simp only
    split
    · exact ⟨_, rfl⟩
    · rw [show s.frameRead i = .ok s.fs[i] from
        frameRead_eq_ok.mpr (List.getElem?_eq_getElem hf)]
      exact ⟨_, rfl⟩
  obtain ⟨t, ht⟩ := this
  rw [ht, (xmit_eq_ok ht).1]

/-! ### A pass -/

/-- The state after one attempt of each of `slots`, in order (R152). -/
def afterPass (now : Nat) (slots : List Nat) (s : Machine.State) : Machine.State :=
  { s with
    dch := s.dch ++ sentMsgs s slots
    log := s.log ++ slots.map (attemptRecord s)
    win := { s.win with
      sendTimestamp := slots.foldl (fun ts i => ts.set i (some now)) s.win.sendTimestamp
      droppedOnce :=
        (slots.filter (withheldNow s)).foldl (fun ds i => ds.set i true) s.win.droppedOnce } }

/-- An attempt of one slot does not change what an attempt of another does. -/
theorem withheldNow_afterAttempt {s : Machine.State} {now : Nat} {i j : Nat} (h : i ≠ j) :
    withheldNow (afterAttempt now i s) j = withheldNow s j := by
  have hd : wasDropped (afterAttempt now i s) j = wasDropped s j := by
    cases hw : withheldNow s i <;> simp [wasDropped, afterAttempt, hw, List.getElem?_set_ne h]
  rw [withheldNow, hd, withheldNow]
  rfl

theorem slotMsg_afterAttempt (s : Machine.State) (now : Nat) (i j : Nat) :
    slotMsg (afterAttempt now i s) j = slotMsg s j := rfl

theorem sentMsgs_congr {s t : Machine.State} {slots : List Nat} (hm : ∀ i, slotMsg t i = slotMsg s i)
    (hw : ∀ i ∈ slots, withheldNow t i = withheldNow s i) : sentMsgs t slots = sentMsgs s slots := by
  unfold sentMsgs
  rw [List.filter_congr (fun i hi => by rw [hw i hi] : ∀ i ∈ slots, (!withheldNow t i) = (!withheldNow s i))]
  exact List.map_congr_left fun i _ => hm i

/-- A pass over distinct slots is one attempt and a pass over the rest. -/
theorem afterPass_cons {s : Machine.State} {now : Nat} {i : Nat} {slots : List Nat} (h : i ∉ slots) :
    afterPass now slots (afterAttempt now i s) = afterPass now (i :: slots) s := by
  have hne : ∀ j ∈ slots, withheldNow (afterAttempt now i s) j = withheldNow s j := fun j hj =>
    withheldNow_afterAttempt (by rintro rfl; exact h hj)
  have hmsgs := sentMsgs_congr (s := s) (slotMsg_afterAttempt s now i) hne
  have hrec : slots.map (attemptRecord (afterAttempt now i s)) = slots.map (attemptRecord s) :=
    List.map_congr_left fun j hj => by simp [attemptRecord, hne j hj]
  have hfil : slots.filter (withheldNow (afterAttempt now i s)) = slots.filter (withheldNow s) :=
    List.filter_congr hne
  have hcons : sentMsgs s (i :: slots) = sentMsgs s [i] ++ sentMsgs s slots := by
    simp only [sentMsgs, List.filter_cons]
    split <;> simp
  unfold afterPass
  rw [hmsgs, hrec, hfil, hcons]
  simp only [afterAttempt, List.append_assoc, List.map_cons, List.cons_append, List.nil_append,
    List.foldl_cons, List.filter_cons]
  split <;> simp_all

/-- Where a pass answers, and what (R152): distinct, existing, unacknowledged slots. -/
theorem sendSlots_of_slots {s : Machine.State} (now : Nat) {slots : List Nat} (hnd : slots.Nodup)
    (hp : s.cfg.dropPeriod ≠ 0)
    (h : ∀ i ∈ slots, s.win.acked[i]? = some false ∧ i < s.win.droppedOnce.length ∧ i < s.fs.length) :
    sendSlots now slots s = .ok (afterPass now slots s) := by
  induction slots generalizing s with
  | nil => simp [sendSlots, afterPass, sentMsgs]
  | cons i slots ih =>
    obtain ⟨hi, hnd⟩ := List.nodup_cons.mp hnd
    obtain ⟨ha, hd, hf⟩ := h i (by simp)
    simp only [sendSlots, ha, xmit_of_slot now hd hf hp]
    rw [ih hnd (by simpa [afterAttempt] using hp), afterPass_cons hi]
    intro j hj
    obtain ⟨h1, h2, h3⟩ := h j (by simp [hj])
    refine ⟨by simpa [afterAttempt] using h1, ?_, by simpa [afterAttempt] using h3⟩
    simp only [afterAttempt]
    split <;> simpa using h2

/-- One attempt is a pass over one slot. -/
theorem afterAttempt_eq_afterPass (now i : Nat) (s : Machine.State) :
    afterAttempt now i s = afterPass now [i] s := by
  cases h : withheldNow s i <;> simp [afterAttempt, afterPass, h, sentMsgs]

/-- What a pass leaves alone, whatever its slots: everything but the data channel, the log, the stamps
and the drop flags (R150, R152). -/
theorem sendSlots_frame {s t : Machine.State} {now : Nat} {slots : List Nat}
    (h : sendSlots now slots s = .ok t) :
    t = { s with
      dch := t.dch
      log := t.log
      win := { s.win with
        sendTimestamp := t.win.sendTimestamp, droppedOnce := t.win.droppedOnce } } := by
  induction slots generalizing s with
  | nil => cases h; rfl
  | cons i slots ih =>
    simp only [sendSlots] at h
    split at h
    · cases h
    · exact ih h
    · cases hx : xmit i now s with
      | error f => simp [hx] at h
      | ok u =>
        simp only [hx] at h
        have hu := ih h
        rw [(xmit_eq_ok hx).1] at hu
        exact hu

/-- Stamps after a pass. -/
theorem foldl_set_getElem? {α : Type} (v : α) (slots : List Nat) (l : List α) (j : Nat) :
    (slots.foldl (fun l i => l.set i v) l)[j]? =
      if j ∈ slots ∧ j < l.length then some v else l[j]? := by
  induction slots generalizing l with
  | nil => simp
  | cons i slots ih =>
    rw [List.foldl_cons, ih]
    by_cases hj : j ∈ slots
    · by_cases hl : j < l.length <;> simp [hj, hl]
    · by_cases hij : i = j
      · subst hij
        by_cases hl : i < l.length <;> simp [hj, hl]
      · simp [hj, Ne.symm hij, List.getElem?_set_ne hij]

theorem foldl_set_length {α : Type} (v : α) (slots : List Nat) (l : List α) :
    (slots.foldl (fun l i => l.set i v) l).length = l.length := by
  induction slots generalizing l with
  | nil => rfl
  | cons i slots ih => rw [List.foldl_cons, ih, List.length_set]

/-- `sendTimestamp[j]` after a pass (R152: "all slots get the *same* timestamp"). -/
theorem stampOf_afterPass (now : Nat) (slots : List Nat) (s : Machine.State) (j : Nat) :
    stampOf (afterPass now slots s) j =
      if j ∈ slots ∧ j < s.win.sendTimestamp.length then some now else stampOf s j := by
  simp only [stampOf, afterPass, foldl_set_getElem?]
  split <;> simp

/-- `droppedOnce[j]` after a pass: set where the attempt was withheld, never cleared (R25, R150). -/
theorem wasDropped_afterPass (now : Nat) (slots : List Nat) (s : Machine.State) (j : Nat) :
    wasDropped (afterPass now slots s) j =
      if (j ∈ slots ∧ withheldNow s j = true) ∧ j < s.win.droppedOnce.length then true
      else wasDropped s j := by
  simp only [wasDropped, afterPass, foldl_set_getElem?, List.mem_filter]
  split <;> simp

/-! ### The timeout arbiter -/

/-- `EXPIRED` of a stamped slot is the strict comparison (R185). -/
theorem slotExpired_of_stamp {s : Machine.State} {i : Nat} {now t : Nat} (h : stampOf s i = some t)
    (ht : t ≤ now) : slotExpired i now s = .ok (decide (s.cfg.timeoutInterval < now - t)) := by
  unfold stampOf at h
  unfold slotExpired
  cases hs : s.win.sendTimestamp[i]? with
  | none => simp [hs] at h
  | some o =>
    simp only [hs, Option.getD_some] at h
    subst h
    simp [Nat.not_lt.mpr ht]

/-- The expired slots of stamped slots, as a filter (R186). -/
theorem expiredOf_of_stamps {s : Machine.State} {now : Nat} {slots : List Nat}
    (h : ∀ i ∈ slots, ∃ t, stampOf s i = some t ∧ t ≤ now) :
    expiredOf now s slots =
      .ok (slots.filter fun i => decide (s.cfg.timeoutInterval < now - (stampOf s i).getD 0)) := by
  induction slots with
  | nil => rfl
  | cons i slots ih =>
    obtain ⟨t, hs, ht⟩ := h i (by simp)
    simp only [expiredOf, slotExpired_of_stamp hs ht, ih (fun j hj => h j (by simp [hj]))]
    simp [List.filter_cons, hs]

end Sys2Proof.Laws
end

