-- ==== Sys2Proof/Laws/Memory.lean ====
section
/-! SUPPORT. Every operation over the stores keeps their canonical form, construction establishes it, and
the stores after reset have it (spec 20 R60, R65; log 19). -/

namespace Sys2Proof.Laws

open Sys2Proof.Machine

/-- The canonical form reads only the configuration, the frame store and the lengths of the per-slot
files. -/
theorem wf_congr {s t : Machine.State} (hc : t.cfg = s.cfg) (hf : t.fs = s.fs)
    (hts : t.win.sendTimestamp.length = s.win.sendTimestamp.length)
    (ha : t.win.acked.length = s.win.acked.length)
    (hd : t.win.droppedOnce.length = s.win.droppedOnce.length) (h : Memory.wf s) : Memory.wf t := by
  unfold Memory.wf at *
  rw [hc, hf, hts, ha, hd]
  exact h

theorem enqData_wf {s : Machine.State} (m : DataMsg) (h : Memory.wf s) : Memory.wf (s.enqData m) := h

theorem enqAck_wf {s : Machine.State} (a : SignedField) (h : Memory.wf s) : Memory.wf (s.enqAck a) := h

theorem deqData_wf {s t : Machine.State} {m : DataMsg} (hd : s.deqData = .ok (m, t))
    (h : Memory.wf s) : Memory.wf t := by
  obtain ⟨_, _, rfl⟩ := deqData_eq_ok hd
  exact h

theorem deqAck_wf {s t : Machine.State} {a : SignedField} (hd : s.deqAck = .ok (a, t))
    (h : Memory.wf s) : Memory.wf t := by
  obtain ⟨_, _, rfl⟩ := deqAck_eq_ok hd
  exact h

theorem appendPayload_wf {s : Machine.State} (p : BitString) (h : Memory.wf s) :
    Memory.wf (s.appendPayload p) := h

theorem record_wf {s : Machine.State} (k : LogKind) (v : Int) (h : Memory.wf s) :
    Memory.wf (s.record k v) := h

theorem sinkWrite_wf {s : Machine.State} (l : List Byte) (h : Memory.wf s) :
    Memory.wf (s.sinkWrite l) := h

theorem stamp_wf {s : Machine.State} (i : Nat) (t : Nat) (h : Memory.wf s) :
    Memory.wf (s.stamp i t) := wf_congr (s := s) rfl rfl (by simp) rfl rfl h

theorem markDropped_wf {s : Machine.State} (i : Nat) (h : Memory.wf s) :
    Memory.wf (s.markDropped i) := wf_congr (s := s) rfl rfl rfl rfl (by simp) h

theorem advanceBase_wf {s t : Machine.State} (ha : s.advanceBase = .ok t) (h : Memory.wf s) :
    Memory.wf t := by
  obtain ⟨-, rfl⟩ := advanceBase_eq_ok.mp ha
  exact wf_congr (s := s) rfl rfl rfl (by simp) rfl h

theorem afterAttempt_wf {s : Machine.State} (now : Nat) (i : Nat) (h : Memory.wf s) :
    Memory.wf (afterAttempt now i s) :=
  wf_congr (s := s) rfl rfl (by simp [afterAttempt]) rfl (by
    simp only [afterAttempt]; split <;> simp) h

theorem afterPass_wf {s : Machine.State} (now : Nat) (slots : List Nat) (h : Memory.wf s) :
    Memory.wf (afterPass now slots s) :=
  wf_congr (s := s) rfl rfl (by simp [afterPass, foldl_set_length]) rfl (by simp [afterPass, foldl_set_length]) h

/-- Nothing is stored after a failed construction (R246). -/
theorem failConstruction_wf (fault : FaultCode) (s : Machine.State) :
    Memory.wf (s.failConstruction fault) := by
  simp [Memory.wf, State.failConstruction]

/-- A successful construction leaves the stores in their form (R49, R123). -/
theorem constructed_wf {l : Launch} {source : List Byte} {frames : List Frame} (s : Machine.State)
    (h : encodeSource source l.frameCapacityBits = .ok frames) :
    Memory.wf (s.constructed l source frames) := by
  refine ⟨rfl, by simp [State.constructed], by simp [State.constructed], by simp [State.constructed],
    encoded_length_le h, ?_, fun f hf => encoded_frameLen h hf⟩
  intro i hi
  change i < frames.length at hi
  change (frames[i]?).map Frame.seq = _
  rw [List.getElem?_eq_getElem hi, (encoded_frame h (List.getElem?_eq_getElem hi)).1]
  rfl

theorem construct_wf (l : Launch) (s : Machine.State) : Memory.wf (construct l s) := by
  unfold construct
  split
  · exact failConstruction_wf _ _
  split
  · exact failConstruction_wf _ _
  split
  · exact failConstruction_wf _ _
  split
  · exact failConstruction_wf _ _
  split
  · exact failConstruction_wf _ _
  · split
    · exact failConstruction_wf _ _
    · rename_i h
      exact constructed_wf s h

/-- The stores after reset are in their form. -/
theorem reset_wf : Memory.wf State.reset := by decide +kernel

end Sys2Proof.Laws
end

