-- ==== Sys2Proof/Laws/Exec.lean ====
section
/-! SUPPORT. What a next state of each operation tells whose guard holds, said once per operation: later
proofs cite these and unfold no meaning. Where the guard does not hold, nothing has changed
(`runOperation_waits`). -/

namespace Sys2Proof.Laws

open Sys2Proof.Machine

/-! ### Passes over the window -/

/-- What a pass does to the append-only stores, whatever its slots. -/
theorem sendSlots_appends {s t : Machine.State} {now : Nat} {slots : List Nat}
    (h : sendSlots now slots s = .ok t) :
    (∃ ms, t.dch = s.dch ++ ms) ∧ (∃ rs, t.log = s.log ++ rs) := by
  induction slots generalizing s with
  | nil => cases h; exact ⟨⟨[], by simp⟩, ⟨[], by simp⟩⟩
  | cons i slots ih =>
    simp only [sendSlots] at h
    split at h
    · cases h
    · exact ih h
    · cases hx : xmit i now s with
      | error f => simp [hx] at h
      | ok u =>
        simp only [hx] at h
        obtain ⟨⟨ms, hm⟩, ⟨rs, hr⟩⟩ := ih h
        rw [(xmit_eq_ok hx).1] at hm hr
        exact ⟨⟨sentMsgs s [i] ++ ms, by rw [hm]; simp [afterAttempt]⟩,
          ⟨attemptRecord s i :: rs, by rw [hr]; simp [afterAttempt]⟩⟩

/-- In a state with canonical stores whose acknowledged slots lie below `base`, a window pass attempts
every slot of the window (R31 item 3, R152). -/
theorem sendWindow_of_wf {s : Machine.State} (now : Nat) (hp : s.cfg.dropPeriod ≠ 0)
    (hwf : Memory.wf s)
    (ha : ∀ i, i < s.cfg.totalFrames → s.win.acked[i]? = some (decide (i < s.win.base))) :
    sendWindow now s = .ok (afterPass now (activeWindow s) s) := by
  obtain ⟨h1, _, _, h4, _⟩ := hwf
  refine sendSlots_of_slots now (windowRange_nodup _ _ _) hp fun i hi => ?_
  obtain ⟨hb, he⟩ := mem_activeWindow.mp hi
  have hn := windowEnd_le s
  exact ⟨by rw [ha i (by omega)]; simp [Nat.not_lt.mpr hb], by omega, by omega⟩

/-- The expired slots the arbiter finds in a stamped window (R186). -/
theorem arbitrate_of_stamps {s : Machine.State} {now : Nat}
    (h : ∀ i, s.win.base ≤ i → i < windowEnd s → ∃ t, stampOf s i = some t ∧ t ≤ now) :
    arbitrate now s = .ok (expiredSlots now s) := by
  have h' : ∀ i ∈ activeWindow s, ∃ t, stampOf s i = some t ∧ t ≤ now := fun i hi =>
    h i (mem_activeWindow.mp hi).1 (mem_activeWindow.mp hi).2
  unfold arbitrate expiredSlots
  rw [expiredOf_of_stamps h']
  congr 1
  apply List.filter_congr
  intro i hi
  obtain ⟨t, ht, -⟩ := h' i hi
  simp [ht]

/-! ### The sender's operations -/

theorem txFill_next {s t : Machine.State} (h2 : txFillEnabled s = true)
    (h : execTxFill s = .next t) :
    s.cfg.cstatus = .ok ∧ (s.cfg.senderBuilt = true ∧ s.snd.sstate = .filling) ∧
    ∃ u, sendWindow s.now s = .ok u ∧ t = (u.setLastPoll s.now).settleSState := by
  obtain ⟨h1, h3⟩ := (runOperation_eq_next h2).mp h
  refine ⟨h1, txFillEnabled_iff.mp h2, ?_⟩
  unfold txFill at h3
  split at h3
  · cases h3
  · rename_i u hu
    cases h3
    exact ⟨u, hu, rfl⟩

theorem txPoll_next {s t : Machine.State} (h2 : txPollEnabled s = true)
    (h : execTxPoll s = .next t) :
    s.cfg.cstatus = .ok ∧ (s.cfg.senderBuilt = true ∧ s.snd.sstate = .watching) ∧
    ∃ expired, arbitrate s.now s = .ok expired ∧
      ((expired = [] ∧ t = s.setLastPoll s.now) ∨
       (expired ≠ [] ∧ ∃ u, sendWindow s.now ((s.setLastPoll s.now).enterRetransmission expired) = .ok u ∧
          t = u.leaveRetransmission)) := by
  obtain ⟨h1, h3⟩ := (runOperation_eq_next h2).mp h
  refine ⟨h1, txPollEnabled_iff.mp h2, ?_⟩
  unfold txPoll at h3
  cases ha : arbitrate s.now s with
  | error f => simp [ha] at h3
  | ok expired =>
    refine ⟨expired, rfl, ?_⟩
    simp only [ha] at h3
    cases expired with
    | nil =>
      simp only [timeoutAny, List.isEmpty_nil, Bool.not_true, Bool.false_eq_true, ↓reduceIte,
        Except.ok.injEq] at h3
      exact .inl ⟨rfl, h3.symm⟩
    | cons i is =>
      simp only [timeoutAny, List.isEmpty_cons, Bool.not_false, ↓reduceIte] at h3
      split at h3
      · cases h3
      · rename_i u hu
        cases h3
        exact .inr ⟨by simp, u, hu, rfl⟩

/-- The state in which an accepted ack has been consumed, logged and counted, before the slide's
transmission (R166). -/
def afterAck (a : SignedField) (rest : List SignedField) (s : Machine.State) : Machine.State :=
  { s with
    ach := rest
    snd := { s.snd with sstate := .sliding }
    log := s.log ++ [{ kind := .ackAccepted, val := ackValue a }]
    win := { s.win with acked := s.win.acked.set s.win.base true, base := s.win.base + 1 } }

theorem ackAccept_cons {s : Machine.State} {a : SignedField} {rest : List SignedField}
    (h : s.ach = a :: rest) : ackAccept s =
      if s.win.base < s.win.acked.length then
        match xmitExposed s.now (afterAck a rest s) with
        | .error f => .error f
        | .ok t => .ok t.settleSState
      else .error .slotOutOfRange := by
  unfold ackAccept
  rw [deqAck_cons h]
  by_cases hb : s.win.base < s.win.acked.length
  · simp only [State.advanceBase, State.setSState, State.record, hb, ↓reduceIte]
    rfl
  · simp only [State.advanceBase, State.setSState, State.record, hb, ↓reduceIte]

theorem txaAckAccept_next {s t : Machine.State} (h2 : txaAckAcceptEnabled s = true)
    (h : execTxaAckAccept s = .next t) :
    s.cfg.cstatus = .ok ∧
    (s.cfg.senderBuilt = true ∧ s.snd.listenerStopped = false ∧ s.snd.sstate ≠ .done) ∧
    ∃ a rest, s.ach = a :: rest ∧ ackValue a = s.win.base ∧ s.win.base < s.win.acked.length ∧
      ((s.cfg.totalFrames ≤ s.win.base + 1 + s.cfg.windowSize - 1 ∧
          t = (afterAck a rest s).settleSState) ∨
       (s.win.base + 1 + s.cfg.windowSize - 1 < s.cfg.totalFrames ∧
          s.win.base + 1 + s.cfg.windowSize - 1 < s.win.droppedOnce.length ∧
          t = (afterAttempt s.now (s.win.base + 1 + s.cfg.windowSize - 1)
            (afterAck a rest s)).settleSState)) := by
  obtain ⟨h1, h3⟩ := (runOperation_eq_next h2).mp h
  obtain ⟨hl, a, rest, hach, hv⟩ := txaAckAcceptEnabled_iff.mp h2
  refine ⟨h1, hl, a, rest, hach, hv, ?_⟩
  rw [ackAccept_cons hach] at h3
  split at h3
  · rename_i hb
    refine ⟨hb, ?_⟩
    unfold xmitExposed at h3
    cases hs : slideSlot (afterAck a rest s).win.base (afterAck a rest s).cfg.windowSize
        (afterAck a rest s).cfg.totalFrames with
    | none =>
      simp only [hs, Except.ok.injEq] at h3
      exact .inl ⟨slideSlot_eq_none.mp hs, h3.symm⟩
    | some i =>
      obtain ⟨hi, hn⟩ := slideSlot_eq_some.mp hs
      simp only [hs] at h3
      cases hx : xmit i s.now (afterAck a rest s) with
      | error f => simp [hx] at h3
      | ok u =>
        simp only [hx, Except.ok.injEq] at h3
        obtain ⟨hu, hlen, -⟩ := xmit_eq_ok hx
        have hi' : i = s.win.base + 1 + s.cfg.windowSize - 1 := hi
        rw [hi'] at hu hlen hn
        exact .inr ⟨hn, hlen, by rw [← h3, hu]⟩
  · cases h3

theorem txaAckIgnore_next {s t : Machine.State} (h2 : txaAckIgnoreEnabled s = true)
    (h : execTxaAckIgnore s = .next t) :
    s.cfg.cstatus = .ok ∧
    (s.cfg.senderBuilt = true ∧ s.snd.listenerStopped = false ∧ s.snd.sstate ≠ .done) ∧
    ∃ a rest, s.ach = a :: rest ∧ ackValue a ≠ s.win.base ∧
      t = { s with ach := rest, log := s.log ++ [{ kind := .ackIgnored, val := ackValue a }] } := by
  obtain ⟨h1, h3⟩ := (runOperation_eq_next h2).mp h
  obtain ⟨hl, a, rest, hach, hv⟩ := txaAckIgnoreEnabled_iff.mp h2
  simp only [ackIgnore, deqAck_cons hach, Except.ok.injEq] at h3
  exact ⟨h1, hl, a, rest, hach, hv, h3.symm⟩

theorem txFinish_next {s t : Machine.State} (h2 : txFinishEnabled s = true)
    (h : execTxFinish s = .next t) :
    s.cfg.cstatus = .ok ∧
    (s.cfg.senderBuilt = true ∧ s.snd.sstate = .done ∧ s.snd.eosPushed = false) ∧
    t = { s with dch := s.dch ++ [.eos], snd := { s.snd with eosPushed := true } } := by
  obtain ⟨h1, h3⟩ := (runOperation_eq_next h2).mp h
  cases h3
  exact ⟨h1, txFinishEnabled_iff.mp h2, rfl⟩

theorem txJoin_next {s t : Machine.State} (h2 : txJoinEnabled s = true)
    (h : execTxJoin s = .next t) :
    s.cfg.cstatus = .ok ∧
    (s.cfg.senderBuilt = true ∧ s.snd.eosPushed = true ∧ s.snd.listenerStopped = true ∧
      s.snd.senderComplete = false) ∧
    t = { s with snd := { s.snd with senderComplete := true } } := by
  obtain ⟨h1, h3⟩ := (runOperation_eq_next h2).mp h
  cases h3
  exact ⟨h1, txJoinEnabled_iff.mp h2, rfl⟩

theorem txaStop_next {s t : Machine.State} (h2 : txaStopEnabled s = true)
    (h : execTxaStop s = .next t) :
    s.cfg.cstatus = .ok ∧
    (s.cfg.senderBuilt = true ∧ s.snd.listenerStopped = false ∧ s.snd.sstate = .done) ∧
    t = { s with snd := { s.snd with listenerStopped := true } } := by
  obtain ⟨h1, h3⟩ := (runOperation_eq_next h2).mp h
  cases h3
  exact ⟨h1, txaStopEnabled_iff.mp h2, rfl⟩

theorem txaIdle_next {s t : Machine.State} (h2 : txaIdleEnabled s = true)
    (h : execTxaIdle s = .next t) :
    s.cfg.cstatus = .ok ∧
    (s.cfg.senderBuilt = true ∧ s.snd.listenerStopped = false ∧ s.snd.sstate ≠ .done) ∧ s.ach = [] ∧
    t = s := by
  obtain ⟨h1, h3⟩ := (runOperation_eq_next h2).mp h
  obtain ⟨hl, he⟩ := txaIdleEnabled_iff.mp h2
  cases h3
  exact ⟨h1, hl, he, rfl⟩

/-! ### The receiver's operations -/

theorem rxAccept_next {s t : Machine.State} (h2 : rxAcceptEnabled s = true)
    (h : execRxAccept s = .next t) :
    s.cfg.cstatus = .ok ∧ s.rcv.rstate = .accepting ∧
    ∃ seq plen payload rest, s.dch = .frame seq plen payload :: rest ∧
      (1 ≤ plen ∧ plen ≤ s.cfg.payloadBits) ∧ seq.toNat = s.cur.expected ∧
      t = { s with
        dch := rest
        cur := { expected := s.cur.expected + 1
                 assembled := s.cur.assembled ++ [payload.take plen] }
        ach := s.ach ++ [ackOf s.cur.expected] } := by
  obtain ⟨h1, h3⟩ := (runOperation_eq_next h2).mp h
  obtain ⟨ha, seq, plen, payload, rest, hd, hp, hs⟩ := rxAcceptEnabled_iff.mp h2
  simp only [rxAccept, deqData_cons hd, Except.ok.injEq] at h3
  exact ⟨h1, ha, seq, plen, payload, rest, hd, hp, hs, h3.symm⟩

theorem rxReject_next {s t : Machine.State} (h2 : rxRejectEnabled s = true)
    (h : execRxReject s = .next t) :
    s.cfg.cstatus = .ok ∧ s.rcv.rstate = .accepting ∧
    ∃ seq plen payload rest, s.dch = .frame seq plen payload :: rest ∧
      (1 ≤ plen ∧ plen ≤ s.cfg.payloadBits) ∧ seq.toNat ≠ s.cur.expected ∧
      t = { s with dch := rest, ach := s.ach ++ [ackOf ((s.cur.expected : Int) - 1)] } := by
  obtain ⟨h1, h3⟩ := (runOperation_eq_next h2).mp h
  obtain ⟨ha, seq, plen, payload, rest, hd, hp, hs⟩ := rxRejectEnabled_iff.mp h2
  simp only [rxReject, deqData_cons hd, Except.ok.injEq] at h3
  exact ⟨h1, ha, seq, plen, payload, rest, hd, hp, hs, h3.symm⟩

/-- The records of the flush (R131, R204). -/
def flushRecords (d : Decoded) : List LogRecord :=
  (if d.residue = 0 then [] else [{ kind := .fault, val := 17 }]) ++ [{ kind := .writeDone, val := 0 }]

/-- The state the flush leaves, the marker taken off `DCH` (R204). -/
def afterFlush (rest : List DataMsg) (s : Machine.State) : Machine.State :=
  { s with
    dch := rest
    rcv := { rstate := .stopped, writeDone := true }
    sink := some (decodePayloads s.cur.assembled).bytes
    log := s.log ++ flushRecords (decodePayloads s.cur.assembled) }

theorem rxEos_cons {s : Machine.State} {m : DataMsg} {rest : List DataMsg} (h : s.dch = m :: rest) :
    rxEos s = .ok (afterFlush rest s) := by
  simp only [rxEos, deqData_cons h, State.reportResidue, flushRecords, afterFlush]
  by_cases hr : (decodePayloads s.cur.assembled).residue = 0
  · simp [hr, State.sinkWrite, State.record]
  · simp [hr, State.sinkWrite, State.record, State.raiseFailSoft, FaultCode.code]

theorem rxEos_next {s t : Machine.State} (h2 : rxEosEnabled s = true)
    (h : execRxEos s = .next t) :
    s.cfg.cstatus = .ok ∧ s.rcv.rstate = .accepting ∧
    ∃ rest, s.dch = .eos :: rest ∧ t = afterFlush rest s := by
  obtain ⟨h1, h3⟩ := (runOperation_eq_next h2).mp h
  obtain ⟨ha, rest, hd⟩ := rxEosEnabled_iff.mp h2
  rw [rxEos_cons hd, Except.ok.injEq] at h3
  exact ⟨h1, ha, rest, hd, h3.symm⟩

theorem rxMalformed_next {s t : Machine.State} (h2 : rxMalformedEnabled s = true)
    (h : execRxMalformed s = .next t) :
    s.cfg.cstatus = .ok ∧ s.rcv.rstate = .accepting ∧
    ∃ seq plen payload rest, s.dch = .frame seq plen payload :: rest ∧
      ¬(1 ≤ plen ∧ plen ≤ s.cfg.payloadBits) ∧
      t = { s with dch := rest, log := s.log ++ [{ kind := .fault, val := 16 }] } := by
  obtain ⟨h1, h3⟩ := (runOperation_eq_next h2).mp h
  obtain ⟨ha, seq, plen, payload, rest, hd, hp⟩ := rxMalformedEnabled_iff.mp h2
  simp only [rxMalformed, deqData_cons hd, Except.ok.injEq] at h3
  exact ⟨h1, ha, seq, plen, payload, rest, hd, hp, h3.symm⟩

theorem rxIdle_next {s t : Machine.State} (h2 : rxIdleEnabled s = true)
    (h : execRxIdle s = .next t) :
    s.cfg.cstatus = .ok ∧ s.rcv.rstate = .accepting ∧ s.dch = [] ∧ t = s := by
  obtain ⟨h1, h3⟩ := (runOperation_eq_next h2).mp h
  obtain ⟨ha, hd⟩ := rxIdleEnabled_iff.mp h2
  cases h3
  exact ⟨h1, ha, hd, rfl⟩

/-! ### The environment, the functions, the words -/

theorem envAdvance_next {d : Nat} {s t : Machine.State} (h2 : envAdvanceEnabled d s = true)
    (h : execEnvAdvance d s = .next t) :
    s.cfg.cstatus = .ok ∧
    (d = 0 ∨ s.snd.sstate ≠ .watching ∨ s.now + d ≤ s.snd.lastPoll + s.cfg.pollTick) ∧
    t = { s with now := s.now + d } := by
  obtain ⟨h1, h3⟩ := (runOperation_eq_next h2).mp h
  cases h3
  exact ⟨h1, envAdvanceEnabled_iff.mp h2, rfl⟩

/-- A function row changes only the model's result field (R105; log 7). -/
theorem function_next {s t : Machine.State} :
    (∀ src c, execCodecEncode src c s = .next t → ∃ r, t = s.setResult r) ∧
    (∀ ps, execCodecDecode ps s = .next t → ∃ r, t = s.setResult r) ∧
    (∀ i b p, execLossShouldDrop i b p s = .next t → ∃ r, t = s.setResult r) ∧
    (∀ b w n, execWinRange b w n s = .next t → ∃ r, t = s.setResult r) ∧
    (∀ b w n, execWinSlideSlot b w n s = .next t → ∃ r, t = s.setResult r) ∧
    (∀ i n, execTmoExpired i n s = .next t → ∃ r, t = s.setResult r) ∧
    (∀ n, execTmoArb n s = .next t → ∃ r, t = s.setResult r) := by
  refine ⟨?_, ?_, ?_, ?_, ?_, ?_, ?_⟩
  · rintro _ _ ⟨⟩; exact ⟨_, rfl⟩
  · rintro _ ⟨⟩; exact ⟨_, rfl⟩
  · intro i b p h
    unfold execLossShouldDrop at h
    split at h
    · cases h
    · cases h; exact ⟨_, rfl⟩
  · rintro _ _ _ ⟨⟩; exact ⟨_, rfl⟩
  · rintro _ _ _ ⟨⟩; exact ⟨_, rfl⟩
  · intro i n h
    obtain ⟨-, h⟩ := onEngine_eq_next.mp h
    split at h <;> cases h
    exact ⟨_, rfl⟩
  · intro n h
    obtain ⟨-, h⟩ := onEngine_eq_next.mp h
    split at h <;> cases h
    exact ⟨_, rfl⟩

theorem seqXmit_next {i : Nat} {s t : Machine.State} (h : execSeqXmit i s = .next t) :
    s.cfg.cstatus = .ok ∧ i ∈ activeWindow s ∧ t = afterAttempt s.now i s ∧
    i < s.win.droppedOnce.length := by
  obtain ⟨h1, h2⟩ := onEngine_eq_next.mp h
  split at h2
  · rename_i hi
    obtain ⟨ht, hl, -⟩ := xmit_eq_ok h2
    exact ⟨h1, hi, ht, hl⟩
  · cases h2

theorem seqSendWindow_next {s t : Machine.State} (h : execSeqSendWindow s = .next t) :
    s.cfg.cstatus = .ok ∧ sendWindow s.now s = .ok t := onEngine_eq_next.mp h

theorem recordWord_next {k : LogKind} {v : SignedField} {s t : Machine.State}
    (h : recordWord k v s = .next t) : s.cfg.cstatus = .ok ∧ t = s.record k v.toInt := by
  obtain ⟨h1, h2⟩ := onEngine_eq_next.mp h
  cases h2
  exact ⟨h1, rfl⟩

theorem injectData_next {w : Nat} {m : DataMsg} {s t : Machine.State}
    (h : injectData w m s = .next t) :
    s.cfg.cstatus = .ok ∧ w = s.cfg.payloadBits ∧ t = s.enqData m := by
  obtain ⟨h1, h2⟩ := onEngine_eq_next.mp h
  split at h2
  · cases h2
    exact ⟨h1, by assumption, rfl⟩
  · cases h2

theorem fmtFrameF_next {seq : SeqField} {p : BitString} {s t : Machine.State}
    (h : execFmtFrameF seq p s = .next t) :
    s.cfg.cstatus = .ok ∧ p.length ≤ s.cfg.payloadBits ∧
    t = s.enqData (frameMsg s.cfg.payloadBits { seq := seq, payload := p }) := by
  obtain ⟨h1, h2⟩ := onEngine_eq_next.mp h
  split at h2
  · cases h2
    exact ⟨h1, by assumption, rfl⟩
  · cases h2

theorem injectAck_next {a : SignedField} {s t : Machine.State} (h : injectAck a s = .next t) :
    s.cfg.cstatus = .ok ∧ t = s.enqAck a := by
  obtain ⟨h1, h2⟩ := onEngine_eq_next.mp h
  cases h2
  exact ⟨h1, rfl⟩

/-- What a construction leaves: blanks under a fault's code, or every register set (R280). -/
theorem construct_cases (l : Launch) (s : Machine.State) :
    (∃ f, f ≠ .ok ∧ construct l s = s.failConstruction f) ∨
    (∃ source frames, l.source = some source ∧ 1 ≤ l.windowSize ∧ 1 ≤ l.dropPeriod ∧
      0 < l.timeoutInterval ∧ encodeSource source l.frameCapacityBits = .ok frames ∧
      construct l s = s.constructed l source frames) := by
  unfold construct
  by_cases h1 : l.windowSize < 1
  · exact .inl ⟨_, by decide, if_pos h1⟩
  rw [if_neg h1]
  by_cases h2 : l.frameCapacityBits ≤ Config.seqWidth
  · exact .inl ⟨_, by decide, if_pos h2⟩
  rw [if_neg h2]
  by_cases h3 : l.dropPeriod < 1
  · exact .inl ⟨_, by decide, if_pos h3⟩
  rw [if_neg h3]
  by_cases h4 : l.timeoutInterval ≤ 0
  · exact .inl ⟨_, by decide, if_pos h4⟩
  rw [if_neg h4]
  cases hsrc : l.source with
  | none => exact .inl ⟨.sourceUnreadable, by decide, rfl⟩
  | some source =>
    cases he : encodeSource source l.frameCapacityBits with
    | ok frames => exact .inr ⟨source, frames, rfl, by omega, by omega, by omega, he, by simp [he]⟩
    | error f =>
      refine .inl ⟨f, ?_, by simp [he]⟩
      rintro rfl
      unfold encodeSource at he
      split at he
      · cases he
      · simp only at he
        split at he <;> cases he

/-- What constructing the receiver alone leaves (R283). -/
theorem constructAlone_cases (n : Nat) (s : Machine.State) :
    (n < 1 ∧ constructAlone n s = s.failConstruction .configFrameCapacity) ∨
    (1 ≤ n ∧ constructAlone n s = s.constructedAlone n) := by
  unfold constructAlone
  split
  · exact .inl ⟨by assumption, rfl⟩
  · exact .inr ⟨by omega, rfl⟩

end Sys2Proof.Laws
end

