-- ==== Sys2Proof/Laws/Effect.lean ====
section
/-! SUPPORT. Everything an instruction can do when it answers a next state, said once for the whole
instruction set: a proof over all instructions goes by cases on `Effect` and unfolds no meaning. -/

namespace Sys2Proof.Laws

open Sys2Proof.Machine

/-- The function rows, which change only the model's result field (R105; log 7). -/
def isFunctionRow : Instr → Bool
  | .codecEncode _ _ => true
  | .codecDecode _ => true
  | .lossShouldDrop _ _ _ => true
  | .winRange _ _ _ => true
  | .winSlideSlot _ _ _ => true
  | .tmoExpired _ _ => true
  | .tmoArb _ => true
  | _ => false

/-- The words that join the data channel (R91 to R95; log 9). -/
def isDataWord : Instr → Bool
  | .msgFrame _ _ _ => true
  | .msgEos _ _ _ => true
  | .fmtFrameF _ _ => true
  | _ => false

/-- The words that join the ack channel (R96, R97; log 9). -/
def isAckWord : Instr → Bool
  | .msgAck _ => true
  | .msgAckNone => true
  | .msgAckUnexpected _ => true
  | _ => false

/-- The rows that append one record (R100, R215; log 8). -/
def isRecordRow : Instr → Bool
  | .logRecord _ _ => true
  | .logSent _ => true
  | .logDropped _ => true
  | .logAckAccepted _ => true
  | .logAckIgnored _ => true
  | .logTimeout _ => true
  | .logWriteDone _ => true
  | .logFault _ => true
  | _ => false

/-- The guard of an instruction (R108). The functions and the words of the formats are no operations of
an agent and have none (R105). -/
def guardOf (i : Instr) (s : State) : Bool :=
  match i with
  | .envAdvance d => envAdvanceEnabled d s
  | .txFill => txFillEnabled s
  | .txPoll => txPollEnabled s
  | .txFinish => txFinishEnabled s
  | .txJoin => txJoinEnabled s
  | .txaAckAccept => txaAckAcceptEnabled s
  | .txaAckIgnore => txaAckIgnoreEnabled s
  | .txaIdle => txaIdleEnabled s
  | .txaStop => txaStopEnabled s
  | .rxAccept => rxAcceptEnabled s
  | .rxReject => rxRejectEnabled s
  | .rxEos => rxEosEnabled s
  | .rxMalformed => rxMalformedEnabled s
  | .rxIdle => rxIdleEnabled s
  | _ => true

/-- What a next state of an instruction tells about the state before it. -/
inductive Effect (s : Machine.State) : Instr → Machine.State → Prop where
  | construct (l : Launch) : Effect s (.sysConstruct (.pair l)) (construct l s)
  | constructAlone (n : Nat) : Effect s (.sysConstruct (.receiverAlone n)) (constructAlone n s)
  | waits (i : Instr) (up : s.cfg.cstatus = .ok) (off : guardOf i s = false) : Effect s i s
  | advance (d : Nat) (up : s.cfg.cstatus = .ok)
      (contract : d = 0 ∨ s.snd.sstate ≠ .watching ∨ s.now + d ≤ s.snd.lastPoll + s.cfg.pollTick) :
      Effect s (.envAdvance d) { s with now := s.now + d }
  | fill (up : s.cfg.cstatus = .ok) (built : s.cfg.senderBuilt = true) (state : s.snd.sstate = .filling) (u : Machine.State)
      (sent : sendWindow s.now s = .ok u) : Effect s .txFill (u.setLastPoll s.now).settleSState
  | quietPoll (up : s.cfg.cstatus = .ok) (built : s.cfg.senderBuilt = true) (state : s.snd.sstate = .watching)
      (quiet : arbitrate s.now s = .ok []) : Effect s .txPoll (s.setLastPoll s.now)
  | retransmit (up : s.cfg.cstatus = .ok) (built : s.cfg.senderBuilt = true) (state : s.snd.sstate = .watching) (expired : List Nat)
      (found : arbitrate s.now s = .ok expired) (ne : expired ≠ []) (u : Machine.State)
      (sent : sendWindow s.now ((s.setLastPoll s.now).enterRetransmission expired) = .ok u) :
      Effect s .txPoll u.leaveRetransmission
  | finish (up : s.cfg.cstatus = .ok) (built : s.cfg.senderBuilt = true) (state : s.snd.sstate = .done)
      (open_ : s.snd.eosPushed = false) :
      Effect s .txFinish { s with dch := s.dch ++ [.eos], snd := { s.snd with eosPushed := true } }
  | join (up : s.cfg.cstatus = .ok) (built : s.cfg.senderBuilt = true) (pushed : s.snd.eosPushed = true)
      (stopped : s.snd.listenerStopped = true) (running : s.snd.senderComplete = false) :
      Effect s .txJoin { s with snd := { s.snd with senderComplete := true } }
  | ackLast (up : s.cfg.cstatus = .ok) (built : s.cfg.senderBuilt = true) (running : s.snd.listenerStopped = false)
      (state : s.snd.sstate ≠ .done) (a : SignedField) (rest : List SignedField)
      (head : s.ach = a :: rest) (inOrder : ackValue a = s.win.base)
      (slot : s.win.base < s.win.acked.length)
      (exposes : s.cfg.totalFrames ≤ s.win.base + 1 + s.cfg.windowSize - 1) :
      Effect s .txaAckAccept (afterAck a rest s).settleSState
  | ackSlide (up : s.cfg.cstatus = .ok) (built : s.cfg.senderBuilt = true) (running : s.snd.listenerStopped = false)
      (state : s.snd.sstate ≠ .done) (a : SignedField) (rest : List SignedField)
      (head : s.ach = a :: rest) (inOrder : ackValue a = s.win.base)
      (slot : s.win.base < s.win.acked.length)
      (exposes : s.win.base + 1 + s.cfg.windowSize - 1 < s.cfg.totalFrames)
      (exists_ : s.win.base + 1 + s.cfg.windowSize - 1 < s.win.droppedOnce.length) :
      Effect s .txaAckAccept (afterAttempt s.now (s.win.base + 1 + s.cfg.windowSize - 1)
        (afterAck a rest s)).settleSState
  | ackIgnore (up : s.cfg.cstatus = .ok) (built : s.cfg.senderBuilt = true) (running : s.snd.listenerStopped = false)
      (state : s.snd.sstate ≠ .done) (a : SignedField) (rest : List SignedField)
      (head : s.ach = a :: rest) (other : ackValue a ≠ s.win.base) :
      Effect s .txaAckIgnore
        { s with ach := rest, log := s.log ++ [{ kind := .ackIgnored, val := ackValue a }] }
  | listenerIdle (up : s.cfg.cstatus = .ok) (built : s.cfg.senderBuilt = true) (running : s.snd.listenerStopped = false)
      (state : s.snd.sstate ≠ .done) (empty : s.ach = []) : Effect s .txaIdle s
  | listenerStop (up : s.cfg.cstatus = .ok) (built : s.cfg.senderBuilt = true) (running : s.snd.listenerStopped = false)
      (state : s.snd.sstate = .done) :
      Effect s .txaStop { s with snd := { s.snd with listenerStopped := true } }
  | accept (up : s.cfg.cstatus = .ok) (state : s.rcv.rstate = .accepting) (seq : SeqField)
      (plen : Nat) (payload : BitString) (rest : List DataMsg)
      (head : s.dch = .frame seq plen payload :: rest)
      (formed : 1 ≤ plen ∧ plen ≤ s.cfg.payloadBits) (inOrder : seq.toNat = s.cur.expected) :
      Effect s .rxAccept { s with
        dch := rest
        cur := { expected := s.cur.expected + 1
                 assembled := s.cur.assembled ++ [payload.take plen] }
        ach := s.ach ++ [ackOf s.cur.expected] }
  | reject (up : s.cfg.cstatus = .ok) (state : s.rcv.rstate = .accepting) (seq : SeqField)
      (plen : Nat) (payload : BitString) (rest : List DataMsg)
      (head : s.dch = .frame seq plen payload :: rest)
      (formed : 1 ≤ plen ∧ plen ≤ s.cfg.payloadBits) (other : seq.toNat ≠ s.cur.expected) :
      Effect s .rxReject
        { s with dch := rest, ach := s.ach ++ [ackOf ((s.cur.expected : Int) - 1)] }
  | endOfStream (up : s.cfg.cstatus = .ok) (state : s.rcv.rstate = .accepting)
      (rest : List DataMsg) (head : s.dch = .eos :: rest) : Effect s .rxEos (afterFlush rest s)
  | malformed (up : s.cfg.cstatus = .ok) (state : s.rcv.rstate = .accepting) (seq : SeqField)
      (plen : Nat) (payload : BitString) (rest : List DataMsg)
      (head : s.dch = .frame seq plen payload :: rest)
      (formed : ¬(1 ≤ plen ∧ plen ≤ s.cfg.payloadBits)) :
      Effect s .rxMalformed
        { s with dch := rest, log := s.log ++ [{ kind := .fault, val := 16 }] }
  | receiverIdle (up : s.cfg.cstatus = .ok) (state : s.rcv.rstate = .accepting)
      (empty : s.dch = []) : Effect s .rxIdle s
  | function (i : Instr) (row : isFunctionRow i = true) (r : FnResult) : Effect s i (s.setResult r)
  | attempt (up : s.cfg.cstatus = .ok) (i : Nat) (slot : i ∈ activeWindow s)
      (exists_ : i < s.win.droppedOnce.length) :
      Effect s (.seqXmit i) (afterAttempt s.now i s)
  | window (up : s.cfg.cstatus = .ok) (u : Machine.State) (sent : sendWindow s.now s = .ok u) :
      Effect s .seqSendWindow u
  | dataWord (up : s.cfg.cstatus = .ok) (i : Instr) (row : isDataWord i = true) (m : DataMsg)
      (fits : fieldFits s.cfg.payloadBits m = true) : Effect s i (s.enqData m)
  | ackWord (up : s.cfg.cstatus = .ok) (i : Instr) (row : isAckWord i = true) (a : SignedField) :
      Effect s i (s.enqAck a)
  | recordRow (up : s.cfg.cstatus = .ok) (i : Instr) (row : isRecordRow i = true) (k : LogKind)
      (v : SignedField) : Effect s i (s.record k v.toInt)

theorem payloadField_length (l : Nat) (p : BitString) (h : p.length ≤ l) :
    (payloadField l p).length = l := by
  simp only [payloadField, List.length_append, List.length_replicate]
  omega

theorem exec_construct_pair (l : Launch) (s : Machine.State) :
    exec (.sysConstruct (.pair l)) s = .next (construct l s) := rfl

theorem exec_construct_alone (n : Nat) (s : Machine.State) :
    exec (.sysConstruct (.receiverAlone n)) s = .next (constructAlone n s) := rfl

/-- Everything a next state of an instruction tells. -/
theorem exec_next {i : Instr} {s t : Machine.State} (h : exec i s = .next t) : Effect s i t := by
  by_cases off : guardOf i s = false
  · have waits : s.cfg.cstatus = .ok ∧ t = s → Effect s i t := by
      rintro ⟨up, rfl⟩
      exact .waits i up off
    cases i with
    | envAdvance d => exact waits ((runOperation_waits (en := envAdvanceEnabled d) off).mp h)
    | txFill => exact waits ((runOperation_waits (en := txFillEnabled) off).mp h)
    | txPoll => exact waits ((runOperation_waits (en := txPollEnabled) off).mp h)
    | txFinish => exact waits ((runOperation_waits (en := txFinishEnabled) off).mp h)
    | txJoin => exact waits ((runOperation_waits (en := txJoinEnabled) off).mp h)
    | txaAckAccept => exact waits ((runOperation_waits (en := txaAckAcceptEnabled) off).mp h)
    | txaAckIgnore => exact waits ((runOperation_waits (en := txaAckIgnoreEnabled) off).mp h)
    | txaIdle => exact waits ((runOperation_waits (en := txaIdleEnabled) off).mp h)
    | txaStop => exact waits ((runOperation_waits (en := txaStopEnabled) off).mp h)
    | rxAccept => exact waits ((runOperation_waits (en := rxAcceptEnabled) off).mp h)
    | rxReject => exact waits ((runOperation_waits (en := rxRejectEnabled) off).mp h)
    | rxEos => exact waits ((runOperation_waits (en := rxEosEnabled) off).mp h)
    | rxMalformed => exact waits ((runOperation_waits (en := rxMalformedEnabled) off).mp h)
    | rxIdle => exact waits ((runOperation_waits (en := rxIdleEnabled) off).mp h)
    | _ => cases off
  have on := eq_true_of_ne_false off
  cases i with
  | sysConstruct c => cases c <;> cases h <;> constructor
  | envAdvance d =>
    obtain ⟨up, hc, rfl⟩ := envAdvance_next on h
    exact .advance d up hc
  | txFill =>
    obtain ⟨up, ⟨hb, hs⟩, u, hu, rfl⟩ := txFill_next on h
    exact .fill up hb hs u hu
  | txPoll =>
    obtain ⟨up, ⟨hb, hs⟩, e, he, ⟨rfl, rfl⟩ | ⟨hne, u, hu, rfl⟩⟩ := txPoll_next on h
    · exact .quietPoll up hb hs he
    · exact .retransmit up hb hs e he hne u hu
  | txFinish =>
    obtain ⟨up, ⟨hb, hd, he⟩, rfl⟩ := txFinish_next on h
    exact .finish up hb hd he
  | txJoin =>
    obtain ⟨up, ⟨hb, h1, h2, h3⟩, rfl⟩ := txJoin_next on h
    exact .join up hb h1 h2 h3
  | txaAckAccept =>
    obtain ⟨up, ⟨hs, hl, hd⟩, a, rest, ha, hv, hb, ⟨hn, rfl⟩ | ⟨hn, hx, rfl⟩⟩ := txaAckAccept_next on h
    · exact .ackLast up hs hl hd a rest ha hv hb hn
    · exact .ackSlide up hs hl hd a rest ha hv hb hn hx
  | txaAckIgnore =>
    obtain ⟨up, ⟨hb, hl, hd⟩, a, rest, ha, hv, rfl⟩ := txaAckIgnore_next on h
    exact .ackIgnore up hb hl hd a rest ha hv
  | txaIdle =>
    obtain ⟨up, ⟨hb, hl, hd⟩, he, rfl⟩ := txaIdle_next on h
    exact .listenerIdle up hb hl hd he
  | txaStop =>
    obtain ⟨up, ⟨hb, hl, hd⟩, rfl⟩ := txaStop_next on h
    exact .listenerStop up hb hl hd
  | rxAccept =>
    obtain ⟨up, hs, seq, plen, p, rest, hd, hf, hi, rfl⟩ := rxAccept_next on h
    exact .accept up hs seq plen p rest hd hf hi
  | rxReject =>
    obtain ⟨up, hs, seq, plen, p, rest, hd, hf, hi, rfl⟩ := rxReject_next on h
    exact .reject up hs seq plen p rest hd hf hi
  | rxEos =>
    obtain ⟨up, hs, rest, hd, rfl⟩ := rxEos_next on h
    exact .endOfStream up hs rest hd
  | rxMalformed =>
    obtain ⟨up, hs, seq, plen, p, rest, hd, hf, rfl⟩ := rxMalformed_next on h
    exact .malformed up hs seq plen p rest hd hf
  | rxIdle =>
    obtain ⟨up, hs, hd, rfl⟩ := rxIdle_next on h
    exact .receiverIdle up hs hd
  | codecEncode src c =>
    obtain ⟨r, rfl⟩ := function_next.1 src c h
    exact .function _ rfl r
  | codecDecode ps =>
    obtain ⟨r, rfl⟩ := function_next.2.1 ps h
    exact .function _ rfl r
  | lossShouldDrop i b p =>
    obtain ⟨r, rfl⟩ := function_next.2.2.1 i b p h
    exact .function _ rfl r
  | winRange b w n =>
    obtain ⟨r, rfl⟩ := function_next.2.2.2.1 b w n h
    exact .function _ rfl r
  | winSlideSlot b w n =>
    obtain ⟨r, rfl⟩ := function_next.2.2.2.2.1 b w n h
    exact .function _ rfl r
  | tmoExpired i n =>
    obtain ⟨r, rfl⟩ := function_next.2.2.2.2.2.1 i n h
    exact .function _ rfl r
  | tmoArb n =>
    obtain ⟨r, rfl⟩ := function_next.2.2.2.2.2.2 n h
    exact .function _ rfl r
  | seqXmit i =>
    obtain ⟨up, hi, rfl, hx⟩ := seqXmit_next h
    exact .attempt up i hi hx
  | seqSendWindow =>
    obtain ⟨up, hu⟩ := seqSendWindow_next h
    exact .window up t hu
  | msgFrame seq plen p =>
    obtain ⟨up, hw, rfl⟩ := injectData_next h
    exact .dataWord up _ rfl _ (by simp [fieldFits, hw])
  | msgEos seq plen p =>
    obtain ⟨up, -, rfl⟩ := injectData_next h
    exact .dataWord up _ rfl _ rfl
  | fmtFrameF seq p =>
    obtain ⟨up, hp, rfl⟩ := fmtFrameF_next h
    exact .dataWord up _ rfl _ (by simp [fieldFits, frameMsg, payloadField_length _ _ hp])
  | msgAck v => obtain ⟨up, rfl⟩ := injectAck_next h; exact .ackWord up _ rfl _
  | msgAckNone => obtain ⟨up, rfl⟩ := injectAck_next h; exact .ackWord up _ rfl _
  | msgAckUnexpected v => obtain ⟨up, rfl⟩ := injectAck_next h; exact .ackWord up _ rfl _
  | logRecord k v => obtain ⟨up, rfl⟩ := recordWord_next h; exact .recordRow up _ rfl _ _
  | logSent v => obtain ⟨up, rfl⟩ := recordWord_next h; exact .recordRow up _ rfl _ _
  | logDropped v => obtain ⟨up, rfl⟩ := recordWord_next h; exact .recordRow up _ rfl _ _
  | logAckAccepted v => obtain ⟨up, rfl⟩ := recordWord_next h; exact .recordRow up _ rfl _ _
  | logAckIgnored v => obtain ⟨up, rfl⟩ := recordWord_next h; exact .recordRow up _ rfl _ _
  | logTimeout v => obtain ⟨up, rfl⟩ := recordWord_next h; exact .recordRow up _ rfl _ _
  | logWriteDone v => obtain ⟨up, rfl⟩ := recordWord_next h; exact .recordRow up _ rfl _ _
  | logFault v => obtain ⟨up, rfl⟩ := recordWord_next h; exact .recordRow up _ rfl _ _
  | logReserved v => cases h

end Sys2Proof.Laws
end

