-- ==== Sys2Proof/Laws/Schedule.lean ====
section
/-! SUPPORT. Which operations a state offers, and that the free schedule takes one of them (spec 30 R109,
47 R229; log 4). -/

namespace Sys2Proof.Laws

open Sys2Proof.Machine

theorem mem_offer {b : Bool} {i j : Instr} : j ∈ offer b i ↔ b = true ∧ j = i := by
  cases b <;> simp [offer]

theorem offer_true (i : Instr) : offer true i = [i] := rfl

theorem offer_false (i : Instr) : offer false i = [] := rfl

theorem enabledOps_up {s : Machine.State} (h : s.cfg.cstatus = .ok) :
    enabledOps s = mainOps s ++ listenerOps s ++ receiverOps s := by
  simp [enabledOps, agentOps, h]

theorem enabledOps_down {s : Machine.State} (h : s.cfg.cstatus ≠ .ok) : enabledOps s = [] := by
  simp [enabledOps, agentOps, h]

/-- The free schedule takes one of the choices. -/
theorem freeChoice_mem (s : Machine.State) : freeChoice s ∈ choices (Config.freeDelay s.turn) s := by
  unfold freeChoice
  have hpos : 0 < (choices (Config.freeDelay s.turn) s).length := by simp [choices]
  have hl := Nat.mod_lt (Config.freePick s.turn) hpos
  simp only
  rw [List.getD_eq_getElem?_getD, List.getElem?_eq_getElem hl]
  exact List.getElem_mem hl

/-- An operation whose guard holds and whose effect answers completes. -/
theorem runOperation_completes {en : Machine.State → Bool}
    {eff : Machine.State → Except Fault Machine.State} {s : Machine.State} (h : s.cfg.cstatus = .ok)
    (he : en s = true) (hx : ∃ t, eff s = .ok t) : ∃ t, runOperation en eff s = .next t := by
  obtain ⟨t, ht⟩ := hx
  exact ⟨t, by rw [runOperation_enabled h he, ht]; rfl⟩

end Sys2Proof.Laws
end

