-- ==== Sys2Proof/Laws/Closed.lean ====
section
/-! SUPPORT. Small facts the invariants of Safety.lean are worked with: the frames of the store as
messages, a window pass without withheld slots, the ack channel's law (spec 20 R80). -/

namespace Sys2Proof.Laws

open Sys2Proof.Machine

/-! ### Messages of the frame store -/

/-- The message of a slot of canonical stores (R94, R125). -/
theorem slotMsg_of_wf {s : Machine.State} (hwf : Memory.wf s) {i : Nat} (hi : i < s.cfg.totalFrames) :
    ∃ f, s.fs[i]? = some f ∧ f.seq.toNat = i ∧
      slotMsg s i = .frame f.seq (frameLen f) (payloadField s.cfg.payloadBits f.payload) ∧
      1 ≤ frameLen f ∧ frameLen f ≤ s.cfg.payloadBits := by
  obtain ⟨h1, -, -, -, h5, h6, h7⟩ := hwf
  have hl : i < s.fs.length := by omega
  have h8 := h6 i hi
  rw [List.getElem?_eq_getElem hl] at h8
  simp only [Option.map_some, Option.some.injEq] at h8
  refine ⟨s.fs[i], List.getElem?_eq_getElem hl, ?_, ?_, h7 _ (List.getElem_mem hl)⟩
  · rw [h8]
    simp only [Config.maxFrames] at h5
    simp only [BitVec.toNat_ofNat]
    omega
  · simp [slotMsg, hl, frameMsg]

theorem slotMsg_ne_eos (s : Machine.State) (i : Nat) : slotMsg s i ≠ .eos := by simp [slotMsg, frameMsg]

theorem fieldFits_slotMsg {s : Machine.State} (hwf : Memory.wf s) {i : Nat}
    (hi : i < s.cfg.totalFrames) : fieldFits s.cfg.payloadBits (slotMsg s i) = true := by
  obtain ⟨f, -, -, hm, -, hl⟩ := slotMsg_of_wf hwf hi
  rw [hm]
  simp [fieldFits, payloadField_length _ _ hl]

/-- The payload a receiver takes of a frame's message is the frame's. -/
theorem payloadField_take (l : Nat) (f : Frame) :
    (payloadField l f.payload).take (frameLen f) = f.payload := by simp [payloadField, frameLen]

theorem mem_sentMsgs {s : Machine.State} {slots : List Nat} {m : DataMsg} :
    m ∈ sentMsgs s slots ↔ ∃ i, (i ∈ slots ∧ withheldNow s i = false) ∧ m = slotMsg s i := by
  simp only [sentMsgs, List.mem_map, List.mem_filter, Bool.not_eq_true']
  constructor <;> rintro ⟨i, hi, rfl⟩ <;> exact ⟨i, hi, rfl⟩

/-- Slot 0 is never withheld (R135). -/
theorem zero_not_withheld (s : Machine.State) : withheldNow s 0 = false := by
  rw [← Bool.not_eq_true, withheldNow, shouldDrop_iff]
  simp

/-- A pass that withholds nothing sends every slot (R189). -/
theorem sentMsgs_of_none_withheld {s : Machine.State} {slots : List Nat}
    (h : ∀ i ∈ slots, withheldNow s i = false) : sentMsgs s slots = slots.map (slotMsg s) := by
  unfold sentMsgs
  rw [List.filter_eq_self.mpr fun i hi => by simp [h i hi]]

/-! ### The invariant of the machine -/

/-- The machine's invariant reads no script, log, clock, ack, sink, source, turn or result. -/
theorem machineInv_congr {s t : Machine.State} (h : MachineInv s) (hc : t.cfg = s.cfg)
    (hw : t.win = s.win) (hs : t.snd = s.snd) (hu : t.cur = s.cur) (hr : t.rcv = s.rcv)
    (hf : t.fs = s.fs)
    (hd : ∀ m ∈ t.dch, m ∈ s.dch ∨ fieldFits s.cfg.payloadBits m = true) : MachineInv t := by
  obtain ⟨a1, a2, a2b, a2c, a3, a4, a5, a6, a7, a8, a9, a10, a11, a12, a13⟩ := h
  have e1 : ∀ i, stampOf t i = stampOf s i := fun i => by simp [stampOf, hw]
  have e2 : ∀ i, wasDropped t i = wasDropped s i := fun i => by simp [wasDropped, hw]
  refine ⟨wf_congr hc hf (by rw [hw]) (by rw [hw]) (by rw [hw]) a1,
    ?_, ?_, ?_, ?_, ?_, ?_, ?_, ?_, ?_, ?_, ?_, ?_, ?_, ?_⟩
  all_goals simp only [hc, hw, hs, hu, hr, e1, e2]
  all_goals first | assumption | skip
  intro m hm
  rcases hd m hm with h | h
  · exact a13 m h
  · exact h

/-! ### The ack channel -/

theorem ackCursor_append {b e : Nat} {l : List SignedField} (a : SignedField)
    (h : ackCursor b l = some e) : ackCursor b (l ++ [a]) = ackCursor e [a] := by
  induction l generalizing b with
  | nil => cases h; rfl
  | cons x l ih =>
    simp only [ackCursor, List.cons_append] at h ⊢
    by_cases h1 : ackValue x = b
    · simp only [h1, ↓reduceIte] at h ⊢
      exact ih h
    · by_cases h2 : 0 ≤ ackValue x ∧ ackValue x < b
      · simp only [h1, h2, and_self, ↓reduceIte] at h ⊢
        exact ih h
      · simp [h1, h2] at h

/-- "`base ≤ expected`" (R80 item 1). -/
theorem ackCursor_le {b e : Nat} {l : List SignedField} (h : ackCursor b l = some e) : b ≤ e := by
  induction l generalizing b with
  | nil => cases h; exact Nat.le_refl _
  | cons x l ih =>
    simp only [ackCursor] at h
    by_cases h1 : ackValue x = b
    · simp only [h1, ↓reduceIte] at h
      have := ih h
      omega
    · by_cases h2 : 0 ≤ ackValue x ∧ ackValue x < b
      · simp only [h1, h2, and_self, ↓reduceIte] at h
        exact ih h
      · simp [h1, h2] at h

/-- No ack in flight is negative, or acknowledges a slot not yet accepted (R80 item 2). -/
theorem ackCursor_mem {b e : Nat} {l : List SignedField} (h : ackCursor b l = some e) :
    ∀ a ∈ l, 0 ≤ ackValue a ∧ ackValue a < e := by
  induction l generalizing b with
  | nil => simp
  | cons x l ih =>
    simp only [ackCursor] at h
    by_cases h1 : ackValue x = b
    · simp only [h1, ↓reduceIte] at h
      have hle := ackCursor_le h
      intro a ha
      rcases List.mem_cons.mp ha with rfl | ha
      · omega
      · exact ih h a ha
    · by_cases h2 : 0 ≤ ackValue x ∧ ackValue x < b
      · simp only [h1, h2, and_self, ↓reduceIte] at h
        have hle := ackCursor_le h
        intro a ha
        rcases List.mem_cons.mp ha with rfl | ha
        · omega
        · exact ih h a ha
      · simp [h1, h2] at h

/-! ### The data channel: where the messages in flight carry the receiver -/

theorem le_dataCursor (e : Nat) (ms : List DataMsg) : e ≤ dataCursor e ms := by
  induction ms generalizing e with
  | nil => exact Nat.le_refl _
  | cons m ms ih =>
    cases m with
    | eos => exact ih e
    | frame seq plen p =>
      refine Nat.le_trans ?_ (ih _)
      split <;> omega

theorem dataCursor_append (e : Nat) (ms ns : List DataMsg) :
    dataCursor e (ms ++ ns) = dataCursor (dataCursor e ms) ns := by
  induction ms generalizing e with
  | nil => rfl
  | cons m ms ih => cases m <;> exact ih _

/-- The message of slot `i` moves the cursor exactly when it stands at `i`. -/
theorem dataCursor_slotMsg {s : Machine.State} (hwf : Memory.wf s) {i : Nat}
    (hi : i < s.cfg.totalFrames) (e : Nat) (ms : List DataMsg) :
    dataCursor e (slotMsg s i :: ms) = dataCursor (if i = e then e + 1 else e) ms := by
  obtain ⟨f, -, hs, hm, -⟩ := slotMsg_of_wf hwf hi
  rw [hm]
  simp only [dataCursor, seqValue, hs]

/-- A pass over slots beyond the cursor does not move it. -/
theorem dataCursor_sentMsgs_beyond {s : Machine.State} (hwf : Memory.wf s) {e : Nat} {slots : List Nat}
    (h : ∀ i ∈ slots, e < i ∧ i < s.cfg.totalFrames) : dataCursor e (sentMsgs s slots) = e := by
  induction slots with
  | nil => rfl
  | cons i slots ih =>
    have hi := h i List.mem_cons_self
    have ih := ih fun j hj => h j (List.mem_cons_of_mem _ hj)
    cases hw : withheldNow s i with
    | true => simpa [sentMsgs, hw] using ih
    | false =>
      rw [show sentMsgs s (i :: slots) = slotMsg s i :: sentMsgs s slots by simp [sentMsgs, hw],
        dataCursor_slotMsg hwf hi.2, if_neg (by omega), ih]

/-- A pass over `[b, b + n)` from a cursor not below `b` carries it to the end, or to a slot the pass
withholds (R135, R150). -/
theorem dataCursor_pass {s : Machine.State} (hwf : Memory.wf s) {b n e : Nat}
    (hN : b + n ≤ s.cfg.totalFrames) (hb : b ≤ e) :
    b + n ≤ dataCursor e (sentMsgs s (List.range' b n)) ∨
    (withheldNow s (dataCursor e (sentMsgs s (List.range' b n))) = true ∧
      dataCursor e (sentMsgs s (List.range' b n)) < b + n) := by
  induction n generalizing b e with
  | zero => exact .inl hb
  | succ n ih =>
    rw [List.range'_succ]
    cases hw : withheldNow s b with
    | true =>
      rw [show sentMsgs s (b :: List.range' (b + 1) n) = sentMsgs s (List.range' (b + 1) n) by
        simp [sentMsgs, hw]]
      by_cases hbe : b = e
      · subst hbe
        rw [dataCursor_sentMsgs_beyond hwf fun i hi => by
          rw [List.mem_range'_1] at hi
          omega]
        exact .inr ⟨hw, by omega⟩
      · rcases ih (b := b + 1) (e := e) (by omega) (by omega) with h | h
        · exact .inl (by omega)
        · exact .inr ⟨h.1, by omega⟩
    | false =>
      rw [show sentMsgs s (b :: List.range' (b + 1) n) = slotMsg s b :: sentMsgs s (List.range' (b + 1) n)
        by simp [sentMsgs, hw], dataCursor_slotMsg hwf (by omega)]
      rcases ih (b := b + 1) (e := if b = e then e + 1 else e) (by omega) (by split <;> omega) with h | h
      · exact .inl (by omega)
      · exact .inr ⟨h.1, by omega⟩

/-- In a state with the machine's invariant a window pass attempts every slot of the window; without a
sender there is none (R152; log 26). -/
theorem sendWindow_of_inv {s : Machine.State} (h : MachineInv s) (now : Nat) :
    sendWindow now s = .ok (afterPass now (activeWindow s) s) := by
  cases hb : s.cfg.senderBuilt with
  | true =>
    exact sendWindow_of_wf now (by have := (h.senderConfig hb).2.1; omega) h.stores h.ackedBelowBase
  | false =>
    have hw : activeWindow s = [] := by
      have h1 := h.alone hb
      simp [activeWindow, windowRange, winEnd, h1]
    have : sendWindow now s = sendSlots now (activeWindow s) s := rfl
    rw [this, hw]
    simp [sendSlots, afterPass, sentMsgs]

end Sys2Proof.Laws
end

