-- ==== Sys2Proof/Laws/PerInstr.lean ====
section
/-! SUPPORT. The statements made per instruction, one lemma per constructor. -/

namespace Sys2Proof.Laws

/-- An instruction's bytes begin with a step label that R108 uses or with a format byte (log 2); labels
0F and 1A to 1F stay unused. -/
def LeadByte.Statement (i : Instr) : Prop :=
  ∃ b bs, encode i = b :: bs ∧ (b.toNat < 0x0F ∨ (0x0F < b.toNat ∧ b.toNat < 0x1A) ∨
    (0x1F < b.toNat ∧ b.toNat < 0x24))

theorem LeadByte.sysConstruct (built : Construction) :
    LeadByte.Statement (.sysConstruct built) := ⟨_, _, rfl, by decide⟩

theorem LeadByte.envAdvance (d : Nat) :
    LeadByte.Statement (.envAdvance d) := ⟨_, _, rfl, by decide⟩

theorem LeadByte.txFill :
    LeadByte.Statement (.txFill) := ⟨_, _, rfl, by decide⟩

theorem LeadByte.txPoll :
    LeadByte.Statement (.txPoll) := ⟨_, _, rfl, by decide⟩

theorem LeadByte.txFinish :
    LeadByte.Statement (.txFinish) := ⟨_, _, rfl, by decide⟩

theorem LeadByte.txJoin :
    LeadByte.Statement (.txJoin) := ⟨_, _, rfl, by decide⟩

theorem LeadByte.txaAckAccept :
    LeadByte.Statement (.txaAckAccept) := ⟨_, _, rfl, by decide⟩

theorem LeadByte.txaAckIgnore :
    LeadByte.Statement (.txaAckIgnore) := ⟨_, _, rfl, by decide⟩

theorem LeadByte.txaIdle :
    LeadByte.Statement (.txaIdle) := ⟨_, _, rfl, by decide⟩

theorem LeadByte.txaStop :
    LeadByte.Statement (.txaStop) := ⟨_, _, rfl, by decide⟩

theorem LeadByte.rxAccept :
    LeadByte.Statement (.rxAccept) := ⟨_, _, rfl, by decide⟩

theorem LeadByte.rxReject :
    LeadByte.Statement (.rxReject) := ⟨_, _, rfl, by decide⟩

theorem LeadByte.rxEos :
    LeadByte.Statement (.rxEos) := ⟨_, _, rfl, by decide⟩

theorem LeadByte.rxMalformed :
    LeadByte.Statement (.rxMalformed) := ⟨_, _, rfl, by decide⟩

theorem LeadByte.rxIdle :
    LeadByte.Statement (.rxIdle) := ⟨_, _, rfl, by decide⟩

theorem LeadByte.codecEncode (source : List Byte) (capacity : Nat) :
    LeadByte.Statement (.codecEncode source capacity) := ⟨_, _, rfl, by decide⟩

theorem LeadByte.codecDecode (payloads : List BitString) :
    LeadByte.Statement (.codecDecode payloads) := ⟨_, _, rfl, by decide⟩

theorem LeadByte.lossShouldDrop (slot : Nat) (firstAttempt : Bool) (period : Nat) :
    LeadByte.Statement (.lossShouldDrop slot firstAttempt period) := ⟨_, _, rfl, by decide⟩

theorem LeadByte.winRange (base window frames : Nat) :
    LeadByte.Statement (.winRange base window frames) := ⟨_, _, rfl, by decide⟩

theorem LeadByte.winSlideSlot (base window frames : Nat) :
    LeadByte.Statement (.winSlideSlot base window frames) := ⟨_, _, rfl, by decide⟩

theorem LeadByte.seqXmit (slot : Nat) :
    LeadByte.Statement (.seqXmit slot) := ⟨_, _, rfl, by decide⟩

theorem LeadByte.seqSendWindow :
    LeadByte.Statement (.seqSendWindow) := ⟨_, _, rfl, by decide⟩

theorem LeadByte.tmoExpired (slot : Nat) (at_ : Nat) :
    LeadByte.Statement (.tmoExpired slot at_) := ⟨_, _, rfl, by decide⟩

theorem LeadByte.tmoArb (at_ : Nat) :
    LeadByte.Statement (.tmoArb at_) := ⟨_, _, rfl, by decide⟩

theorem LeadByte.logRecord (kind : LogKind) (val : SignedField) :
    LeadByte.Statement (.logRecord kind val) := ⟨_, _, rfl, by decide⟩

theorem LeadByte.msgFrame (seq : SeqField) (plen : Nat) (payload : BitString) :
    LeadByte.Statement (.msgFrame seq plen payload) := ⟨_, _, rfl, by decide⟩

theorem LeadByte.msgEos (seq : SeqField) (plen : Nat) (payload : BitString) :
    LeadByte.Statement (.msgEos seq plen payload) := ⟨_, _, rfl, by decide⟩

theorem LeadByte.fmtFrameF (seq : SeqField) (payload : BitString) :
    LeadByte.Statement (.fmtFrameF seq payload) := ⟨_, _, rfl, by decide⟩

theorem LeadByte.msgAck (slot : SeqField) :
    LeadByte.Statement (.msgAck slot) := ⟨_, _, rfl, by decide⟩

theorem LeadByte.msgAckNone :
    LeadByte.Statement (.msgAckNone) := ⟨_, _, rfl, by decide⟩

theorem LeadByte.msgAckUnexpected (low : SeqField) :
    LeadByte.Statement (.msgAckUnexpected low) := ⟨_, _, rfl, by decide⟩

theorem LeadByte.logSent (val : SignedField) :
    LeadByte.Statement (.logSent val) := ⟨_, _, rfl, by decide⟩

theorem LeadByte.logDropped (val : SignedField) :
    LeadByte.Statement (.logDropped val) := ⟨_, _, rfl, by decide⟩

theorem LeadByte.logAckAccepted (val : SignedField) :
    LeadByte.Statement (.logAckAccepted val) := ⟨_, _, rfl, by decide⟩

theorem LeadByte.logAckIgnored (val : SignedField) :
    LeadByte.Statement (.logAckIgnored val) := ⟨_, _, rfl, by decide⟩

theorem LeadByte.logTimeout (val : SignedField) :
    LeadByte.Statement (.logTimeout val) := ⟨_, _, rfl, by decide⟩

theorem LeadByte.logWriteDone (val : SignedField) :
    LeadByte.Statement (.logWriteDone val) := ⟨_, _, rfl, by decide⟩

theorem LeadByte.logFault (val : SignedField) :
    LeadByte.Statement (.logFault val) := ⟨_, _, rfl, by decide⟩

theorem LeadByte.logReserved (val : SignedField) :
    LeadByte.Statement (.logReserved val) := ⟨_, _, rfl, by decide⟩

end Sys2Proof.Laws
end

