-- ==== Sys2Proof/Tests/Slice0.lean ====
section
/-! SUPPORT. The model's own tests: ill-formed terms the check refuses, words written out from the spec's
encodings, single steps with the results of the spec's worked examples (95_test_vectors.md), and for
every statement with hypotheses a concrete state and operands that meet them together. -/

namespace Sys2Proof.Tests

set_option Elab.async false

open Sys2Proof Sys2Proof.Machine

/-! ## Helpers -/

/-- The outcome is a next state of which `p` holds. -/
def nextSat (o : Machine.Outcome) (p : Machine.State → Bool) : Bool :=
  match o with
  | .next t => p t
  | _ => false

def faultIs (o : Machine.Outcome) (f : Fault) : Bool :=
  match o with
  | .fault g => g == f
  | _ => false

def refusalIs (o : Machine.Outcome) (r : Refusal) : Bool :=
  match o with
  | .refused q => q == r
  | _ => false

theorem exists_next {o : Machine.Outcome} {p : Machine.State → Bool} (h : nextSat o p = true) :
    ∃ t, o = .next t ∧ p t = true := by
  cases o with
  | next t => exact ⟨t, rfl, h⟩
  | fault f => cases h
  | refused r => cases h

/-- The frame message `Fs` of the "Hello World" launch. -/
def F (i : Nat) : DataMsg := slotMsg State.reset i

/-- The ack `Kn`. -/
def K (n : Int) : SignedField := BitVec.ofInt 17 n

def logged (k : LogKind) (v : Int) : LogRecord := { kind := k, val := v }

/-- A `Watching` state of the "Hello World" launch. -/
def watching (base : Nat) (ts : List (Option Nat)) (dropped : List Bool) (now lastPoll : Nat) :
    Machine.State :=
  { State.reset with
    win := { base := base, sendTimestamp := ts, acked := (List.range 6).map fun i => decide (i < base)
             droppedOnce := dropped }
    snd := { State.reset.snd with sstate := .watching, lastPoll := lastPoll }
    now := now }

/-- The receiver with the first `n` frames accepted. -/
def received (n : Nat) (s : Machine.State) : Machine.State :=
  { s with cur := { expected := n, assembled := (s.fs.take n).map Frame.payload } }

/-- P1 after its first step: the window sent, slot 3 withheld. -/
def sent : Machine.State :=
  { watching 0 [some 0, some 0, some 0, some 0, none, none] [false, false, false, true, false, false] 0 0
    with dch := [F 0, F 1, F 2] }

/-- The state of V44-2: `base = 3`, `ts[3,4,5] = 0, 1, 1`, both channels empty. -/
def waiting (now lastPoll : Nat) : Machine.State :=
  received 3 (watching 3 [some 0, some 0, some 0, some 0, some 1, some 1]
    [false, false, false, true, false, false] now lastPoll)

/-- `Done`, with the given exit flags. -/
def done (eos stopped complete : Bool) : Machine.State :=
  let s := received 6 (watching 6 [some 0, some 0, some 0, some 11, some 11, some 11]
    [false, false, false, true, false, false] 11 11)
  { s with
    snd := { s.snd with
      sstate := .done, eosPushed := eos, listenerStopped := stopped, senderComplete := complete }
    dch := if eos then [.eos] else [] }

/-- The end state of P1 (its log apart). -/
def completed : Machine.State :=
  { done true true true with
    dch := [], rcv := { rstate := .stopped, writeDone := true }, sink := some State.reset.source }

/-- A launch as the programs of 95_test_vectors.md write it. -/
def launch (w c : Nat) (p t : Int) (source : Option (List Byte)) : Launch :=
  { windowSize := w, frameCapacityBits := c, dropPeriod := p, timeoutInterval := t, pollTick := 1
    source := source, t0 := 0 }

/-! ## Ill-formed terms (WellFormed) -/

theorem test_wf_period_zero : (Instr.lossShouldDrop 3 true 0).wellFormed = false := by decide
theorem test_wf_range_window_zero : (Instr.winRange 0 0 6).wellFormed = false := by decide
theorem test_wf_slide_window_zero : (Instr.winSlideSlot 1 0 6).wellFormed = false := by decide
theorem test_wf_frame_no_payload : (Instr.msgFrame 0 0 []).wellFormed = false := by decide
/-- `PLEN_WIDTH` is 5 for `L = 16` (V30-12): 32 does not fit. -/
theorem test_wf_frame_plen_too_wide :
    (Instr.msgFrame 0 32 (natToBits 16 0)).wellFormed = false := by decide
theorem test_wf_eos_plen_too_wide : (Instr.msgEos 0 32 (natToBits 16 0)).wellFormed = false := by decide
theorem test_wf_f_no_payload : (Instr.fmtFrameF 0 []).wellFormed = false := by decide
theorem test_wf_unexpected_is_none : (Instr.msgAckUnexpected 0xFFFF).wellFormed = false := by decide

/-! ## Words written out from the spec's encodings -/

/-- V30-12. -/
theorem test_plenWidth : [1, 8, 15, 16, 31, 32].map plenWidth = [1, 4, 4, 5, 5, 6] := by decide
/-- R133, V30-1, V30-2, V30-3: the words of `F0 .. F5` and of `EOS` at `C = 32`. -/
theorem test_dm_words : ((List.range 6).map fun i => (F i).word 16) =
    [0x0000104865, 0x0000306C6C, 0x0000506F20, 0x000070576F, 0x000090726C, 0x0000A86400] ∧
    DataMsg.eos.word 16 = 0x2000000000 := by decide +kernel
/-- V30-4, V30-5 (`C = 24`). -/
theorem test_dm_words_24 :
    decodeDm 8 0x0001842 = .msgFrame 1 8 (natToBits 8 0x42) ∧
    decodeDm 8 0x10000000 = .msgEos 0 0 (natToBits 8 0) := by decide +kernel
/-- V30-6, V30-7: a full and a short frame in format `F`. -/
theorem test_f_words :
    decodeF 16 0x0003576F = .fmtFrameF 3 (natToBits 16 0x576F) ∧
    decodeF 8 0x000564 = .fmtFrameF 5 (natToBits 8 0x64) := by decide +kernel
/-- V30-8, V30-9. -/
theorem test_am_words :
    decodeAm 0x00000 = .msgAck 0 ∧ decodeAm 0x0FFFF = .msgAck 0xFFFF ∧
    decodeAm 0x1FFFF = .msgAckNone ∧ decodeAm 0x10000 = .msgAckUnexpected 0 := by decide +kernel
/-- V30-10. -/
theorem test_lr_words :
    [0x00000, 0x20003, 0x40000, 0x60002, 0x80003, 0xA0000, 0xC0010, 0x7FFFF].map decodeLr =
      [.logSent 0, .logDropped 3, .logAckAccepted 0, .logAckIgnored 2, .logTimeout 3, .logWriteDone 0,
       .logFault 16, .logAckIgnored (K (-1))] := by decide +kernel
theorem test_lr_reserved : decodeLr 0xE0000 = .logReserved 0 := by decide +kernel
/-- V30-10 and the bracketed words of P1's log. -/
theorem test_record_words :
    ([logged .dropped 3, logged .ackIgnored (-1), logged .fault 16].map LogRecord.word) =
      [0x20003, 0x7FFFF, 0xC0010] := by decide +kernel
/-- R108: the labels without operands. -/
theorem test_labels :
    [[0x02], [0x03], [0x04], [0x05], [0x06], [0x07], [0x08], [0x09], [0x0A], [0x0B], [0x0C], [0x0D],
     [0x0E], [0x16]].map (fun bs => (decode bs).toOption.map Prod.fst) =
    [some .txFill, some .txPoll, some .txFinish, some .txJoin, some .txaAckAccept, some .txaAckIgnore,
     some .txaIdle, some .txaStop, some .rxAccept, some .rxReject, some .rxEos, some .rxMalformed,
     some .rxIdle, some .seqSendWindow] := by decide +kernel
/-- R108: the labels with operands, each number one byte (log 2). -/
theorem test_labels_operands :
    [[0x01, 5], [0x10, 1, 0x41, 24], [0x11, 1, 3, 6], [0x12, 3, 1, 3], [0x13, 3, 3, 6], [0x14, 1, 3, 6],
     [0x15, 3], [0x17, 3, 11], [0x18, 11], [0x19, 1, 3]].map
      (fun bs => (decode bs).toOption.map Prod.fst) =
    [some (.envAdvance 5), some (.codecEncode [0x41] 24), some (.codecDecode [[true, true, false]]),
     some (.lossShouldDrop 3 true 4), some (.winRange 3 4 6), some (.winSlideSlot 1 4 6),
     some (.seqXmit 3), some (.tmoExpired 3 11), some (.tmoArb 11), some (.logRecord .dropped 3)] := by
  decide +kernel
/-- R280: the launch of P2; R283: the receiver alone of P6. -/
theorem test_label_construct :
    decode [0x00, 0, 1, 24, 4, 10, 5, 1, 3, 0x41, 0x42, 0x43, 100] =
      .ok (.sysConstruct (.pair ⟨1, 24, 2, 5, 5, some [0x41, 0x42, 0x43], 100⟩), []) ∧
    decode [0x00, 1, 16] = .ok (.sysConstruct (.receiverAlone 16), []) := by decide +kernel
/-- R108: unused labels. -/
theorem test_unused_labels :
    decode [0x0F] = .error (.unusedLabel 0x0F) ∧ decode [0x1A] = .error (.unusedLabel 0x1A) ∧
    decode [0x1F, 0] = .error (.unusedLabel 0x1F) ∧ decode [0x24] = .error (.unusedFormatByte 0x24) ∧
    decode [0x01] = .error .truncated ∧ decode [0x22, 0xFF, 0xFF, 0x0F] = .error .wordTooWide := by
  decide +kernel

/-! ## Single steps -/

/-- Log 5: reset is the state after the launch of R280's example. -/
theorem test_reset_is_the_launch :
    nextSat (exec (.sysConstruct (.pair Config.resetLaunch)) State.reset) (· == State.reset) = true := by
  decide +kernel
/-- V70-1 to V70-8, V70-10, V70-11. -/
theorem test_construct_status :
    [launch 4 32 4 10 (some [0x48]), launch 0 32 4 10 (some [0x48]), launch 4 16 4 10 (some [0x48]),
     launch 4 17 4 10 (some [0x80]), launch 4 32 0 10 (some [0x48]), launch 4 32 (-1) 10 (some [0x48]),
     launch 4 32 4 0 (some [0x48]), launch 4 32 4 10 none, launch 0 8 0 0 none,
     launch 4 8 0 10 (some [0x48])].map (fun l => (construct l State.reset).cfg.cstatus.code) =
    [0, 1, 2, 0, 3, 3, 4, 5, 1, 2] := by decide +kernel
/-- P6: the receiver alone of `L = 16` accepts `F0:4865/16`, and its sender has no operation. -/
theorem test_construct_alone :
    nextSat (runProgram (.receiverAlone 16) [.injFrame 0 (natToBits 16 0x4865) 16, .agent .receiver]
      State.reset) (fun t => t.cur == { expected := 1, assembled := [natToBits 16 0x4865] } &&
        t.ach == [K 0] && agentOps .main t == [] && agentOps .listener t == []) = true ∧
    (constructAlone 0 State.reset).cfg.cstatus = .configFrameCapacity := by decide +kernel
/-- P6, step 7: an `R` after the receiver has stopped; "the message stays in `DCH`". -/
theorem test_letter_without_operation :
    nextSat ((ScriptStep.agent .receiver).run { completed with dch := [F 2] }) (fun t =>
      t == { completed with dch := [F 2] }) = true := by decide +kernel
/-- R106: `F2`, `F1:C/4`, `EOS`, `K-1`, and a repeated group. -/
theorem test_notation :
    nextSat (runScript [.injSlot 2, .injFrame 1 [true, true, false, false] 4, .injEos, .injAck (K (-1))]
      State.reset) (fun t => t.dch == [F 2, .frame 1 4 (natToBits 16 0xC000), .eos] && t.ach == [K (-1)])
      = true ∧
    repeated [.agent .receiver, .advance 1] 2 =
      [.agent .receiver, .advance 1, .agent .receiver, .advance 1] := by decide +kernel
/-- V44-8: the second advance waits for a poll. -/
theorem test_advance :
    nextSat (exec (.envAdvance 1) (waiting 5 5)) (fun t => t.now == 6) = true ∧
    nextSat (exec (.envAdvance 1) (waiting 6 5)) (· == waiting 6 5) = true := by decide +kernel
/-- V43-1. -/
theorem test_fill : nextSat (exec .txFill State.reset) (fun t =>
    t == { sent with
      log := [logged .sent 0, logged .sent 1, logged .sent 2, logged .dropped 3] }) = true := by
  decide +kernel
/-- V43-13. -/
theorem test_fill_empty :
    nextSat (exec .txFill (construct (launch 1 17 1 1 (some [])) State.reset)) (fun t =>
      t.snd.sstate == .done && t.log == [] && t.dch == []) = true := by decide +kernel
/-- V44-3. -/
theorem test_poll_expired : nextSat (exec .txPoll (waiting 11 10)) (fun t =>
    t.log == [logged .timeout 3, logged .sent 3, logged .sent 4, logged .sent 5] &&
    t.dch == [F 3, F 4, F 5] && t.snd.lastPoll == 11 && t.snd.sstate == .watching && t.win.base == 3 &&
    t.win.sendTimestamp == [some 0, some 0, some 0, some 11, some 11, some 11]) = true := by
  decide +kernel
/-- V44-5. -/
theorem test_poll_quiet : nextSat (exec .txPoll (waiting 10 9)) (fun t => t == waiting 10 10) = true := by
  decide +kernel
/-- V43-8. -/
theorem test_finish : nextSat (exec .txFinish (done false false false)) (fun t =>
    t == done true false false) = true := by decide +kernel
/-- V43-10, V43-11. -/
theorem test_join :
    nextSat (exec .txJoin (done true false false)) (· == done true false false) = true ∧
    nextSat (exec .txJoin (done true true false)) (· == done true true true) = true := by decide +kernel
/-- V43-2. -/
theorem test_ack_accept_slides :
    nextSat (exec .txaAckAccept { sent with ach := [K 0], now := 1, dch := [] }) (fun t =>
      t.win.base == 1 && t.win.acked == [true, false, false, false, false, false] && t.dch == [F 4] &&
      t.win.sendTimestamp == [some 0, some 0, some 0, some 0, some 1, none] && t.ach == [] &&
      t.snd.sstate == .watching && t.log == [logged .ackAccepted 0, logged .sent 4]) = true := by
  decide +kernel
/-- V43-7. -/
theorem test_ack_accept_last :
    nextSat (exec .txaAckAccept { watching 5 [some 0, some 0, some 0, some 11, some 11, some 11]
        [false, false, false, true, false, false] 11 11 with ach := [K 5] }) (fun t =>
      t.win.base == 6 && t.snd.sstate == .done && t.log == [logged .ackAccepted 5]) = true := by
  decide +kernel
/-- V43-5. -/
theorem test_ack_ignore_sentinel :
    nextSat (exec .txaAckIgnore { sent with ach := [K (-1)] }) (fun t =>
      t == { sent with log := [logged .ackIgnored (-1)] }) = true := by decide +kernel
/-- V43-6. -/
theorem test_ack_ignore_ahead :
    nextSat (exec .txaAckIgnore { sent with ach := [K 3] }) (fun t =>
      t == { sent with log := [logged .ackIgnored 3] }) = true := by decide +kernel
/-- V43-14. -/
theorem test_listener_idle : nextSat (exec .txaIdle sent) (· == sent) = true := by decide +kernel
/-- V43-9. -/
theorem test_listener_stop :
    nextSat (exec .txaStop { done true false false with ach := [K 5, K 5] }) (fun t =>
      t == { done true true false with ach := [K 5, K 5] }) = true := by decide +kernel
/-- V45-1. -/
theorem test_rx_accept : nextSat (exec .rxAccept sent) (fun t =>
    t == { received 1 sent with dch := [F 1, F 2], ach := [K 0] }) = true := by decide +kernel
/-- V45-5: 8 bits, not 16. -/
theorem test_rx_accept_short :
    nextSat (exec .rxAccept { received 5 (waiting 11 10) with dch := [F 5] }) (fun t =>
      t.cur.assembled.getLast? == some (natToBits 8 0x64) && t.cur.expected == 6 && t.ach == [K 5])
      = true := by decide +kernel
/-- V45-2. -/
theorem test_rx_reject_ahead : nextSat (exec .rxReject { waiting 1 1 with dch := [F 4] }) (fun t =>
    t == { waiting 1 1 with ach := [K 2] }) = true := by decide +kernel
/-- V45-4. -/
theorem test_rx_reject_sentinel : nextSat (exec .rxReject { sent with dch := [F 1] }) (fun t =>
    t.ach == [(0x1FFFF : SignedField)] && t.cur.expected == 0) = true := by decide +kernel
/-- P1, step 43. -/
theorem test_rx_eos : nextSat (exec .rxEos (done true true true)) (fun t =>
    t == { completed with log := [logged .writeDone 0] }) = true := by decide +kernel
/-- P6, step 6: 20 bits, residue 4. -/
theorem test_rx_eos_residue :
    nextSat (exec .rxEos { State.reset with
        dch := [.eos]
        cur := { expected := 2, assembled := [natToBits 16 0x4865, natToBits 4 0xC] } }) (fun t =>
      t.sink == some [0x48, 0x65] && t.log == [logged .fault 17, logged .writeDone 0] &&
      t.rcv == { rstate := .stopped, writeDone := true } && t.ach == []) = true := by decide +kernel
/-- V45-6. -/
theorem test_rx_malformed :
    nextSat (exec .rxMalformed { State.reset with dch := [.frame 0 0 (natToBits 16 0)] }) (fun t =>
      t == { State.reset with log := [logged .fault 16] }) = true := by decide +kernel
/-- R232. -/
theorem test_rx_idle : nextSat (exec .rxIdle State.reset) (· == State.reset) = true := by decide +kernel
/-- V40-1, V40-5. -/
theorem test_codec_encode :
    nextSat (exec (.codecEncode State.reset.source 32) State.reset) (fun t =>
      t.fnResult == .frames State.reset.fs) = true ∧
    nextSat (exec (.codecEncode [0xA5, 0x3C] 21) State.reset) (fun t =>
      t.fnResult == .frames
        [⟨0, natToBits 5 0x14⟩, ⟨1, natToBits 5 0x14⟩, ⟨2, natToBits 5 0x1E⟩, ⟨3, natToBits 1 0⟩])
      = true := by decide +kernel
/-- V40-4, V40-6. -/
theorem test_codec_encode_edges :
    nextSat (exec (.codecEncode [0xFF, 0x00] 17) State.reset) (fun t =>
      match t.fnResult with
      | .frames fs => fs.map Frame.payload == (List.range 16).map (fun i => [decide (i < 8)])
      | _ => false) = true ∧
    nextSat (exec (.codecEncode [0x41] 16) State.reset) (fun t =>
      t.fnResult == .raised .configFrameCapacity) = true := by decide +kernel
/-- V40-12, V40-14. -/
theorem test_codec_decode :
    nextSat (exec (.codecDecode [natToBits 5 0x14, natToBits 5 0x14, natToBits 5 0x1E, natToBits 1 0])
      State.reset) (fun t => t.fnResult == .decoded ⟨[0xA5, 0x3C], 0⟩) = true ∧
    nextSat (exec (.codecDecode [natToBits 16 0x4865, natToBits 3 6]) State.reset) (fun t =>
      t.fnResult == .decoded ⟨[0x48, 0x65], 3⟩) = true := by decide +kernel
/-- V41-1 to V41-3, V41-6. -/
theorem test_should_drop :
    [shouldDrop 3 true 4, shouldDrop 3 false 4, shouldDrop 0 true 1, shouldDrop 1 true 1,
     shouldDrop 7 true 4, shouldDrop 2 true 4] = [true, false, false, true, true, false] := by decide
/-- V42-1 to V42-5. -/
theorem test_win_range :
    windowRange 0 4 6 = [0, 1, 2, 3] ∧ windowRange 3 4 6 = [3, 4, 5] ∧ windowRange 6 4 6 = [] ∧
    windowRange 0 10 6 = [0, 1, 2, 3, 4, 5] ∧ windowRange 0 4 0 = [] := by decide
/-- V42-6, V42-7. -/
theorem test_slide_slot :
    [slideSlot 1 4 6, slideSlot 2 4 6, slideSlot 3 4 6, slideSlot 1 1 3, slideSlot 3 1 3] =
      [some 4, some 5, none, some 1, none] := by decide
/-- V42-8. -/
theorem test_xmit_withheld : nextSat (exec (.seqXmit 3) State.reset) (fun t =>
    t.win.droppedOnce == [false, false, false, true, false, false] && t.log == [logged .dropped 3] &&
    t.win.sendTimestamp == [none, none, none, some 0, none, none] && t.dch == []) = true := by
  decide +kernel
/-- V42-9. -/
theorem test_xmit_sent : nextSat (exec (.seqXmit 3) { sent with now := 12 }) (fun t =>
    t.dch == [F 0, F 1, F 2, F 3] && t.log == [logged .sent 3] &&
    t.win.sendTimestamp == [some 0, some 0, some 0, some 12, none, none]) = true := by decide +kernel
/-- V42-10. -/
theorem test_send_window : nextSat (exec .seqSendWindow State.reset) (fun t =>
    t.win == sent.win && t.dch == sent.dch && t.snd == State.reset.snd &&
    t.log == [logged .sent 0, logged .sent 1, logged .sent 2, logged .dropped 3]) = true := by
  decide +kernel
/-- V44-1. -/
theorem test_expired :
    nextSat (exec (.tmoExpired 3 10) (waiting 10 10)) (fun t => t.fnResult == .flag false) = true ∧
    nextSat (exec (.tmoExpired 3 11) (waiting 10 10)) (fun t => t.fnResult == .flag true) = true := by
  decide +kernel
/-- V44-2. -/
theorem test_arb :
    [10, 11, 12].map (fun n => nextSat (exec (.tmoArb n) (waiting 10 10)) (fun t =>
      t.fnResult == [FnResult.expiry [] false, .expiry [3] true, .expiry [3, 4, 5] true].getD (n - 10)
        .none)) = [true, true, true] := by decide +kernel
/-- R215: a negative value. -/
theorem test_log_record : nextSat (exec (.logRecord .ackIgnored 0x1FFFF) State.reset) (fun t =>
    t == { State.reset with log := [logged .ackIgnored (-1)] }) = true := by decide +kernel
/-- R100: one record per kind. -/
theorem test_log_words :
    [Instr.logSent 3, .logDropped 3, .logAckAccepted 3, .logAckIgnored 3, .logTimeout 3, .logWriteDone 0,
     .logFault 16].map (fun i => nextSat (exec i State.reset) (fun t => t.log.map LogRecord.word ==
        [match i with
         | .logSent _ => 0x00003 | .logDropped _ => 0x20003 | .logAckAccepted _ => 0x40003
         | .logAckIgnored _ => 0x60003 | .logTimeout _ => 0x80003 | .logWriteDone _ => 0xA0000
         | _ => 0xC0010])) = List.replicate 7 true := by decide +kernel
/-- P4, step 1; P6: the short frame `F1:C/4`. -/
theorem test_msg_frame :
    nextSat (exec (.msgFrame 1 16 (natToBits 16 0x6C6C)) State.reset) (fun t => t.dch == [F 1]) = true ∧
    (DataMsg.frame 1 4 (natToBits 16 0xC000)).word 16 = 0x000024C000 := by decide +kernel
/-- R95: the other fields are ignored. -/
theorem test_msg_eos : nextSat (exec (.msgEos 7 3 (natToBits 16 0xFFFF)) State.reset) (fun t =>
    t == { State.reset with dch := [.eos] }) = true := by decide +kernel
/-- V30-7 inside its `FRAME` message (V30-2). -/
theorem test_fmt_frame : nextSat (exec (.fmtFrameF 5 (natToBits 8 0x64)) State.reset) (fun t =>
    t.dch.map (DataMsg.word 16) == [0x0000A86400]) = true := by decide +kernel
/-- V30-8, V30-9. -/
theorem test_acks :
    [Instr.msgAck 0xFFFF, .msgAckNone, .msgAckUnexpected 0].map (fun i =>
      nextSat (exec i State.reset) (fun t => t.ach.map ackValue ==
        [match i with | .msgAck _ => 65535 | .msgAckNone => -1 | _ => -65536])) =
      [true, true, true] := by decide +kernel
/-- R100, R102. -/
theorem test_log_reserved : faultIs (exec (.logReserved 0) State.reset) .reservedLogKind = true := by
  decide
/-- Log 3: the table's word is the first instruction run. -/
theorem test_fetch_word :
    nextSat (step (State.reset.withFetchWord 8 0x02)) (fun t => t.dch == sent.dch && t.script == [])
      = true ∧
    nextSat (step (State.reset.withFetchWord 40 0x0000104865)) (fun t => t.dch == [F 0]) = true ∧
    refusalIs (step (State.reset.withFetchWord 8 0x0F)) (.undecodable (.unusedLabel 0x0F)) = true := by
  decide +kernel

/-! ## States that have the invariants -/

/-- The laws of the closed system, each over the slots that exist, as evaluation can check them. -/
theorem closedInv_of_bounded {s : Machine.State} (machine : MachineInv s)
    (constructed : s.cfg.cstatus = .ok) (built : s.cfg.senderBuilt = true)
    (encoded : encodeSource s.source s.cfg.frameCapacityBits = .ok s.fs)
    (cursorBelow : s.cur.expected ≤ s.cfg.totalFrames)
    (acks : ackCursor s.win.base s.ach = some s.cur.expected)
    (frames : ∀ m ∈ s.dch, m = .eos ∨ ∃ i, i < s.cfg.totalFrames ∧ m = slotMsg s i)
    (assembledPrefix : s.cur.assembled = (s.fs.take s.cur.expected).map Frame.payload)
    (firstIsSlotZero : s.cur.expected = 0 →
      s.dch.head?.all (fun m => decide (m = .eos ∨ m = slotMsg s 0)) = true)
    (noEosBefore : s.snd.eosPushed = false → .eos ∉ s.dch)
    (eosLast : s.snd.eosPushed = true → s.rcv.rstate = .accepting →
      s.dch.getLast? = some .eos ∧ .eos ∉ s.dch.dropLast)
    (afterEos : s.rcv.rstate = .stopped →
      s.dch = [] ∧ s.snd.eosPushed = true ∧ s.sink = some s.source)
    (beforeEos : s.rcv.rstate = .accepting → s.sink = none)
    (unfilled : s.snd.sstate = .filling →
      s.dch = [] ∧ s.ach = [] ∧ s.cur.expected = 0 ∧
      ∀ i, i < s.cfg.totalFrames → stampOf s i = none ∧ wasDropped s i = false)
    (stamped : s.snd.sstate ≠ .filling → ∀ i, i < s.cfg.totalFrames → s.win.base ≤ i →
      i < windowEnd s → (stampOf s i).any (fun t => decide (t ≤ s.now)) = true)
    (stampsPast : ∀ i, i < s.cfg.totalFrames → (stampOf s i).all (fun t => decide (t ≤ s.now)) = true)
    (unsent : ∀ i, i < s.cfg.totalFrames → windowEnd s ≤ i → stampOf s i = none)
    (attemptedEligible : ∀ i, i < s.cfg.totalFrames → (stampOf s i).isSome = true → i ≠ 0 →
      (i + 1) % s.cfg.dropPeriod = 0 → wasDropped s i = true)
    (stampsOrdered : ∀ i, i < s.cfg.totalFrames → s.win.base ≤ i → i + 1 < windowEnd s →
      (stampOf s i).all (fun t => (stampOf s (i + 1)).all fun u => decide (t ≤ u)) = true)
    (deliverable : s.snd.sstate ≠ .filling →
      windowEnd s ≤ dataCursor s.cur.expected s.dch ∨
        wasDropped s (dataCursor s.cur.expected s.dch) = true)
    (polled : s.snd.lastPoll ≤ s.now ∧
      (s.snd.sstate = .watching → s.now ≤ s.snd.lastPoll + s.cfg.pollTick))
    (unexpired : s.snd.sstate = .watching → ∀ i, i < s.cfg.totalFrames → s.win.base ≤ i →
      i < windowEnd s →
      (stampOf s i).all (fun t => decide (s.snd.lastPoll ≤ t + s.cfg.timeoutInterval)) = true) :
    ClosedInv s := by
  have hN : ∀ i t, stampOf s i = some t → i < s.cfg.totalFrames := by
    intro i t h
    have hl : s.win.sendTimestamp.length = s.cfg.totalFrames := machine.stores.2.1
    by_contra hge
    rw [stampOf, List.getElem?_eq_none (by omega)] at h
    cases h
  have hE : ∀ i, i < windowEnd s → i < s.cfg.totalFrames := fun i h =>
    Nat.lt_of_lt_of_le h (Nat.min_le_right _ _)
  exact {
    machine := machine, constructed := constructed, built := built, deliverable := deliverable
    encoded := encoded, cursorBelow := cursorBelow
    acks := acks, frames := frames, assembledPrefix := assembledPrefix, noEosBefore := noEosBefore
    afterEos := afterEos, beforeEos := beforeEos, unfilled := unfilled, polled := polled
    firstIsSlotZero := fun h m hm => by simpa [hm] using firstIsSlotZero h
    eosLast := fun h h' => by
      obtain ⟨h1, h2⟩ := eosLast h h'
      exact ⟨_, (List.dropLast_append_getLast? _ h1).symm, h2⟩
    stamped := fun h i h1 h2 => by
      have := stamped h i (hE i h2) h1 h2
      simpa [Option.any_eq_true] using this
    stampsPast := fun i t h => by simpa [h] using stampsPast i (hN i t h)
    unsent := fun i h => by
      cases ho : stampOf s i with
      | none => rfl
      | some t => rw [← ho]; exact unsent i (hN i t ho) h
    attemptedEligible := fun i t hi h => attemptedEligible i hi (by simp [h])
    stampsOrdered := fun i t u h1 h2 h3 h4 => by
      simpa [h3, h4] using stampsOrdered i (hE i (by omega)) h1 h2
    unexpired := fun h i t h1 h2 h3 => by simpa [h3] using unexpired h i (hE i h2) h1 h2 }

theorem reset_inv : MachineInv State.reset := by constructor <;> decide +kernel
theorem sent_inv : MachineInv sent := by constructor <;> decide +kernel
theorem waiting_inv : MachineInv (waiting 11 10) := by constructor <;> decide +kernel
theorem quiet_inv : MachineInv (waiting 10 9) := by constructor <;> decide +kernel
theorem completed_inv : MachineInv completed := by constructor <;> decide +kernel

theorem reset_closed : ClosedInv State.reset := by
  apply closedInv_of_bounded reset_inv <;> decide +kernel
theorem sent_closed : ClosedInv sent := by apply closedInv_of_bounded sent_inv <;> decide +kernel
theorem waiting_closed : ClosedInv (waiting 11 10) := by
  apply closedInv_of_bounded waiting_inv <;> decide +kernel
theorem quiet_closed : ClosedInv (waiting 10 9) := by
  apply closedInv_of_bounded quiet_inv <;> decide +kernel
/-- `E = [3]` with the window's frames in flight. -/
theorem inFlight_closed : ClosedInv { waiting 11 10 with dch := [F 3, F 4, F 5] } := by
  apply closedInv_of_bounded (by constructor <;> decide +kernel) <;> decide +kernel
theorem last_closed : ClosedInv (done true true true) := by
  apply closedInv_of_bounded (by constructor <;> decide +kernel) <;> decide +kernel
theorem completed_closed : ClosedInv completed := by
  apply closedInv_of_bounded completed_inv <;> decide +kernel

/-! ## Every statement's hypotheses are met together -/

/-- `F5`: the short last frame (V30-2). -/
theorem witness_DecodeOfEncodeIsTheInstruction :
    (Instr.msgFrame 5 8 (natToBits 16 0x6400)).wellFormed = true := by decide

theorem witness_DecodedBytesAreTheEncoding :
    (decode [0x01, 5, 0xFF]).toOption = some (.envAdvance 5, [0xFF]) := by decide

/-- Both clauses at the ends of their ranges. -/
theorem witness_UnusedLabelsAreRejected :
    (0x0F : Byte).toNat = 0x0F ∧ (0x1A ≤ (0x1A : Byte).toNat ∧ (0x1A : Byte).toNat ≤ 0x1F) ∧
    (0x1A ≤ (0x1F : Byte).toNat ∧ (0x1F : Byte).toNat ≤ 0x1F) := by decide

theorem witness_StepRunsTheDecodedInstruction :
    decode (State.reset.withFetchWord 8 0x02).script = .ok (.txFill, []) ∧
    Instr.txFill.wellFormed = true ∧
    (State.reset.withFetchWord 8 0x0F).script ≠ [] ∧
    decode (State.reset.withFetchWord 8 0x0F).script = .error (.unusedLabel 0x0F) := by decide +kernel

theorem witness_EmptyScriptRunsAnEnabledOperation : State.reset.script = [] := rfl

/-- The least legal values (V70-4's `C = 17` with 8192 bytes, V40-9): every bound at its edge. -/
theorem witness_ConstructionSetsEveryRegister :
    let l := launch 1 17 1 1 (some (List.replicate 8192 0))
    1 ≤ l.windowSize ∧ 16 < l.frameCapacityBits ∧ 1 ≤ l.dropPeriod ∧ 0 < l.timeoutInterval ∧
    l.source = some (List.replicate 8192 0) ∧
    8 * (List.replicate 8192 (0 : Byte)).length ≤ 2 ^ 16 * (l.frameCapacityBits - 16) :=
  ⟨Nat.le_refl _, by decide, by decide, by decide, rfl, by rw [List.length_replicate]; decide⟩

theorem witness_ReceiverAloneIsBuiltFromItsPayloadWidth : (1 ≤ 1) ∧ (0 = 0) := by decide

/-- V70-2. -/
theorem witness_FailedConstructionDisablesEveryOperation :
    ∃ t, exec (.sysConstruct (.pair (launch 0 32 4 10 (some [])))) State.reset = .next t ∧
      t.cfg.cstatus ≠ .ok := by
  obtain ⟨t, h, hp⟩ := exists_next (o := exec (.sysConstruct (.pair (launch 0 32 4 10 (some [])))) State.reset)
    (p := fun t => t.cfg.cstatus != .ok) (by decide +kernel)
  exact ⟨t, h, by simpa using hp⟩

/-- V44-8: the last allowed advance, and one tick more. -/
theorem witness_AdvanceMovesTheClockWithinTheLatencyContract :
    (waiting 10 9).cfg.cstatus = .ok ∧ (waiting 9 9).now + 1 ≤ (waiting 9 9).snd.lastPoll + 1 ∧
    (waiting 10 9).snd.sstate = .watching ∧
    (waiting 10 9).snd.lastPoll + (waiting 10 9).cfg.pollTick < (waiting 10 9).now + 1 := by decide

theorem witness_StreamTakesEachBytesHighBitFirst :
    (7 : Nat) < 8 ∧ ([0xA5] : List Byte)[0]? = some 0xA5 := by decide

/-- The three clauses: V40-6, V40-9's 8193 bytes, V40-9's 8192 bytes. -/
theorem witness_EncodeCutsTheStreamIntoFrames :
    (16 ≤ 16) ∧ (16 < 17 ∧ 2 ^ 16 * (17 - 16) < 8 * (List.replicate 8193 (0 : Byte)).length) ∧
    (16 < 17 ∧ 8 * (List.replicate 8192 (0 : Byte)).length ≤ 2 ^ 16 * (17 - 16)) := by
  rw [List.length_replicate, List.length_replicate]
  decide

theorem witness_FramesAreFullButTheLast :
    encodeSource State.reset.source 32 = .ok State.reset.fs ∧ (State.reset.fs[5]?).isSome = true := by
  decide +kernel

theorem witness_DecodeOfEncodedFramesIsTheSource :
    ∃ t, exec (.codecEncode State.reset.source 32) State.reset = .next t ∧
      t.fnResult = .frames State.reset.fs := by
  obtain ⟨t, h, hp⟩ := exists_next (o := exec (.codecEncode State.reset.source 32) State.reset)
    (p := fun t => t.fnResult == .frames State.reset.fs) (by decide +kernel)
  exact ⟨t, h, by simpa using hp⟩

theorem witness_DropRuleOfTheLossSimulator : (1 ≤ 1) ∧ (0 = 0) := by decide

theorem witness_WindowIsClippedAndSlidesByOne : (1 ≤ 1) ∧ ((5 : Nat) < 6) := by decide

/-- The withheld slot of V42-8, its retransmission of V42-9, slot 0, and both edges of the window. -/
theorem witness_XmitAttemptsOneSlot :
    (State.reset.cfg.cstatus = .ok ∧ 1 ≤ State.reset.cfg.dropPeriod ∧ Memory.wf State.reset ∧
      State.reset.win.base ≤ 3 ∧ 3 < windowEnd State.reset ∧ (3 + 1) % State.reset.cfg.dropPeriod = 0 ∧
      wasDropped State.reset 3 = false ∧ (0 < windowEnd State.reset)) ∧
    (Memory.wf sent ∧ sent.win.base ≤ 3 ∧ 3 < windowEnd sent ∧ wasDropped sent 3 = true) ∧
    windowEnd sent ≤ 4 ∧ 2 < (waiting 10 9).win.base := by decide +kernel

theorem witness_SendWindowAttemptsTheWholeWindow :
    MachineInv State.reset ∧ State.reset.cfg.cstatus = .ok := ⟨reset_inv, rfl⟩

/-- The four clauses: the stamp's own time, `NONE` (slot 4 is unsent), a stamp ahead, no such slot. -/
theorem witness_ExpiredComparesStrictly :
    sent.cfg.cstatus = .ok ∧ stampOf (waiting 10 9) 4 = some 1 ∧ (1 ≤ 1) ∧
    (4 < sent.win.sendTimestamp.length ∧ stampOf sent 4 = none) ∧ (0 < 1) ∧
    sent.win.sendTimestamp.length ≤ 6 := by decide +kernel

/-- V44-2, at the latest stamp's own time. -/
theorem witness_ArbiterListsTheExpiredSlots :
    (waiting 10 9).cfg.cstatus = .ok ∧ ∀ i, (waiting 10 9).win.base ≤ i → i < windowEnd (waiting 10 9) →
      ∃ ts, stampOf (waiting 10 9) i = some ts ∧ ts ≤ 1 := by
  refine ⟨rfl, fun i h1 h2 => ?_⟩
  have h1 : 3 ≤ i := h1
  have h2 : i < 6 := h2
  obtain rfl | rfl | rfl : i = 3 ∨ i = 4 ∨ i = 5 := by omega
  · exact ⟨0, by decide +kernel, by decide⟩
  · exact ⟨1, by decide +kernel, by decide⟩
  · exact ⟨1, by decide +kernel, by decide⟩

theorem witness_FillTransmitsTheFirstWindow :
    MachineInv State.reset ∧ State.reset.cfg.cstatus = .ok ∧ State.reset.cfg.senderBuilt = true ∧
    State.reset.snd.sstate = .filling := ⟨reset_inv, rfl, rfl, rfl⟩

/-- V44-5 (nothing expired) and V44-3. -/
theorem witness_PollRetransmitsTheWindowOnExpiry :
    (MachineInv (waiting 10 9) ∧ (waiting 10 9).cfg.cstatus = .ok ∧
      (waiting 10 9).cfg.senderBuilt = true ∧ (waiting 10 9).snd.sstate = .watching ∧
      WindowStamped (waiting 10 9) ∧
      expiredSlots (waiting 10 9).now (waiting 10 9) = []) ∧
    (MachineInv (waiting 11 10) ∧ WindowStamped (waiting 11 10) ∧
      expiredSlots (waiting 11 10).now (waiting 11 10) ≠ []) :=
  ⟨⟨quiet_inv, rfl, rfl, rfl, quiet_closed.stamped (by decide), by decide +kernel⟩,
    waiting_inv, waiting_closed.stamped (by decide), by decide +kernel⟩

/-- V43-2 (a slot is exposed) and, at the edge, V43-3's `base + W = N`. -/
theorem witness_AcceptedAckSlidesTheWindowByOne :
    (MachineInv { sent with ach := [K 0] } ∧ sent.cfg.cstatus = .ok ∧
      sent.cfg.senderBuilt = true ∧ sent.snd.sstate = .watching ∧
      sent.snd.listenerStopped = false ∧ ackValue (K 0) = sent.win.base ∧
      sent.win.base + sent.cfg.windowSize < sent.cfg.totalFrames) ∧
    (MachineInv { waiting 10 9 with ach := [K 3] } ∧ ackValue (K 3) = (waiting 10 9).win.base ∧
      (waiting 10 9).cfg.totalFrames ≤ (waiting 10 9).win.base + (waiting 10 9).cfg.windowSize) :=
  ⟨⟨by constructor <;> decide +kernel, rfl, rfl, rfl, rfl, by decide, by decide⟩,
    by constructor <;> decide +kernel, by decide, by decide⟩

/-- The sentinel (V43-5). -/
theorem witness_IgnoredAckIsOnlyLogged :
    sent.cfg.cstatus = .ok ∧ sent.cfg.senderBuilt = true ∧ sent.snd.sstate ≠ .done ∧
    sent.snd.listenerStopped = false ∧ (K (-1)).toInt ≠ sent.win.base := by decide

/-- V43-8, V43-9, V43-11. -/
theorem witness_TerminationSetsOneFlagAtATime :
    (done false false false).cfg.cstatus = .ok ∧ (done false false false).cfg.senderBuilt = true ∧
    ((done false false false).snd.sstate = .done ∧ (done false false false).snd.eosPushed = false) ∧
    ((done true false false).snd.sstate = .done ∧ (done true false false).snd.listenerStopped = false) ∧
    ((done true true false).snd.eosPushed = true ∧ (done true true false).snd.listenerStopped = true ∧
      (done true true false).snd.senderComplete = false) := by decide

theorem witness_IdleOperationsChangeNothing :
    sent.cfg.cstatus = .ok ∧
    (sent.cfg.senderBuilt = true ∧ sent.snd.listenerStopped = false ∧ sent.snd.sstate ≠ .done ∧ sent.ach = []) ∧
    (State.reset.rcv.rstate = .accepting ∧ State.reset.dch = []) := by decide

/-- V45-1: `plen = L`, the bound itself. -/
theorem witness_AcceptedFrameIsAppendedAndAcked :
    sent.cfg.cstatus = .ok ∧ sent.rcv.rstate = .accepting ∧
    sent.dch = .frame 0 16 (natToBits 16 0x4865) :: [F 1, F 2] ∧ 1 ≤ 16 ∧
    16 ≤ sent.cfg.frameCapacityBits - 16 ∧ (0 : SeqField).toNat = sent.cur.expected := by decide +kernel

/-- V45-2 (`expected = 3`) and V45-4 (`expected = 0`), `plen = 1`. -/
theorem witness_RejectedFrameRepeatsTheLastAck :
    (State.reset.cfg.cstatus = .ok ∧ State.reset.rcv.rstate = .accepting ∧
      { State.reset with dch := [.frame 1 1 (natToBits 16 0x8000)] }.dch =
        .frame 1 1 (natToBits 16 0x8000) :: [] ∧
      1 ≤ 1 ∧ 1 ≤ State.reset.cfg.frameCapacityBits - 16 ∧
      (1 : SeqField).toNat ≠ State.reset.cur.expected ∧ State.reset.cur.expected ≤ 2 ^ 16) ∧
    ((4 : SeqField).toNat ≠ (waiting 10 9).cur.expected ∧ (waiting 10 9).cur.expected ≤ 2 ^ 16) := by
  decide +kernel

theorem witness_EndOfStreamFlushesTheSink :
    (done true true true).cfg.cstatus = .ok ∧ (done true true true).rcv.rstate = .accepting ∧
    (done true true true).dch = .eos :: [] := by decide

/-- V30-11: `plen = 0` and `plen = 17`. -/
theorem witness_MalformedFrameIsOnlyLogged :
    State.reset.cfg.cstatus = .ok ∧ State.reset.rcv.rstate = .accepting ∧
    { State.reset with dch := [.frame 0 17 (natToBits 16 0)] }.dch =
      .frame 0 17 (natToBits 16 0) :: [] ∧ (0 = 0) ∧
    State.reset.cfg.frameCapacityBits - 16 < 17 := by decide +kernel

/-- The channel's width, one bit less, one bit more. -/
theorem witness_MessageWordsJoinTheirChannels :
    State.reset.cfg.cstatus = .ok ∧ (natToBits 16 0).length = State.reset.cfg.frameCapacityBits - 16 ∧
    (natToBits 15 0).length ≠ State.reset.cfg.frameCapacityBits - 16 ∧
    (natToBits 15 0).length ≤ State.reset.cfg.frameCapacityBits - 16 ∧
    State.reset.cfg.frameCapacityBits - 16 < (natToBits 17 0).length := by decide

theorem witness_LogWordsAppendOneRecord : State.reset.cfg.cstatus = .ok := rfl

theorem witness_EachAgentHasAtMostOneOperation :
    MachineInv sent ∧ sent.cfg.cstatus = .ok := ⟨sent_inv, rfl⟩

/-- V44-7: the poll before the fill. -/
theorem witness_DisabledOperationsChangeNothing :
    Instr.txPoll ∈ senderOps ++ receiverEngineOps ∧ State.reset.cfg.cstatus = .ok ∧
    Instr.txPoll ∉ enabledOps State.reset := by decide +kernel

theorem witness_NeitherEngineReadsOrWritesTheOther :
    Instr.rxAccept ∈ receiverEngineOps ∧ Instr.txPoll ∈ senderOps := by decide

/-- The fill at reset: it sends, logs, stamps and changes the sender's state. -/
theorem witness_frames_of_one_step :
    (∃ t, exec .txFill State.reset = .next t ∧ stampOf t 0 ≠ stampOf State.reset 0) ∧
    (∀ l, Instr.txFill ≠ .sysConstruct l) := by
  refine ⟨?_, by intro l h; cases h⟩
  obtain ⟨t, h, hp⟩ := exists_next (o := exec .txFill State.reset)
    (p := fun t => stampOf t 0 == some 0) (by decide +kernel)
  exact ⟨t, h, by rw [beq_iff_eq.mp hp]; decide +kernel⟩

theorem witness_ConfigurationStoresAndClockAreReadOnly :
    ∃ t, exec (.envAdvance 1) State.reset = .next t ∧ ∀ l, Instr.envAdvance 1 ≠ .sysConstruct l := by
  obtain ⟨t, h, -⟩ := exists_next (o := exec (.envAdvance 1) State.reset) (p := fun t => t.now == 1)
    (by decide +kernel)
  exact ⟨t, h, by intro l h; cases h⟩

theorem witness_LogIsAppendOnly :
    ∃ t, exec .txFill State.reset = .next t ∧ ∀ l, Instr.txFill ≠ .sysConstruct l := by
  obtain ⟨⟨t, h, -⟩, hc⟩ := witness_frames_of_one_step
  exact ⟨t, h, hc⟩

/-- An accepted frame leaves `DCH` and an ack joins `ACH`. -/
theorem witness_ChannelsAreFirstInFirstOut :
    ∃ t, exec .rxAccept sent = .next t ∧ ∀ l, Instr.rxAccept ≠ .sysConstruct l := by
  obtain ⟨t, h, -⟩ := exists_next (o := exec .rxAccept sent) (p := fun t => t.ach == [K 0])
    (by decide +kernel)
  exact ⟨t, h, by intro l h; cases h⟩

/-- The enabled ack, and one whose guard does not hold. -/
theorem witness_BaseMovesOnlyByAnAcceptedAck :
    (∃ t, exec .txaAckAccept { sent with ach := [K 0] } = .next t ∧
      (∀ l, Instr.txaAckAccept ≠ .sysConstruct l) ∧
      Instr.txaAckAccept ∈ enabledOps { sent with ach := [K 0] }) ∧
    (∃ t, exec .txaAckAccept sent = .next t) ∧ Instr.txaAckAccept ∉ enabledOps sent := by
  obtain ⟨t, h, -⟩ := exists_next (o := exec .txaAckAccept { sent with ach := [K 0] })
    (p := fun t => t.win.base == 1) (by decide +kernel)
  obtain ⟨u, h', -⟩ := exists_next (o := exec .txaAckAccept sent) (p := (· == sent)) (by decide +kernel)
  exact ⟨⟨t, h, by (intro l h; cases h), by decide +kernel⟩, ⟨u, h'⟩, by decide +kernel⟩

theorem witness_AssembledLengthIsExpected :
    sent.cur.assembled.length = sent.cur.expected ∧ Instr.rxAccept ∈ enabledOps sent ∧
    (∃ t, exec .rxAccept sent = .next t) ∧
    ∃ t, exec (.sysConstruct (.pair Config.resetLaunch)) State.reset = .next t ∧ t.cfg.cstatus = .ok := by
  obtain ⟨t, h, -⟩ := witness_ChannelsAreFirstInFirstOut
  obtain ⟨u, h', hp⟩ := exists_next test_reset_is_the_launch
  exact ⟨by decide, by decide +kernel, ⟨t, h⟩, u, h', by rw [of_decide_eq_true hp]; rfl⟩

/-- The fill, and an ack that ends in `Done` (R228). -/
theorem witness_SenderStateFollowsItsGraph :
    (MachineInv State.reset ∧ (State.reset.snd.sstate = .filling → State.reset.ach = []) ∧
      ∃ t, exec .txFill State.reset = .next t) ∧
    (∃ t, exec .txaAckAccept { watching 5 [some 0, some 0, some 0, some 11, some 11, some 11]
        [false, false, false, true, false, false] 11 11 with ach := [K 5] } = .next t ∧
      t.snd.sstate = .done) := by
  refine ⟨⟨reset_inv, fun _ => rfl, ?_⟩, ?_⟩
  · obtain ⟨t, h, -⟩ := witness_LogIsAppendOnly
    exact ⟨t, h⟩
  · obtain ⟨t, h, hp⟩ := exists_next (o := exec .txaAckAccept
      { watching 5 [some 0, some 0, some 0, some 11, some 11, some 11]
        [false, false, false, true, false, false] 11 11 with ach := [K 5] })
      (p := fun t => t.snd.sstate == .done) (by decide +kernel)
    exact ⟨t, h, by simpa using hp⟩

theorem witness_ReceiverStopsOnceAtEndOfStream :
    (∃ t, exec .rxEos (done true true true) = .next t ∧ ∀ l, Instr.rxEos ≠ .sysConstruct l) ∧
    Instr.rxEos ∈ enabledOps (done true true true) ∧ completed.rcv.rstate = .stopped := by
  refine ⟨?_, by decide +kernel, rfl⟩
  obtain ⟨t, h, -⟩ := exists_next (o := exec .rxEos (done true true true))
    (p := fun t => t.rcv.writeDone) (by decide +kernel)
  exact ⟨t, h, by intro l h; cases h⟩

/-- The fill withholds slot 3; the poll of V44-3 attempts it again. -/
theorem witness_SlotIsWithheldAtMostOnce :
    (MachineInv State.reset ∧ Instr.txFill ∈ senderOps ++ receiverEngineOps ∧
      ∃ t, exec .txFill State.reset = .next t) ∧
    (MachineInv (waiting 11 10) ∧ wasDropped (waiting 11 10) 3 = true ∧
      ∃ t, exec .txPoll (waiting 11 10) = .next t) := by
  refine ⟨⟨reset_inv, by decide, ?_⟩, waiting_inv, by decide +kernel, ?_⟩
  · obtain ⟨t, h, -⟩ := witness_LogIsAppendOnly
    exact ⟨t, h⟩
  · obtain ⟨t, h, -⟩ := exists_next test_poll_expired
    exact ⟨t, h⟩

theorem witness_OnlyTheActiveWindowIsStamped :
    MachineInv State.reset ∧
    (∃ t, exec .txFill State.reset = .next t ∧ stampOf t 0 ≠ stampOf State.reset 0) ∧
    (∀ l, Instr.txFill ≠ .sysConstruct l) := ⟨reset_inv, witness_frames_of_one_step⟩

/-- A step from the script. -/
theorem witness_EveryStepKeepsTheMachineInvariant :
    MachineInv (State.reset.withFetchWord 8 0x02) ∧
    ∃ t, step (State.reset.withFetchWord 8 0x02) = .next t := by
  refine ⟨by constructor <;> decide +kernel, ?_⟩
  obtain ⟨t, h, -⟩ := exists_next test_fetch_word.1
  exact ⟨t, h⟩

theorem witness_ConstructionStartsTheClosedSystem :
    ∃ t, exec (.sysConstruct (.pair Config.resetLaunch)) State.reset = .next t ∧ t.cfg.cstatus = .ok := by
  obtain ⟨t, h, hp⟩ := exists_next test_reset_is_the_launch
  exact ⟨t, h, by rw [of_decide_eq_true hp]; rfl⟩

/-- An enabled operation, and an advance; an empty script. -/
theorem witness_EveryScheduleKeepsTheClosedLaws :
    (ClosedInv sent ∧ Instr.rxAccept ∈ choices 1 sent ∧ Instr.envAdvance 1 ∈ choices 1 sent) ∧
    ClosedInv State.reset ∧ State.reset.script = [] :=
  ⟨⟨sent_closed, by decide +kernel, by decide +kernel⟩, reset_closed, rfl⟩

/-- V44-3. -/
theorem witness_RetransmissionsAreAlwaysDelivered :
    ClosedInv (waiting 11 10) ∧ (∃ t, exec .txPoll (waiting 11 10) = .next t) ∧
    expiredSlots (waiting 11 10).now (waiting 11 10) ≠ [] :=
  ⟨waiting_closed, by obtain ⟨t, h, -⟩ := exists_next test_poll_expired; exact ⟨t, h⟩,
    by decide +kernel⟩

/-- `E = [3]`, a proper prefix of the window, at `now = 11`. -/
theorem witness_WindowTimesOutWithItsBase :
    ClosedInv (waiting 11 10) ∧ (waiting 11 10).snd.sstate = .watching ∧
    5 ∈ activeWindow (waiting 11 10) ∧ stampOf (waiting 11 10) (waiting 11 10).win.base = some 0 ∧
    stampOf (waiting 11 10) 5 = some 1 ∧ (waiting 11 10).now ≤ 11 ∧
    expiredSlots 11 (waiting 11 10) = [3] :=
  ⟨waiting_closed, rfl, by decide, by decide +kernel, by decide +kernel, by decide, by decide +kernel⟩

/-- Slot 3 of V44-3, one tick past its interval, and slot 4, exactly at it. -/
theorem witness_TimeoutFiresWithinOnePollTick :
    ClosedInv (waiting 11 10) ∧ (∃ t, exec .txPoll (waiting 11 10) = .next t) ∧
    (3 ∈ activeWindow (waiting 11 10) ∧ stampOf (waiting 11 10) 3 = some 0 ∧
      0 + (waiting 11 10).cfg.timeoutInterval < (waiting 11 10).now) ∧
    (4 ∈ activeWindow (waiting 11 10) ∧ stampOf (waiting 11 10) 4 = some 1 ∧
      ¬1 + (waiting 11 10).cfg.timeoutInterval < (waiting 11 10).now) :=
  ⟨waiting_closed, by obtain ⟨t, h, -⟩ := exists_next test_poll_expired; exact ⟨t, h⟩,
    ⟨by decide, by decide +kernel, by decide⟩, by decide, by decide +kernel, by decide⟩

theorem witness_UnacknowledgedSlotsAreTheWindow : ClosedInv sent ∧ sent.snd.sstate ≠ .filling :=
  ⟨sent_closed, by decide⟩

/-- The end state of P1. -/
theorem witness_CompletionDeliversTheSource : ClosedInv completed ∧ Completed completed :=
  ⟨completed_closed, rfl, rfl⟩

/-- Both disjuncts: an enabled operation after the fill; both channels empty in V44-5, late enough at
`n = 11`. -/
theorem witness_ClosedSystemHasNoDeadlock :
    (ClosedInv sent ∧ ¬Completed sent) ∧
    (ClosedInv (waiting 10 9) ∧ ¬Completed (waiting 10 9) ∧
      stampOf (waiting 10 9) (waiting 10 9).win.base = some 0 ∧
      0 + (waiting 10 9).cfg.timeoutInterval < 11 ∧ (waiting 10 9).now ≤ 11) :=
  ⟨⟨sent_closed, fun h => absurd h.1 (by decide)⟩, quiet_closed, fun h => absurd h.1 (by decide),
    by decide +kernel, by decide, by decide⟩

/-! A run whose first step is the one of interest, and in which the clock is then advanced by 0. -/

def oneStepRun (s t : Machine.State) : Nat → Machine.State
  | 0 => s
  | _ + 1 => t

def oneStepOps (i : Instr) : Nat → Instr
  | 0 => i
  | _ + 1 => .envAdvance 0

theorem oneStepRun_isRun {s t : Machine.State} {i : Instr} (hi : i ∈ enabledOps s)
    (h : exec i s = .next t) (up : t.cfg.cstatus = .ok) :
    IsRun (oneStepRun s t) (oneStepOps i)
  | 0 => ⟨.inl hi, h⟩
  | _ + 1 => by
    refine ⟨.inr ⟨0, rfl, rfl⟩, ?_⟩
    change runOperation (envAdvanceEnabled 0) (advanceClock 0) t = _
    rw [Laws.runOperation_enabled up rfl]
    rfl

/-- The run that reads the `EOS`, and in whose end state nothing is enabled. -/
theorem witness_EveryFairRunCompletesTheTransfer :
    ∃ (states : Nat → Machine.State) (ops : Nat → Instr), IsRun states ops ∧ Fair states ops ∧
      ClosedInv (states 0) ∧ ¬Completed (states 0) := by
  obtain ⟨t, h, hp⟩ := exists_next (o := exec .rxEos (done true true true))
    (p := fun t => t.cfg.cstatus == .ok && t.snd.sstate == .done && enabledOps t == []) (by decide +kernel)
  simp only [Bool.and_eq_true, beq_iff_eq] at hp
  obtain ⟨⟨up, hd⟩, hno⟩ := hp
  refine ⟨_, _, oneStepRun_isRun (by decide +kernel) h up, ⟨fun a i n ha => ?_, fun n b hw => ?_⟩,
    last_closed, fun hc => ?_⟩
  · have hi : i ∈ agentOps a t := ha (n + 1) (by omega)
    have : i ∈ enabledOps t := by
      cases a <;> simp [enabledOps, hi]
    rw [hno] at this
    cases this
  · have hs : t.snd.sstate = .watching := hw (n + 1) (by omega)
    rw [hd] at hs
    cases hs
  · have hw : (done true true true).rcv.writeDone = true := hc.2
    exact absurd hw (by decide)

/-- V44-3, where slot 3 is lost; and the same poll with the window's frames still in flight. -/
theorem witness_LossCausesBoundedRetransmissions :
    (∃ states ops, IsRun states ops ∧ ClosedInv (states 0) ∧
      retransmits (states 0) (ops 0) = true ∧ slotLost (states 0) = true) ∧
    (∃ states ops, IsRun states ops ∧ ClosedInv (states 0) ∧
      retransmits (states 0) (ops 0) = true ∧ slotLost (states 0) = false) := by
  constructor
  · obtain ⟨t, h, hp⟩ := exists_next (o := exec .txPoll (waiting 11 10))
      (p := fun t => t.cfg.cstatus == .ok) (by decide +kernel)
    exact ⟨_, _, oneStepRun_isRun (by decide +kernel) h (by simpa using hp), waiting_closed,
      (by decide +kernel : retransmits (waiting 11 10) .txPoll = true),
      (by decide +kernel : slotLost (waiting 11 10) = true)⟩
  · obtain ⟨t, h, hp⟩ := exists_next (o := exec .txPoll { waiting 11 10 with dch := [F 3, F 4, F 5] })
      (p := fun t => t.cfg.cstatus == .ok) (by decide +kernel)
    exact ⟨_, _, oneStepRun_isRun (by decide +kernel) h (by simpa using hp), inFlight_closed,
      (by decide +kernel : retransmits { waiting 11 10 with dch := [F 3, F 4, F 5] } .txPoll = true),
      (by decide +kernel : slotLost { waiting 11 10 with dch := [F 3, F 4, F 5] } = false)⟩

theorem witness_SomeScheduleCompletesTheTransfer :
    ClosedInv State.reset ∧ 0 < State.reset.cfg.pollTick := ⟨reset_closed, by decide⟩

end Sys2Proof.Tests
end

/-! SUPPORT. The state's laws (spec 10): what a construction leaves, what every instruction keeps, and
the machine's invariant, kept by every step. -/

namespace Sys2Proof.Proofs

open Sys2Proof.Machine Sys2Proof.Laws

/-! ### Construction -/

/-- A launch that passes every check of R261 sets every register (R280). -/
theorem construct_of_legal {l : Launch} {source : List Byte} {frames : List Frame} (s : Machine.State)
    (hw : 1 ≤ l.windowSize) (hp : 1 ≤ l.dropPeriod) (ht : 0 < l.timeoutInterval)
    (hs : l.source = some source) (he : encodeSource source l.frameCapacityBits = .ok frames) :
    construct l s = s.constructed l source frames := by
  have hc : ¬l.frameCapacityBits ≤ Config.seqWidth := Nat.not_le.mpr (encodeSource_eq_ok.mp he).1
  unfold construct
  rw [if_neg (Nat.not_lt.mpr hw), if_neg hc, if_neg (Int.not_lt.mpr hp), if_neg (Int.not_le.mpr ht), hs]
  simp only [he]

/-- What a construction of either form leaves: blanks under a fault's code, every register set from a
legal launch, or a receiver alone (R246, R280, R283). -/
theorem construction_cases {c : Construction} {s t : Machine.State}
    (h : exec (.sysConstruct c) s = .next t) :
    (∃ f, f ≠ .ok ∧ t = s.failConstruction f) ∨
    (∃ l source frames, 1 ≤ l.windowSize ∧ 1 ≤ l.dropPeriod ∧ 0 < l.timeoutInterval ∧
      encodeSource source l.frameCapacityBits = .ok frames ∧ t = s.constructed l source frames) ∨
    ∃ n, 1 ≤ n ∧ t = s.constructedAlone n := by
  cases c with
  | pair l =>
    cases h
    obtain ⟨f, hf, ht⟩ | ⟨source, frames, -, hw, hp, hi, he, ht⟩ := construct_cases l s
    · exact .inl ⟨f, hf, ht⟩
    · exact .inr (.inl ⟨l, source, frames, hw, hp, hi, he, ht⟩)
  | receiverAlone n =>
    cases h
    obtain ⟨-, ht⟩ | ⟨hn, ht⟩ := constructAlone_cases n s
    · exact .inl ⟨.configFrameCapacity, by decide, ht⟩
    · exact .inr (.inr ⟨n, hn, ht⟩)

/-- Whatever its outcome, a construction leaves the receiver expecting slot 0 (R49, R246, R283). -/
theorem construction_cur {c : Construction} {s t : Machine.State}
    (h : exec (.sysConstruct c) s = .next t) : t.cur = { expected := 0, assembled := [] } := by
  obtain ⟨_, _, rfl⟩ | ⟨_, _, _, _, _, _, _, rfl⟩ | ⟨_, _, rfl⟩ := construction_cases h
  · rfl
  · rfl
  · rfl

@[simp] theorem stampOf_constructed (l : Launch) (source : List Byte) (frames : List Frame)
    (s : Machine.State) (i : Nat) : stampOf (s.constructed l source frames) i = none := by
  simp only [stampOf, State.constructed, List.getElem?_replicate]
  split <;> rfl

@[simp] theorem wasDropped_constructed (l : Launch) (source : List Byte) (frames : List Frame)
    (s : Machine.State) (i : Nat) : wasDropped (s.constructed l source frames) i = false := by
  simp only [wasDropped, State.constructed, List.getElem?_replicate]
  split <;> rfl

theorem machineInv_failConstruction {f : FaultCode} (hf : f ≠ .ok) (s : Machine.State) :
    MachineInv (s.failConstruction f) where
  stores := failConstruction_wf f s
  config := fun h => absurd h hf
  senderConfig := nofun
  alone := fun _ => rfl
  baseBound := Nat.le_refl 0
  ackedBelowBase := nofun
  droppedEligible := nofun
  doneIff := ⟨nofun, fun h => absurd rfl h.1⟩
  resting := ⟨nofun, nofun⟩
  flags := ⟨nofun, nofun, nofun⟩
  cursor := rfl
  cursorBound := Nat.zero_le _
  payloadBounds := nofun
  writeDoneIff := ⟨nofun, nofun⟩
  fieldWidths := nofun

theorem machineInv_constructedAlone {n : Nat} (hn : 1 ≤ n) (s : Machine.State) :
    MachineInv (s.constructedAlone n) where
  stores := by simp [Memory.wf, State.constructedAlone]
  config := fun _ => by change 16 < n + 16; omega
  senderConfig := nofun
  alone := fun _ => rfl
  baseBound := Nat.le_refl 0
  ackedBelowBase := nofun
  droppedEligible := nofun
  doneIff := ⟨nofun, fun h => absurd rfl h.1⟩
  resting := ⟨nofun, nofun⟩
  flags := ⟨nofun, nofun, nofun⟩
  cursor := rfl
  cursorBound := Nat.zero_le _
  payloadBounds := nofun
  writeDoneIff := ⟨nofun, nofun⟩
  fieldWidths := nofun

theorem machineInv_constructed {l : Launch} {source : List Byte} {frames : List Frame}
    (hw : 1 ≤ l.windowSize) (hp : 1 ≤ l.dropPeriod) (ht : 0 < l.timeoutInterval)
    (he : encodeSource source l.frameCapacityBits = .ok frames) (s : Machine.State) :
    MachineInv (s.constructed l source frames) where
  stores := constructed_wf s he
  config := fun _ => (encodeSource_eq_ok.mp he).1
  senderConfig := fun _ => by
    change 1 ≤ l.windowSize ∧ 1 ≤ l.dropPeriod.toNat ∧ 1 ≤ l.timeoutInterval.toNat
    omega
  alone := nofun
  baseBound := Nat.zero_le _
  ackedBelowBase := fun i hi => by
    change (List.replicate frames.length false)[i]? = some (decide (i < 0))
    exact List.getElem?_replicate_of_lt hi
  droppedEligible := fun i _ hd => by simp at hd
  doneIff := ⟨nofun, fun h => absurd rfl h.1⟩
  resting := ⟨nofun, nofun⟩
  flags := ⟨nofun, nofun, nofun⟩
  cursor := rfl
  cursorBound := Nat.zero_le _
  payloadBounds := nofun
  writeDoneIff := ⟨nofun, nofun⟩
  fieldWidths := nofun

theorem closedInv_constructed {l : Launch} {source : List Byte} {frames : List Frame}
    (hw : 1 ≤ l.windowSize) (hp : 1 ≤ l.dropPeriod) (ht : 0 < l.timeoutInterval)
    (he : encodeSource source l.frameCapacityBits = .ok frames) (s : Machine.State) :
    ClosedInv (s.constructed l source frames) where
  machine := machineInv_constructed hw hp ht he s
  constructed := rfl
  built := rfl
  encoded := he
  cursorBelow := Nat.zero_le _
  acks := rfl
  frames := nofun
  assembledPrefix := rfl
  firstIsSlotZero := fun _ => nofun
  noEosBefore := fun _ => nofun
  eosLast := nofun
  afterEos := nofun
  beforeEos := fun _ => rfl
  unfilled := fun _ => ⟨rfl, rfl, rfl, fun i _ => ⟨stampOf_constructed .., wasDropped_constructed ..⟩⟩
  stamped := fun h => absurd rfl h
  stampsPast := fun i t h => by simp at h
  unsent := fun i _ => stampOf_constructed ..
  attemptedEligible := fun i t _ h => by simp at h
  stampsOrdered := fun i t u _ _ h => by simp at h
  deliverable := fun h => absurd rfl h
  polled := ⟨Nat.le_refl _, nofun⟩
  unexpired := nofun

/-- Every construction, legal or not, of a pair or of a receiver alone, leaves the machine's invariant. -/
theorem machineInv_construction {c : Construction} {s t : Machine.State}
    (h : exec (.sysConstruct c) s = .next t) : MachineInv t := by
  obtain ⟨f, hf, rfl⟩ | ⟨l, source, frames, hw, hp, ht, he, rfl⟩ | ⟨n, hn, rfl⟩ := construction_cases h
  · exact machineInv_failConstruction hf s
  · exact machineInv_constructed hw hp ht he s
  · exact machineInv_constructedAlone hn s

/-! ### The agents' operations -/

/-- An operation of R108 is enabled where the engines exist and its guard holds (R109). -/
theorem mem_enabledOps {i : Instr} {s : Machine.State} (hi : i ∈ senderOps ++ receiverEngineOps) :
    i ∈ enabledOps s ↔ s.cfg.cstatus = .ok ∧ guardOf i s = true := by
  by_cases up : s.cfg.cstatus = .ok
  · rw [enabledOps_up up]
    simp only [senderOps, receiverEngineOps, List.cons_append, List.nil_append, List.mem_cons,
      List.not_mem_nil, or_false] at hi
    rcases hi with rfl | rfl | rfl | rfl | rfl | rfl | rfl | rfl | rfl | rfl | rfl | rfl | rfl <;>
      simp [mainOps, listenerOps, receiverOps, mem_offer, guardOf, up]
  · simp [enabledOps_down up, up]

/-- An operation of R108 acts only where its guard holds (R227). -/
theorem exec_eq_runOperation {i : Instr} (hi : i ∈ senderOps ++ receiverEngineOps) :
    ∃ effect, ∀ s, exec i s = runOperation (guardOf i) effect s := by
  simp only [senderOps, receiverEngineOps, List.cons_append, List.nil_append, List.mem_cons,
    List.not_mem_nil, or_false] at hi
  rcases hi with rfl | rfl | rfl | rfl | rfl | rfl | rfl | rfl | rfl | rfl | rfl | rfl | rfl <;>
    exact ⟨_, fun _ => rfl⟩

/-- Without the engines every operation of R108 stops (R38, R256). -/
theorem exec_operation_down {i : Instr} {s : Machine.State} (hi : i ∈ senderOps ++ receiverEngineOps)
    (h : s.cfg.cstatus ≠ .ok) : exec i s = .fault .engineNotConstructed := by
  obtain ⟨effect, he⟩ := exec_eq_runOperation hi
  rw [he, runOperation_down h]

/-! ### What every instruction but a construction leaves alone -/

section
variable {now : Nat} {s u : Machine.State} (h : sendWindow now s = .ok u)
include h

theorem sendWindow_cfg : u.cfg = s.cfg := by rw [sendSlots_frame h]

theorem sendWindow_fs : u.fs = s.fs := by rw [sendSlots_frame h]

theorem sendWindow_source : u.source = s.source := by rw [sendSlots_frame h]

theorem sendWindow_now : u.now = s.now := by rw [sendSlots_frame h]

theorem sendWindow_cur : u.cur = s.cur := by rw [sendSlots_frame h]

end

/-- The configuration, the frame store and the source are read only (R37, R45, R132). -/
theorem effect_readOnly {i : Instr} {s t : Machine.State} (h : Effect s i t)
    (hc : ∀ c, i ≠ .sysConstruct c) : t.cfg = s.cfg ∧ t.fs = s.fs ∧ t.source = s.source := by
  cases h with
  | construct l => exact absurd rfl (hc _)
  | constructAlone n => exact absurd rfl (hc _)
  | fill _ _ _ u sent => simp [sendWindow_cfg sent, sendWindow_fs sent, sendWindow_source sent]
  | retransmit _ _ _ _ _ _ u sent =>
    simp [sendWindow_cfg sent, sendWindow_fs sent, sendWindow_source sent]
  | window _ u sent => exact ⟨sendWindow_cfg sent, sendWindow_fs sent, sendWindow_source sent⟩
  | _ => exact ⟨rfl, rfl, rfl⟩

/-- Only an advance moves the clock (R226). -/
theorem effect_now {i : Instr} {s t : Machine.State} (h : Effect s i t)
    (hc : ∀ c, i ≠ .sysConstruct c) :
    t.now = s.now ∨ ∃ d, i = .envAdvance d ∧ t.now = s.now + d := by
  cases h with
  | construct l => exact absurd rfl (hc _)
  | constructAlone n => exact absurd rfl (hc _)
  | advance d => exact .inr ⟨d, rfl, rfl⟩
  | fill _ _ _ u sent => exact .inl (by simp [sendWindow_now sent])
  | retransmit _ _ _ _ _ _ u sent => exact .inl (by simp [sendWindow_now sent])
  | window _ u sent => exact .inl (sendWindow_now sent)
  | _ => exact .inl rfl

/-- Only an enabled `RX.ACCEPT` moves the receiver's cursor, and by one payload (R200). -/
theorem effect_cur {i : Instr} {s t : Machine.State} (h : Effect s i t)
    (hc : ∀ c, i ≠ .sysConstruct c) :
    (i = .rxAccept ∧ i ∈ enabledOps s ∧ ∃ p,
      t.cur = { expected := s.cur.expected + 1, assembled := s.cur.assembled ++ [p] }) ∨
    ((i = .rxAccept → i ∉ enabledOps s) ∧ t.cur = s.cur) := by
  cases h with
  | construct l => exact absurd rfl (hc _)
  | constructAlone n => exact absurd rfl (hc _)
  | accept up state seq plen payload rest head formed inOrder =>
    have on := rxAcceptEnabled_iff.mpr ⟨state, seq, plen, payload, rest, head, formed, inOrder⟩
    exact .inl ⟨rfl, (mem_enabledOps (by decide)).mpr ⟨up, on⟩, _, rfl⟩
  | waits _ _ off =>
    refine .inr ⟨?_, rfl⟩
    rintro rfl he
    exact Bool.false_ne_true (off.symm.trans ((mem_enabledOps (by decide)).mp he).2)
  | function _ row => exact .inr ⟨(by rintro rfl; cases row), rfl⟩
  | dataWord _ _ row => exact .inr ⟨(by rintro rfl; cases row), rfl⟩
  | ackWord _ _ row => exact .inr ⟨(by rintro rfl; cases row), rfl⟩
  | recordRow _ _ row => exact .inr ⟨(by rintro rfl; cases row), rfl⟩
  | fill _ _ _ u sent => exact .inr ⟨nofun, by simp [sendWindow_cur sent]⟩
  | retransmit _ _ _ _ _ _ u sent => exact .inr ⟨nofun, by simp [sendWindow_cur sent]⟩
  | window _ u sent => exact .inr ⟨nofun, sendWindow_cur sent⟩
  | _ => exact .inr ⟨nofun, rfl⟩

/-! ### What keeps the machine's invariant -/

/-- Outside `Done` no exit flag is set (R242). -/
theorem flags_clear {s : Machine.State} (h : MachineInv s) (hd : s.snd.sstate ≠ .done) :
    s.snd.eosPushed = false ∧ s.snd.listenerStopped = false ∧ s.snd.senderComplete = false := by
  obtain ⟨pushed, stopped, complete⟩ := h.flags
  have he := Bool.eq_false_iff.mpr (mt pushed hd)
  have hl := Bool.eq_false_iff.mpr (mt stopped hd)
  exact ⟨he, hl, Bool.eq_false_iff.mpr fun hc => Bool.false_ne_true (he.symm.trans (complete hc).1)⟩

/-- What `SState` the settling of `TX.FILL` and `TXA.ACK_ACCEPT` chooses (R160, R166). -/
theorem settleSState_done_iff (s : Machine.State) :
    s.settleSState.snd.sstate = .done ↔
      s.settleSState.snd.sstate ≠ .filling ∧ s.win.base = s.cfg.totalFrames := by
  by_cases hb : s.win.base = s.cfg.totalFrames <;> simp [hb]

theorem settleSState_resting (s : Machine.State) :
    s.settleSState.snd.sstate ≠ .sliding ∧ s.settleSState.snd.sstate ≠ .retransmitting := by
  by_cases hb : s.win.base = s.cfg.totalFrames <;> simp [hb]

/-- Settling outside `Done` keeps the invariant: no exit flag is set there. -/
theorem machineInv_settleSState {s : Machine.State} (h : MachineInv s) (hd : s.snd.sstate ≠ .done) :
    MachineInv s.settleSState := by
  obtain ⟨he, hl, hc⟩ := flags_clear h hd
  exact { h with
    doneIff := settleSState_done_iff s
    resting := settleSState_resting s
    flags := by simp [he, hl, hc] }

/-- The poll's time stamp is no part of the invariant (R30). -/
theorem machineInv_setLastPoll {s : Machine.State} (h : MachineInv s) (n : Nat) :
    MachineInv (s.setLastPoll n) := { h with }

/-- An accepted ack moves `base` to the slot after the one it acknowledges, and the sender settles
(R166). -/
theorem machineInv_afterAck {s : Machine.State} (h : MachineInv s) (hd : s.snd.sstate ≠ .done)
    (hb : s.win.base < s.win.acked.length) (a : SignedField) (rest : List SignedField) :
    MachineInv (afterAck a rest s).settleSState := by
  obtain ⟨he, hl, hc⟩ := flags_clear h hd
  obtain ⟨_, _, hlen, _⟩ := h.stores
  exact { h with
    stores := wf_congr (s := s) rfl rfl rfl (by simp [afterAck]) rfl h.stores
    baseBound := by change s.win.base + 1 ≤ s.cfg.totalFrames; omega
    ackedBelowBase := fun i hi => by
      change (s.win.acked.set s.win.base true)[i]? = some (decide (i < s.win.base + 1))
      by_cases hib : s.win.base = i
      · subst hib
        simp [hb]
      · rw [List.getElem?_set_ne hib, h.ackedBelowBase i hi, Option.some.injEq, decide_eq_decide]
        omega
    doneIff := settleSState_done_iff (afterAck a rest s)
    resting := settleSState_resting (afterAck a rest s)
    flags := by simp [afterAck, he, hl, hc] }

/-- A pass over slots of the window: a slot it marks as withheld is eligible and stamped, and what it
enqueues is of the channel's width (R137, R150). -/
theorem machineInv_afterPass {s : Machine.State} (h : MachineInv s) (now : Nat) {slots : List Nat}
    (hs : ∀ i ∈ slots, i ∈ activeWindow s) : MachineInv (afterPass now slots s) := by
  obtain ⟨_, hts, _⟩ := h.stores
  exact { h with
    stores := afterPass_wf now slots h.stores
    droppedEligible := fun i (hi : i < s.cfg.totalFrames) hd => by
      change i ≠ 0 ∧ (i + 1) % s.cfg.dropPeriod = 0 ∧ _
      rw [stampOf_afterPass]
      rw [wasDropped_afterPass] at hd
      split at hd
      · rename_i hw
        obtain ⟨⟨hmem, hheld⟩, -⟩ := hw
        obtain ⟨hmod, hne, -⟩ := shouldDrop_iff.mp hheld
        exact ⟨hne, hmod, by simp [hmem, hts, hi]⟩
      · obtain ⟨hne, hmod, hst⟩ := h.droppedEligible i hi hd
        exact ⟨hne, hmod, by split <;> simp [hst]⟩
    fieldWidths := fun m hm => by
      rcases List.mem_append.mp hm with hm | hm
      · exact h.fieldWidths m hm
      · obtain ⟨i, ⟨hi, -⟩, rfl⟩ := mem_sentMsgs.mp hm
        have hlt := (mem_activeWindow.mp (hs i hi)).2
        exact fieldFits_slotMsg h.stores (Nat.lt_of_lt_of_le hlt (windowEnd_le s)) }

theorem fieldFits_append {s : Machine.State} (h : MachineInv s) {m : DataMsg}
    (hm : fieldFits s.cfg.payloadBits m = true) :
    ∀ m' ∈ s.dch ++ [m], fieldFits s.cfg.payloadBits m' = true := by
  intro m' hm'
  rcases List.mem_append.mp hm' with hm' | hm'
  · exact h.fieldWidths m' hm'
  · rw [List.mem_singleton.mp hm']
    exact hm

theorem fieldFits_tail {s : Machine.State} (h : MachineInv s) {m : DataMsg} {rest : List DataMsg}
    (head : s.dch = m :: rest) : ∀ m' ∈ rest, fieldFits s.cfg.payloadBits m' = true :=
  fun m' hm' => h.fieldWidths m' (by rw [head]; exact List.mem_cons_of_mem m hm')

/-- A payload the receiver takes of a well-formed frame keeps the bounds of R33. -/
theorem machineInv_accept {s : Machine.State} (h : MachineInv s) {seq : SeqField} {plen : Nat}
    {payload : BitString} {rest : List DataMsg} (head : s.dch = .frame seq plen payload :: rest)
    (formed : 1 ≤ plen ∧ plen ≤ s.cfg.payloadBits) (inOrder : seq.toNat = s.cur.expected)
    (acks : List SignedField) :
    MachineInv { s with
      dch := rest
      cur := { expected := s.cur.expected + 1, assembled := s.cur.assembled ++ [payload.take plen] }
      ach := acks } := by
  have width := h.fieldWidths (.frame seq plen payload) (by simp [head])
  simp only [fieldFits, beq_iff_eq] at width
  exact { h with
    cursor := by simp [h.cursor]
    cursorBound := by
      have := seq.isLt
      change s.cur.expected + 1 ≤ 65536
      omega
    payloadBounds := fun p hp => by
      rcases List.mem_append.mp hp with hp | hp
      · exact h.payloadBounds p hp
      · rw [List.mem_singleton.mp hp, List.length_take, width]
        change 1 ≤ _ ∧ _ ≤ s.cfg.payloadBits
        omega
    fieldWidths := fieldFits_tail h head }

/-! ### Attempts -/

/-- `t` is reached from `s` by writes that touch no stamp and leave the invariant, and then one attempt,
at `s.now`, of each of some slots of the window. -/
def Attempts (s t : Machine.State) : Prop :=
  ∃ (v : Machine.State) (slots : List Nat), MachineInv v ∧
    v.win.sendTimestamp = s.win.sendTimestamp ∧ (∀ i ∈ slots, i ∈ activeWindow v) ∧
    t = afterPass s.now slots v

theorem afterPass_nil (now : Nat) (s : Machine.State) : afterPass now [] s = s := by
  simp [afterPass, sentMsgs]

theorem Attempts.quiet {s t : Machine.State} (h : MachineInv t)
    (ht : t.win.sendTimestamp = s.win.sendTimestamp) : Attempts s t :=
  ⟨t, [], h, ht, by simp, (afterPass_nil _ _).symm⟩

theorem Attempts.machineInv {s t : Machine.State} (h : Attempts s t) : MachineInv t := by
  obtain ⟨v, slots, hv, -, hs, rfl⟩ := h
  exact machineInv_afterPass hv s.now hs

/-- A stamp that attempts change is `now`, of a slot of the window (R23, R31). -/
theorem Attempts.stamps {s t : Machine.State} (h : Attempts s t) {k : Nat}
    (hk : stampOf t k ≠ stampOf s k) :
    t.win.base ≤ k ∧ k < windowEnd t ∧ stampOf t k = some s.now := by
  obtain ⟨v, slots, -, ht, hs, rfl⟩ := h
  rw [stampOf_afterPass] at hk ⊢
  split at hk
  · rename_i hmem
    obtain ⟨hbase, hend⟩ := mem_activeWindow.mp (hs k hmem.1)
    exact ⟨hbase, hend, if_pos hmem⟩
  · exact absurd (by simp only [stampOf, ht]) hk

/-- A retransmission stands in `Retransmitting` only while it passes over the window (R265, R266). -/
theorem attempts_retransmit {s u : Machine.State} (h : MachineInv s) (built : s.cfg.senderBuilt = true)
    (state : s.snd.sstate = .watching) {expired : List Nat}
    (sent : sendWindow s.now ((s.setLastPoll s.now).enterRetransmission expired) = .ok u) :
    Attempts s u.leaveRetransmission := by
  obtain ⟨_, period, _⟩ := h.senderConfig built
  have pass := sendWindow_of_wf (s := (s.setLastPoll s.now).enterRetransmission expired) s.now
    (Nat.pos_iff_ne_zero.mp period) h.stores h.ackedBelowBase
  cases pass.symm.trans sent
  have back : ((s.setLastPoll s.now).enterRetransmission expired).leaveRetransmission =
      (s.setLastPoll s.now).recordTimeouts expired := by
    simp [State.leaveRetransmission, State.enterRetransmission, State.setSState, State.recordTimeouts,
      State.setLastPoll, ← state]
  refine ⟨(s.setLastPoll s.now).recordTimeouts expired, activeWindow s,
    { machineInv_setLastPoll h s.now with }, rfl, fun _ hi => hi, ?_⟩
  rw [← back]
  rfl

/-- The slot a slide exposes is the last of the window as it stands after the slide (R148, R166). -/
theorem attempts_ackSlide {s : Machine.State} (h : MachineInv s) (built : s.cfg.senderBuilt = true)
    (state : s.snd.sstate ≠ .done) (slot : s.win.base < s.win.acked.length) (a : SignedField)
    (rest : List SignedField) (exposes : s.win.base + 1 + s.cfg.windowSize - 1 < s.cfg.totalFrames) :
    Attempts s (afterAttempt s.now (s.win.base + 1 + s.cfg.windowSize - 1)
      (afterAck a rest s)).settleSState := by
  obtain ⟨window, _⟩ := h.senderConfig built
  refine ⟨(afterAck a rest s).settleSState, [s.win.base + 1 + s.cfg.windowSize - 1],
    machineInv_afterAck h state slot a rest, rfl, ?_, ?_⟩
  · simp only [List.mem_singleton, forall_eq, mem_activeWindow, windowEnd, winEnd]
    change s.win.base + 1 ≤ _ ∧ _ < min (s.win.base + 1 + s.cfg.windowSize) s.cfg.totalFrames
    omega
  · rw [afterAttempt_eq_afterPass]
    rfl

/-- Every instruction but a construction writes its registers and then attempts slots of the window. -/
theorem effect_attempts {i : Instr} {s t : Machine.State} (h : Effect s i t) (hm : MachineInv s)
    (hc : ∀ c, i ≠ .sysConstruct c) : Attempts s t := by
  cases h with
  | construct l => exact absurd rfl (hc _)
  | constructAlone n => exact absurd rfl (hc _)
  | waits => exact .quiet hm rfl
  | advance d => exact .quiet { hm with } rfl
  | fill _ _ state u sent =>
    cases (sendWindow_of_inv hm s.now).symm.trans sent
    have hd : s.snd.sstate ≠ .done := by simp [state]
    exact ⟨(s.setLastPoll s.now).settleSState, activeWindow s,
      machineInv_settleSState (machineInv_setLastPoll hm _) hd, rfl, fun _ h => h, rfl⟩
  | quietPoll => exact .quiet (machineInv_setLastPoll hm _) rfl
  | retransmit _ built state _ _ _ u sent => exact attempts_retransmit hm built state sent
  | finish _ _ state running =>
    obtain ⟨_, stopped, complete⟩ := hm.flags
    exact .quiet { hm with
      flags := ⟨fun _ => state, stopped, fun h => ⟨rfl, (complete h).2⟩⟩
      fieldWidths := fieldFits_append hm rfl } rfl
  | join _ _ pushed stopped =>
    obtain ⟨hp, hl, _⟩ := hm.flags
    exact .quiet { hm with flags := ⟨hp, hl, fun _ => ⟨pushed, stopped⟩⟩ } rfl
  | ackLast _ _ _ state a rest _ _ slot => exact .quiet (machineInv_afterAck hm state slot a rest) rfl
  | ackSlide _ built _ state a rest _ _ slot exposes =>
    exact attempts_ackSlide hm built state slot a rest exposes
  | ackIgnore => exact .quiet { hm with } rfl
  | listenerIdle => exact .quiet hm rfl
  | listenerStop _ _ _ state =>
    obtain ⟨pushed, _, complete⟩ := hm.flags
    exact .quiet { hm with flags := ⟨pushed, fun _ => state, fun h => ⟨(complete h).1, rfl⟩⟩ } rfl
  | accept _ _ _ _ _ _ head formed inOrder =>
    exact .quiet (machineInv_accept hm head formed inOrder _) rfl
  | reject _ _ _ _ _ rest head =>
    exact .quiet { hm with fieldWidths := fieldFits_tail hm head } rfl
  | endOfStream _ _ rest head =>
    exact .quiet { hm with
      writeDoneIff := ⟨fun _ => rfl, fun _ => rfl⟩
      fieldWidths := fieldFits_tail hm head } rfl
  | malformed _ _ _ _ _ rest head =>
    exact .quiet { hm with fieldWidths := fieldFits_tail hm head } rfl
  | receiverIdle => exact .quiet hm rfl
  | function => exact .quiet { hm with } rfl
  | attempt _ i slot =>
    exact ⟨s, [i], hm, rfl, by simpa using slot, afterAttempt_eq_afterPass ..⟩
  | window _ u sent =>
    cases (sendWindow_of_inv hm s.now).symm.trans sent
    exact ⟨s, activeWindow s, hm, rfl, fun _ h => h, rfl⟩
  | dataWord _ _ _ m fits => exact .quiet { hm with fieldWidths := fieldFits_append hm fits } rfl
  | ackWord => exact .quiet { hm with } rfl
  | recordRow => exact .quiet { hm with } rfl

/-! ### The machine's step -/

/-- Every instruction, a construction included, keeps the machine's invariant. -/
theorem exec_machineInv {i : Instr} {s t : Machine.State} (hm : MachineInv s) (h : exec i s = .next t) :
    MachineInv t := by
  by_cases hc : ∃ c, i = .sysConstruct c
  · obtain ⟨c, rfl⟩ := hc
    exact machineInv_construction h
  · exact (effect_attempts (exec_next h) hm (not_exists.mp hc)).machineInv

theorem fetch_eq_some_ok {s u : Machine.State} {i : Instr} (h : fetch s = some (.ok (i, u))) :
    ∃ rest, u = { s with script := rest } := by
  unfold fetch at h
  split at h
  · cases h
  · split at h
    · cases h
    · cases h
      exact ⟨_, rfl⟩

/-- A step is an instruction executed on the state with its script, or the free schedule's counter,
moved on (log 1, log 4). -/
theorem step_next {s t : Machine.State} (h : step s = .next t) :
    ∃ i script turn, exec i { s with script := script, turn := turn } = .next t := by
  unfold step at h
  split at h
  · exact ⟨_, _, _, h⟩
  · cases h
  · rename_i i u hf
    obtain ⟨rest, rfl⟩ := fetch_eq_some_ok hf
    unfold runFetched at h
    split at h
    · exact ⟨i, rest, s.turn, h⟩
    · cases h

/-! ### The statements -/

/-- Settles O48: a step is one instruction, and each writes its registers so that the invariant stays and
then attempts slots of the window. -/
theorem everyStepKeepsTheMachineInvariant : Obligations.EveryStepKeepsTheMachineInvariant := by
  intro s t hm h
  obtain ⟨i, script, turn, hi⟩ := step_next h
  exact exec_machineInv (s := { s with script := script, turn := turn }) { hm with } hi

/-- Settles O8: a legal launch passes the checks of R261, and the codec answers its frames. -/
theorem constructionSetsEveryRegister : Obligations.ConstructionSetsEveryRegister := by
  intro l s bytes hw hc hp ht hs hn
  have hcount : frameCount bytes.length (l.frameCapacityBits - 16) ≤ 65536 :=
    (ceilDiv_le (by omega)).mpr hn
  rw [exec_construct_pair, construct_of_legal s hw hp ht hs (encodeSource_eq_ok.mpr ⟨hc, hcount, rfl⟩)]
  simp only [State.constructed, List.length_map, List.length_range]

/-- Settles O10: the blanks a failed construction leaves hold no message, no record and no engine. -/
theorem failedConstructionDisablesEveryOperation :
    Obligations.FailedConstructionDisablesEveryOperation := by
  intro c s t h hc
  obtain ⟨f, -, rfl⟩ | ⟨l, source, frames, -, -, -, -, rfl⟩ | ⟨n, -, rfl⟩ := construction_cases h
  case inr.inl => exact absurd rfl hc
  case inr.inr => exact absurd rfl hc
  exact ⟨rfl, rfl, rfl, rfl, enabledOps_down hc, fun i hi => exec_operation_down hi hc,
    fun d => runOperation_down hc⟩

/-- Settles O39, by the cases of `Effect`. -/
theorem configurationStoresAndClockAreReadOnly : Obligations.ConfigurationStoresAndClockAreReadOnly := by
  intro i s t h hc
  obtain ⟨hcfg, hfs, hsource⟩ := effect_readOnly (exec_next h) hc
  refine ⟨hcfg, hfs, hsource, ?_⟩
  obtain hn | ⟨d, hi, hn⟩ := effect_now (exec_next h) hc
  · exact ⟨0, hn, fun h0 => absurd rfl h0⟩
  · exact ⟨d, hn, fun _ => hi⟩

/-- Settles O43: a construction empties the cursor, an enabled `RX.ACCEPT` appends one payload and counts
it, and nothing else touches it. -/
theorem assembledLengthIsExpected : Obligations.AssembledLengthIsExpected := by
  intro i s t h
  by_cases hc : ∃ c, i = .sysConstruct c
  · obtain ⟨c, rfl⟩ := hc
    have ht := construction_cur h
    exact ⟨fun _ => by rw [ht]; rfl, fun _ _ => ht, nofun, fun hne => absurd rfl (hne c)⟩
  obtain ⟨hi, on, p, ht⟩ | ⟨off, ht⟩ := effect_cur (exec_next h) (not_exists.mp hc)
  · exact ⟨fun hlen => by simp [ht, hlen], fun hex => absurd hex hc, fun _ _ => by rw [ht],
      fun _ hoff => hoff.elim (absurd hi) (absurd on)⟩
  · exact ⟨fun hlen => by rw [ht, hlen], fun hex => absurd hex hc, fun hi on => absurd on (off hi),
      fun _ _ => ht⟩

/-- Settles O47: a stamp changes only by an attempt of a slot of the window. -/
theorem onlyTheActiveWindowIsStamped : Obligations.OnlyTheActiveWindowIsStamped := by
  intro i s t k hm h hc hk
  exact (effect_attempts (exec_next h) hm hc).stamps hk

/-- Settles O50: the construction succeeded, so every register has its reset value. -/
theorem constructionStartsTheClosedSystem : Obligations.ConstructionStartsTheClosedSystem := by
  intro l s t h hok
  cases h
  change (construct l s).cfg.cstatus = .ok at hok
  change ClosedInv (construct l s)
  obtain ⟨f, hf, he⟩ | ⟨source, frames, -, hw, hp, ht, henc, he⟩ := construct_cases l s
  · rw [he] at hok
    exact absurd hok hf
  · rw [he]
    exact closedInv_constructed hw hp ht henc s

/-- The state after reset is the one its launch constructs (R280; log 5). -/
theorem reset_eq_construct : State.reset = construct Config.resetLaunch State.reset := by decide +kernel

/-- Settles O49: reset is a construction. -/
theorem resetKeepsTheMachineInvariant : Obligations.ResetKeepsTheMachineInvariant := by
  unfold Obligations.ResetKeepsTheMachineInvariant
  rw [reset_eq_construct]
  exact machineInv_construction (exec_construct_pair Config.resetLaunch State.reset)

end Sys2Proof.Proofs

/-! SUPPORT. The two channels (spec 20) and the closed system that speaks through them: what every
instruction does to a channel, and that no schedule leaves the closed system's laws. -/

namespace Sys2Proof.Proofs

open Sys2Proof.Machine Sys2Proof.Laws

/-! ### The channels -/

theorem sendWindow_dch {now : Nat} {s u : Machine.State} (h : sendWindow now s = .ok u) :
    ∃ ms, u.dch = s.dch ++ ms := (sendSlots_appends h).1

theorem sendWindow_ach {now : Nat} {s u : Machine.State} (h : sendWindow now s = .ok u) :
    u.ach = s.ach := by rw [sendSlots_frame h]

theorem sendWindow_script {now : Nat} {s u : Machine.State} (h : sendWindow now s = .ok u) :
    u.script = s.script := by rw [sendSlots_frame h]

/-- `DCH` grows at its tail, or a receiver operation takes its head (R67, R68, R72). -/
theorem effect_dch {i : Instr} {s t : Machine.State} (h : Effect s i t)
    (hc : ∀ c, i ≠ .sysConstruct c) :
    (∃ ms, t.dch = s.dch ++ ms) ∨
      (i ∈ [.rxAccept, .rxReject, .rxEos, .rxMalformed] ∧ ∃ m, s.dch = m :: t.dch) := by
  cases h with
  | construct l => exact absurd rfl (hc _)
  | constructAlone n => exact absurd rfl (hc _)
  | fill _ _ _ u sent => exact .inl (by simpa using sendWindow_dch sent)
  | retransmit _ _ _ _ _ _ u sent => exact .inl (by simpa using sendWindow_dch sent)
  | window _ u sent => exact .inl (sendWindow_dch sent)
  | finish => exact .inl ⟨_, rfl⟩
  | ackSlide => exact .inl ⟨_, rfl⟩
  | attempt => exact .inl ⟨_, rfl⟩
  | dataWord => exact .inl ⟨_, rfl⟩
  | accept _ _ _ _ _ rest head => exact .inr ⟨by decide, _, head⟩
  | reject _ _ _ _ _ rest head => exact .inr ⟨by decide, _, head⟩
  | endOfStream _ _ rest head => exact .inr ⟨by decide, _, head⟩
  | malformed _ _ _ _ _ rest head => exact .inr ⟨by decide, _, head⟩
  | _ => exact .inl ⟨[], (List.append_nil _).symm⟩

/-- `ACH` grows at its tail, or a listener operation takes its head (R67, R69, R72). -/
theorem effect_ach {i : Instr} {s t : Machine.State} (h : Effect s i t)
    (hc : ∀ c, i ≠ .sysConstruct c) :
    (∃ acks, t.ach = s.ach ++ acks) ∨
      (i ∈ [.txaAckAccept, .txaAckIgnore] ∧ ∃ a, s.ach = a :: t.ach) := by
  cases h with
  | construct l => exact absurd rfl (hc _)
  | constructAlone n => exact absurd rfl (hc _)
  | fill _ _ _ u sent => exact .inl ⟨[], by simp [sendWindow_ach sent]⟩
  | retransmit _ _ _ _ _ _ u sent => exact .inl ⟨[], by simp [sendWindow_ach sent]⟩
  | window _ u sent => exact .inl ⟨[], by simp [sendWindow_ach sent]⟩
  | accept => exact .inl ⟨_, rfl⟩
  | reject => exact .inl ⟨_, rfl⟩
  | ackWord => exact .inl ⟨_, rfl⟩
  | ackLast _ _ _ _ a rest head => exact .inr ⟨by decide, _, head⟩
  | ackSlide _ _ _ _ a rest head => exact .inr ⟨by decide, _, head⟩
  | ackIgnore _ _ _ _ a rest head => exact .inr ⟨by decide, _, head⟩
  | _ => exact .inl ⟨[], (List.append_nil _).symm⟩

/-- The script is the fetch's alone (log 1). -/
theorem effect_script {i : Instr} {s t : Machine.State} (h : Effect s i t)
    (hc : ∀ c, i ≠ .sysConstruct c) : t.script = s.script := by
  cases h with
  | construct l => exact absurd rfl (hc _)
  | constructAlone n => exact absurd rfl (hc _)
  | fill _ _ _ u sent => simp [sendWindow_script sent]
  | retransmit _ _ _ _ _ _ u sent => simp [sendWindow_script sent]
  | window _ u sent => exact sendWindow_script sent
  | _ => rfl

/-! ### A pass of the sender keeps the closed laws -/

/-- The laws of the closed system within an operation of the running sender, that has written its registers
and has still to attempt the slots of the active window from `b` on: what the laws say of the whole window
holds of the slots below `b`. -/
structure SentBelow (b : Nat) (s : Machine.State) : Prop where
  machine : MachineInv s
  within : s.win.base ≤ b ∧ b ≤ windowEnd s
  running : s.snd.sstate ≠ .filling
  unmarked : s.snd.eosPushed = false
  acks : ackCursor s.win.base s.ach = some s.cur.expected
  polled : s.snd.lastPoll ≤ s.now ∧
    (s.snd.sstate = .watching → s.now ≤ s.snd.lastPoll + s.cfg.pollTick)
  past : ∀ i t, stampOf s i = some t → t ≤ s.now
  stamped : ∀ i, s.win.base ≤ i → i < b → ∃ t, stampOf s i = some t
  ordered : ∀ i t u, s.win.base ≤ i → i + 1 < b →
    stampOf s i = some t → stampOf s (i + 1) = some u → t ≤ u
  deliverable : b ≤ dataCursor s.cur.expected s.dch ∨
    wasDropped s (dataCursor s.cur.expected s.dch) = true
  unexpired : s.snd.sstate = .watching → ∀ i t, s.win.base ≤ i → i < b →
    stampOf s i = some t → s.snd.lastPoll ≤ t + s.cfg.timeoutInterval

/-- `s` with the registers, the ack channel and the log that the sender's operations write before they
attempt slots, as they stand in `v`. -/
def senderWrites (s v : Machine.State) : Machine.State :=
  { s with
    ach := v.ach, log := v.log, snd := v.snd
    win := { s.win with base := v.win.base, acked := v.win.acked } }

/-- The slots of the active window from `b` on (R146). -/
def windowFrom (b : Nat) (s : Machine.State) : List Nat := List.range' b (windowEnd s - b)

theorem mem_windowFrom {b i : Nat} {s : Machine.State} :
    i ∈ windowFrom b s ↔ b ≤ i ∧ i < windowEnd s := by
  simp only [windowFrom, List.mem_range'_1]
  omega

/-- The rest of the window, from slot `b` on, attempted (R150, R152). -/
def sendRest (b : Nat) (s : Machine.State) : Machine.State := afterPass s.now (windowFrom b s) s

theorem windowFrom_subset {b : Nat} {s : Machine.State} (hb : s.win.base ≤ b) :
    ∀ i ∈ windowFrom b s, i ∈ activeWindow s := fun _ hi =>
  have ⟨h1, h2⟩ := mem_windowFrom.mp hi
  mem_activeWindow.mpr ⟨Nat.le_trans hb h1, h2⟩

/-- A pass from slot 0 on sends `F0` first, if anything: slot 0 is never withheld (R135, R161). -/
theorem head?_sentMsgs_zero {s : Machine.State} {n : Nat} {m : DataMsg}
    (h : (sentMsgs s (List.range' 0 n)).head? = some m) : m = slotMsg s 0 := by
  cases n with
  | zero => cases h
  | succ n => simpa [sentMsgs, List.range'_succ, zero_not_withheld, eq_comm] using h

theorem eos_not_mem_sentMsgs (s : Machine.State) (slots : List Nat) : .eos ∉ sentMsgs s slots := by
  intro h
  obtain ⟨i, -, he⟩ := mem_sentMsgs.mp h
  exact slotMsg_ne_eos s i he.symm

/-- An eligible slot that an attempt does not withhold has been withheld before (R135, R137). -/
theorem wasDropped_or_withheldNow {s : Machine.State} {i : Nat} (hi : i ≠ 0)
    (he : (i + 1) % s.cfg.dropPeriod = 0) : wasDropped s i = true ∨ withheldNow s i = true := by
  cases hd : wasDropped s i with
  | true => exact .inl rfl
  | false => exact .inr (shouldDrop_iff.mpr ⟨he, hi, by simp [hd]⟩)

/-- A slot that has been withheld exists, and is not slot 0 (R135). -/
theorem lt_of_wasDropped {s : Machine.State} (h : MachineInv s) {i : Nat} (hd : wasDropped s i = true) :
    i < s.cfg.totalFrames := by
  obtain ⟨-, -, -, hlen, -⟩ := h.stores
  by_contra hi
  simp [wasDropped, List.getElem?_eq_none (by omega : s.win.droppedOnce.length ≤ i)] at hd

theorem ne_zero_of_wasDropped {s : Machine.State} (h : MachineInv s) {i : Nat}
    (hd : wasDropped s i = true) : i ≠ 0 := (h.droppedEligible i (lt_of_wasDropped h hd) hd).1

/-- A drop flag stays set (R25). -/
theorem wasDropped_afterPass_of_wasDropped {s : Machine.State} {i : Nat} (now : Nat) (slots : List Nat)
    (hd : wasDropped s i = true) : wasDropped (afterPass now slots s) i = true := by
  rw [wasDropped_afterPass, hd, ite_self]

/-- A slot that the pass withholds is flagged (R25, R150). -/
theorem wasDropped_afterPass_of_withheld {s : Machine.State} (h : MachineInv s) {i now : Nat}
    {slots : List Nat} (hi : i ∈ slots) (hw : withheldNow s i = true) (hN : i < s.cfg.totalFrames) :
    wasDropped (afterPass now slots s) i = true := by
  obtain ⟨-, -, -, hlen, -⟩ := h.stores
  rw [wasDropped_afterPass, if_pos ⟨⟨hi, hw⟩, hlen ▸ hN⟩]

section
variable {b : Nat} {s : Machine.State} (h : SentBelow b s)
include h

/-- Every slot of the pass gets the same stamp, and the others keep theirs (R152). -/
theorem SentBelow.stampOf_sendRest (i : Nat) :
    stampOf (sendRest b s) i = if b ≤ i ∧ i < windowEnd s then some s.now else stampOf s i := by
  obtain ⟨-, hlen, -⟩ := h.machine.stores
  have hN := windowEnd_le s
  rw [sendRest, stampOf_afterPass]
  refine if_congr ?_ rfl rfl
  rw [mem_windowFrom]
  omega

theorem SentBelow.stampOf_sendRest_rest {i : Nat} (hi : b ≤ i) (he : i < windowEnd s) :
    stampOf (sendRest b s) i = some s.now := by rw [h.stampOf_sendRest, if_pos ⟨hi, he⟩]

theorem SentBelow.stampOf_sendRest_below {i : Nat} (hi : i < b) :
    stampOf (sendRest b s) i = stampOf s i := by
  rw [h.stampOf_sendRest, if_neg fun hb => Nat.not_lt.mpr hb.1 hi]

theorem SentBelow.past_sendRest (i t : Nat) (ht : stampOf (sendRest b s) i = some t) : t ≤ s.now := by
  rw [h.stampOf_sendRest] at ht
  split at ht
  · cases ht
    exact Nat.le_refl _
  · exact h.past i t ht

theorem SentBelow.windowStamped_sendRest : WindowStamped (sendRest b s) := by
  intro i hi he
  by_cases hb : i < b
  · obtain ⟨t, ht⟩ := h.stamped i hi hb
    exact ⟨t, (h.stampOf_sendRest_below hb).trans ht, h.past i t ht⟩
  · exact ⟨s.now, h.stampOf_sendRest_rest (Nat.not_lt.mp hb) he, Nat.le_refl _⟩

/-- The slots attempted now carry the youngest stamp of the window (R187). -/
theorem SentBelow.ordered_sendRest (i t u : Nat) (hi : s.win.base ≤ i) (he : i + 1 < windowEnd s)
    (ht : stampOf (sendRest b s) i = some t) (hu : stampOf (sendRest b s) (i + 1) = some u) : t ≤ u := by
  by_cases hb : i + 1 < b
  · rw [h.stampOf_sendRest_below hb] at hu
    rw [h.stampOf_sendRest_below (Nat.lt_of_succ_lt hb)] at ht
    exact h.ordered i t u hi hb ht hu
  · rw [h.stampOf_sendRest_rest (Nat.not_lt.mp hb) he] at hu
    cases hu
    exact h.past_sendRest i t ht

theorem SentBelow.unexpired_sendRest (hw : s.snd.sstate = .watching) (i t : Nat) (hi : s.win.base ≤ i)
    (he : i < windowEnd s) (ht : stampOf (sendRest b s) i = some t) :
    s.snd.lastPoll ≤ t + s.cfg.timeoutInterval := by
  by_cases hb : i < b
  · rw [h.stampOf_sendRest_below hb] at ht
    exact h.unexpired hw i t hi hb ht
  · rw [h.stampOf_sendRest_rest (Nat.not_lt.mp hb) he] at ht
    cases ht
    exact Nat.le_trans h.polled.1 (Nat.le_add_right _ _)

/-- An eligible slot attempted in the pass has been withheld, now or before (R137, R189). -/
theorem SentBelow.wasDropped_sendRest {i : Nat} (hb : b ≤ i) (he : i < windowEnd s) (h0 : i ≠ 0)
    (hp : (i + 1) % s.cfg.dropPeriod = 0) : wasDropped (sendRest b s) i = true := by
  obtain hd | hw := wasDropped_or_withheldNow h0 hp
  · exact wasDropped_afterPass_of_wasDropped _ _ hd
  · exact wasDropped_afterPass_of_withheld h.machine (mem_windowFrom.mpr ⟨hb, he⟩) hw
      (Nat.lt_of_lt_of_le he (windowEnd_le s))

/-- What is in flight after the pass carries the receiver to the window's end, or to a slot that has been
withheld (R139, R241). -/
theorem SentBelow.deliverable_sendRest :
    windowEnd s ≤ dataCursor s.cur.expected (sendRest b s).dch ∨
      wasDropped (sendRest b s) (dataCursor s.cur.expected (sendRest b s).dch) = true := by
  obtain ⟨-, hbe⟩ := h.within
  have hN := windowEnd_le s
  have hdch : (sendRest b s).dch = s.dch ++ sentMsgs s (windowFrom b s) := rfl
  rw [hdch, dataCursor_append]
  obtain ⟨c, hc⟩ : ∃ c, dataCursor s.cur.expected s.dch = c := ⟨_, rfl⟩
  rw [hc]
  by_cases hb : b ≤ c
  · have hend : b + (windowEnd s - b) = windowEnd s := Nat.add_sub_of_le hbe
    have hpass := dataCursor_pass h.machine.stores (hend.symm ▸ hN) hb
    rw [hend] at hpass
    obtain hp | ⟨hw, hp⟩ := hpass
    · exact .inl hp
    · have hle := Nat.le_trans hb (le_dataCursor c (sentMsgs s (windowFrom b s)))
      exact .inr (wasDropped_afterPass_of_withheld h.machine (mem_windowFrom.mpr ⟨hle, hp⟩) hw
        (Nat.lt_of_lt_of_le hp hN))
  · have hd := h.deliverable.resolve_left (hc ▸ hb)
    have beyond : ∀ i ∈ windowFrom b s, c < i ∧ i < s.cfg.totalFrames := fun i hi => by
      have := mem_windowFrom.mp hi
      omega
    rw [dataCursor_sentMsgs_beyond h.machine.stores beyond, ← hc]
    exact .inr (wasDropped_afterPass_of_wasDropped _ _ hd)

/-- Before the first acceptance the head of `DCH` is `F0` after the pass too: a window attempted from a
slot above 0 has `F0` in flight already (R135, R161). -/
theorem SentBelow.head_sendRest (first : ∀ m, s.dch.head? = some m → m = .eos ∨ m = slotMsg s 0)
    (he : s.cur.expected = 0) (m : DataMsg) (hm : (sendRest b s).dch.head? = some m) :
    m = .eos ∨ m = slotMsg s 0 := by
  change (s.dch ++ sentMsgs s (windowFrom b s)).head? = some m at hm
  cases hd : s.dch with
  | cons x rest =>
    rw [hd, List.cons_append] at hm
    exact first m (by rw [hd]; exact hm)
  | nil =>
    have hdel := h.deliverable
    rw [hd, he] at hdel
    obtain hb | hw := hdel
    · obtain rfl := Nat.le_zero.mp hb
      rw [hd] at hm
      exact .inr (head?_sentMsgs_zero hm)
    · exact absurd rfl (ne_zero_of_wasDropped h.machine hw)

end

/-- The sender's operations write their registers and then attempt the rest of the window, which restores
the laws of the closed system (R150, R152). -/
theorem closedInv_sendRest {b : Nat} {s v : Machine.State} (hc : ClosedInv s)
    (hd : s.snd.sstate ≠ .done) (h : SentBelow b (senderWrites s v))
    (grows : windowEnd s ≤ windowEnd (senderWrites s v)) :
    ClosedInv (sendRest b (senderWrites s v)) := by
  obtain ⟨unmarked, -⟩ := flags_clear hc.machine hd
  have hN := windowEnd_le (senderWrites s v)
  exact { hc with
    machine := machineInv_afterPass h.machine _ (windowFrom_subset h.within.1)
    acks := h.acks
    frames := fun m hm => by
      rcases List.mem_append.mp hm with hm | hm
      · exact hc.frames m hm
      · obtain ⟨i, ⟨hi, -⟩, rfl⟩ := mem_sentMsgs.mp hm
        exact .inr ⟨i, Nat.lt_of_lt_of_le (mem_windowFrom.mp hi).2 hN, rfl⟩
    firstIsSlotZero := fun he m hm => h.head_sendRest (hc.firstIsSlotZero he) he m hm
    noEosBefore := fun _ hm =>
      (List.mem_append.mp hm).elim (hc.noEosBefore unmarked) (eos_not_mem_sentMsgs _ _)
    eosLast := fun he => absurd (h.unmarked.symm.trans he) Bool.false_ne_true
    afterEos := fun hr => absurd (unmarked.symm.trans (hc.afterEos hr).2.1) Bool.false_ne_true
    unfilled := fun hf => absurd hf h.running
    stamped := fun _ => h.windowStamped_sendRest
    stampsPast := h.past_sendRest
    unsent := fun i hi => by
      rw [h.stampOf_sendRest, if_neg fun hw => Nat.not_lt.mpr hi hw.2]
      exact hc.unsent i (Nat.le_trans grows hi)
    attemptedEligible := fun i t hi ht h0 hp => by
      rw [h.stampOf_sendRest] at ht
      split at ht
      · rename_i hw
        exact h.wasDropped_sendRest hw.1 hw.2 h0 hp
      · exact wasDropped_afterPass_of_wasDropped _ _ (hc.attemptedEligible i t hi ht h0 hp)
    stampsOrdered := h.ordered_sendRest
    deliverable := fun _ => h.deliverable_sendRest
    polled := h.polled
    unexpired := h.unexpired_sendRest }

/-! ### The sender's operations keep the closed laws -/

theorem base_le_windowEnd {s : Machine.State} (h : MachineInv s) : s.win.base ≤ windowEnd s :=
  Nat.le_min.mpr ⟨Nat.le_add_right _ _, h.baseBound⟩

/-- With registers set and polled now, a pass may begin at `base`: nothing is asked of the slots below it,
and the receiver stands at `base` or beyond (R80). -/
theorem sentBelow_base {s : Machine.State} (machine : MachineInv s) (running : s.snd.sstate ≠ .filling)
    (unmarked : s.snd.eosPushed = false) (acks : ackCursor s.win.base s.ach = some s.cur.expected)
    (polled : s.snd.lastPoll = s.now) (past : ∀ i t, stampOf s i = some t → t ≤ s.now) :
    SentBelow s.win.base s where
  machine := machine
  within := ⟨Nat.le_refl _, base_le_windowEnd machine⟩
  running := running
  unmarked := unmarked
  acks := acks
  polled := by rw [polled]; exact ⟨Nat.le_refl _, fun _ => Nat.le_add_right _ _⟩
  past := past
  stamped := fun i hi hb => absurd hi (Nat.not_le.mpr hb)
  ordered := fun i t u hi hb => absurd hi (Nat.not_le.mpr (Nat.lt_of_succ_lt hb))
  deliverable := .inl (Nat.le_trans (ackCursor_le acks) (le_dataCursor _ _))
  unexpired := fun _ i t hi hb => absurd hi (Nat.not_le.mpr hb)

theorem settleSState_ne_filling (s : Machine.State) : s.settleSState.snd.sstate ≠ .filling := by
  by_cases hb : s.win.base = s.cfg.totalFrames <;> simp [hb]

theorem closedInv_fill {s u : Machine.State} (hc : ClosedInv s) (state : s.snd.sstate = .filling)
    (sent : sendWindow s.now s = .ok u) : ClosedInv (u.setLastPoll s.now).settleSState := by
  cases (sendWindow_of_inv hc.machine s.now).symm.trans sent
  have hd : s.snd.sstate ≠ .done := by simp [state]
  have ready : SentBelow s.win.base (senderWrites s (s.setLastPoll s.now).settleSState) :=
    sentBelow_base (s := senderWrites s (s.setLastPoll s.now).settleSState)
      (machineInv_settleSState (machineInv_setLastPoll hc.machine s.now) hd)
      (settleSState_ne_filling (s.setLastPoll s.now)) (flags_clear hc.machine hd).1 hc.acks rfl
      hc.stampsPast
  exact closedInv_sendRest hc hd ready (Nat.le_refl _)

theorem closedInv_retransmit {s u : Machine.State} (hc : ClosedInv s) (state : s.snd.sstate = .watching)
    {expired : List Nat}
    (sent : sendWindow s.now ((s.setLastPoll s.now).enterRetransmission expired) = .ok u) :
    ClosedInv u.leaveRetransmission := by
  have hd : s.snd.sstate ≠ .done := by simp [state]
  obtain ⟨-, period, -⟩ := hc.machine.senderConfig hc.built
  have pass := sendWindow_of_wf (s := (s.setLastPoll s.now).enterRetransmission expired) s.now
    (Nat.pos_iff_ne_zero.mp period) hc.machine.stores hc.machine.ackedBelowBase
  cases pass.symm.trans sent
  have machine : MachineInv (senderWrites s
      ((s.setLastPoll s.now).enterRetransmission expired).leaveRetransmission) :=
    machineInv_congr (machineInv_setLastPoll hc.machine s.now) rfl rfl
      (by simp [senderWrites, ← state]) rfl rfl rfl fun _ => .inl
  have ready := sentBelow_base machine nofun (flags_clear hc.machine hd).1 hc.acks rfl hc.stampsPast
  exact closedInv_sendRest hc hd ready (Nat.le_refl _)

/-- The poll that finds no slot expired leaves none: the interval has not passed over any stamp (R185,
R192). -/
theorem closedInv_quietPoll {s : Machine.State} (hc : ClosedInv s) (state : s.snd.sstate = .watching)
    (quiet : arbitrate s.now s = .ok []) : ClosedInv (s.setLastPoll s.now) := by
  have stamped := hc.stamped (by simp [state])
  have none : expiredSlots s.now s = [] :=
    Except.ok.inj ((arbitrate_of_stamps stamped).symm.trans quiet)
  exact { hc with
    machine := machineInv_setLastPoll hc.machine _
    polled := ⟨Nat.le_refl _, fun _ => Nat.le_add_right _ _⟩
    unexpired := fun _ i t hi he (ht : stampOf s i = some t) => by
      have young := List.filter_eq_nil_iff.mp none i (mem_activeWindow.mpr ⟨hi, he⟩)
      rw [ht, Option.any_some, decide_eq_true_iff] at young
      change s.now ≤ t + s.cfg.timeoutInterval
      omega }

/-- An ack waits only for a sender that watches: none has been sent before the fill (R175). -/
theorem watching_of_ack {s : Machine.State} (hc : ClosedInv s) (state : s.snd.sstate ≠ .done)
    {a : SignedField} {rest : List SignedField} (head : s.ach = a :: rest) :
    s.snd.sstate = .watching := by
  obtain ⟨sliding, retransmitting⟩ := hc.machine.resting
  cases hs : s.snd.sstate with
  | filling => exact absurd ((hc.unfilled hs).2.1.symm.trans head) (List.cons_ne_nil _ _).symm
  | watching => rfl
  | sliding => exact absurd hs sliding
  | retransmitting => exact absurd hs retransmitting
  | done => exact absurd hs state

/-- After an accepted ack the window is sent below its former end (R148, R166). -/
theorem sentBelow_afterAck {s : Machine.State} (hc : ClosedInv s) (state : s.snd.sstate ≠ .done)
    {a : SignedField} {rest : List SignedField} (head : s.ach = a :: rest)
    (inOrder : ackValue a = s.win.base) (slot : s.win.base < s.win.acked.length) :
    SentBelow (windowEnd s) (senderWrites s (afterAck a rest s).settleSState) := by
  have watching := watching_of_ack hc state head
  have filled : s.snd.sstate ≠ .filling := by simp [watching]
  obtain ⟨window, -⟩ := hc.machine.senderConfig hc.built
  obtain ⟨-, -, hlen, -⟩ := hc.machine.stores
  have acks := hc.acks
  rw [head, ackCursor, if_pos inOrder] at acks
  exact {
    machine := machineInv_afterAck hc.machine state slot a rest
    within := by
      change s.win.base + 1 ≤ min (s.win.base + s.cfg.windowSize) s.cfg.totalFrames ∧
        min (s.win.base + s.cfg.windowSize) s.cfg.totalFrames ≤
          min (s.win.base + 1 + s.cfg.windowSize) s.cfg.totalFrames
      omega
    running := settleSState_ne_filling (afterAck a rest s)
    unmarked := (flags_clear hc.machine state).1
    acks := acks
    polled := ⟨hc.polled.1, fun _ => hc.polled.2 watching⟩
    past := hc.stampsPast
    stamped := fun i hi he =>
      have ⟨t, ht, _⟩ := hc.stamped filled i (Nat.le_of_succ_le hi) he
      ⟨t, ht⟩
    ordered := fun i t u hi => hc.stampsOrdered i t u (Nat.le_of_succ_le hi)
    deliverable := hc.deliverable filled
    unexpired := fun _ i t hi => hc.unexpired watching i t (Nat.le_of_succ_le hi) }

theorem sendRest_of_nil {b : Nat} {s : Machine.State} (h : windowFrom b s = []) : sendRest b s = s := by
  rw [sendRest, h, afterPass_nil]

theorem sendRest_of_singleton {b i : Nat} {s : Machine.State} (h : windowFrom b s = [i]) :
    sendRest b s = afterAttempt s.now i s := by rw [sendRest, h, afterAttempt_eq_afterPass]

/-- Where the window stood at the last slot, the slide exposes none (R148). -/
theorem windowFrom_windowEnd_of_last {s t : Machine.State} (hcfg : t.cfg = s.cfg)
    (hb : t.win.base = s.win.base + 1)
    (exposes : s.cfg.totalFrames ≤ s.win.base + 1 + s.cfg.windowSize - 1) :
    windowFrom (windowEnd s) t = [] := by
  have : windowEnd t - windowEnd s = 0 := by
    simp only [windowEnd, winEnd, hcfg, hb]
    omega
  rw [windowFrom, this, List.range'_zero]

/-- Elsewhere it exposes the slot at the window's former end (R148). -/
theorem windowFrom_windowEnd_of_slide {s t : Machine.State} (hcfg : t.cfg = s.cfg)
    (hb : t.win.base = s.win.base + 1)
    (exposes : s.win.base + 1 + s.cfg.windowSize - 1 < s.cfg.totalFrames) :
    windowFrom (windowEnd s) t = [s.win.base + 1 + s.cfg.windowSize - 1] := by
  have hend : windowEnd s = s.win.base + 1 + s.cfg.windowSize - 1 := by
    simp only [windowEnd, winEnd]
    omega
  have : windowEnd t - windowEnd s = 1 := by
    simp only [windowEnd, winEnd, hcfg, hb]
    omega
  rw [windowFrom, this, List.range'_one, hend]

/-- An accepted ack slides the window by one slot and attempts what the slide exposes (R166). -/
theorem closedInv_afterAck {s : Machine.State} (hc : ClosedInv s) (state : s.snd.sstate ≠ .done)
    {a : SignedField} {rest : List SignedField} (head : s.ach = a :: rest)
    (inOrder : ackValue a = s.win.base) (slot : s.win.base < s.win.acked.length) :
    ClosedInv (sendRest (windowEnd s) (senderWrites s (afterAck a rest s).settleSState)) :=
  have ready := sentBelow_afterAck hc state head inOrder slot
  closedInv_sendRest hc state ready ready.within.2

theorem closedInv_ackLast {s : Machine.State} (hc : ClosedInv s) (state : s.snd.sstate ≠ .done)
    {a : SignedField} {rest : List SignedField} (head : s.ach = a :: rest)
    (inOrder : ackValue a = s.win.base) (slot : s.win.base < s.win.acked.length)
    (exposes : s.cfg.totalFrames ≤ s.win.base + 1 + s.cfg.windowSize - 1) :
    ClosedInv (afterAck a rest s).settleSState := by
  have none : windowFrom (windowEnd s) (senderWrites s (afterAck a rest s).settleSState) = [] :=
    windowFrom_windowEnd_of_last rfl rfl exposes
  have sent := closedInv_afterAck hc state head inOrder slot
  rw [sendRest_of_nil none] at sent
  exact sent

theorem closedInv_ackSlide {s : Machine.State} (hc : ClosedInv s) (state : s.snd.sstate ≠ .done)
    {a : SignedField} {rest : List SignedField} (head : s.ach = a :: rest)
    (inOrder : ackValue a = s.win.base) (slot : s.win.base < s.win.acked.length)
    (exposes : s.win.base + 1 + s.cfg.windowSize - 1 < s.cfg.totalFrames) :
    ClosedInv (afterAttempt s.now (s.win.base + 1 + s.cfg.windowSize - 1)
      (afterAck a rest s)).settleSState := by
  have one : windowFrom (windowEnd s) (senderWrites s (afterAck a rest s).settleSState) =
      [s.win.base + 1 + s.cfg.windowSize - 1] := windowFrom_windowEnd_of_slide rfl rfl exposes
  have sent := closedInv_afterAck hc state head inOrder slot
  rw [sendRest_of_singleton one] at sent
  exact sent

/-- An ack that is not `base` repeats one already counted (R80, R168). -/
theorem ackCursor_ignore {b e : Nat} {a : SignedField} {rest : List SignedField}
    (h : ackCursor b (a :: rest) = some e) (other : ackValue a ≠ b) : ackCursor b rest = some e := by
  rw [ackCursor, if_neg other] at h
  split at h
  · exact h
  · cases h

theorem closedInv_ackIgnore {s : Machine.State} (hc : ClosedInv s) {a : SignedField}
    {rest : List SignedField} (head : s.ach = a :: rest) (other : ackValue a ≠ s.win.base)
    (log : List LogRecord) : ClosedInv { s with ach := rest, log := log } :=
  { hc with
    machine := { hc.machine with }
    acks := ackCursor_ignore (head ▸ hc.acks) other
    unfilled := fun hf => absurd ((hc.unfilled hf).2.1.symm.trans head) (List.cons_ne_nil _ _).symm }

theorem closedInv_finish {s : Machine.State} (hc : ClosedInv s) (state : s.snd.sstate = .done)
    (unmarked : s.snd.eosPushed = false) (machine : MachineInv
      { s with dch := s.dch ++ [.eos], snd := { s.snd with eosPushed := true } }) :
    ClosedInv { s with dch := s.dch ++ [.eos], snd := { s.snd with eosPushed := true } } :=
  { hc with
    machine := machine
    frames := fun m hm => (List.mem_append.mp hm).elim (hc.frames m) fun h => .inl (List.mem_singleton.mp h)
    firstIsSlotZero := fun he m hm => by
      change (s.dch ++ [DataMsg.eos]).head? = some m at hm
      cases hd : s.dch with
      | nil => rw [hd] at hm; exact .inl (Option.some.inj hm).symm
      | cons x rest => rw [hd] at hm; exact hc.firstIsSlotZero he m (by rw [hd]; exact hm)
    noEosBefore := nofun
    eosLast := fun _ _ => ⟨s.dch, rfl, hc.noEosBefore unmarked⟩
    afterEos := fun hr => absurd (unmarked.symm.trans (hc.afterEos hr).2.1) Bool.false_ne_true
    unfilled := fun hf => absurd (state.symm.trans hf) nofun
    deliverable := fun hf => by
      change _ ≤ dataCursor s.cur.expected (s.dch ++ [.eos]) ∨
        wasDropped s (dataCursor s.cur.expected (s.dch ++ [.eos])) = true
      rw [dataCursor_append]
      exact hc.deliverable hf }

theorem closedInv_advance {s : Machine.State} (hc : ClosedInv s) (d : Nat)
    (contract : d = 0 ∨ s.snd.sstate ≠ .watching ∨ s.now + d ≤ s.snd.lastPoll + s.cfg.pollTick) :
    ClosedInv { s with now := s.now + d } :=
  { hc with
    machine := { hc.machine with }
    stamped := fun hf i hi he =>
      have ⟨t, ht, hle⟩ := hc.stamped hf i hi he
      ⟨t, ht, Nat.le_trans hle (Nat.le_add_right _ _)⟩
    stampsPast := fun i t ht => Nat.le_trans (hc.stampsPast i t ht) (Nat.le_add_right _ _)
    polled := by
      obtain ⟨past, bound⟩ := hc.polled
      refine ⟨Nat.le_trans past (Nat.le_add_right _ _), fun hw => ?_⟩
      obtain rfl | hne | hle := contract
      · exact bound hw
      · exact absurd hw hne
      · exact hle }

/-! ### The receiver's operations keep the closed laws -/

/-- A frame in flight is one of the frame store's, whole (R80, R94). -/
theorem closedInv_head_frame {s : Machine.State} (hc : ClosedInv s) {seq : SeqField} {plen : Nat}
    {payload : BitString} {rest : List DataMsg} (head : s.dch = .frame seq plen payload :: rest) :
    seq.toNat < s.cfg.totalFrames ∧ (1 ≤ plen ∧ plen ≤ s.cfg.payloadBits) ∧
      ∃ f, s.fs[seq.toNat]? = some f ∧ payload.take plen = f.payload := by
  obtain he | ⟨i, hi, hm⟩ := hc.frames (.frame seq plen payload) (head ▸ List.mem_cons_self)
  · cases he
  · obtain ⟨f, hf, hseq, hmsg, hlen⟩ := slotMsg_of_wf hc.machine.stores hi
    cases hm.trans hmsg
    rw [hseq]
    exact ⟨hi, hlen, f, hf, payloadField_take _ f⟩

/-- While nothing has been accepted the head of `DCH` is `F0`, so a frame that is not the expected one
finds the cursor beyond 0 (R161). -/
theorem expected_ne_zero_of_reject {s : Machine.State} (hc : ClosedInv s) {seq : SeqField} {plen : Nat}
    {payload : BitString} {rest : List DataMsg} (head : s.dch = .frame seq plen payload :: rest)
    (other : seq.toNat ≠ s.cur.expected) : s.cur.expected ≠ 0 := by
  intro he
  obtain ⟨hN, -⟩ := closedInv_head_frame hc head
  obtain h | h := hc.firstIsSlotZero he (.frame seq plen payload) (by rw [head]; rfl)
  · cases h
  · obtain ⟨f, -, hseq, hmsg, -⟩ := slotMsg_of_wf hc.machine.stores (Nat.zero_lt_of_lt hN)
    cases h.trans hmsg
    exact other (hseq.trans he.symm)

/-- The receiver takes a frame from the head of `DCH`: where its cursor then stands, the messages behind
the frame carry it as far as before (R139). -/
theorem closedInv_takeFrame {s : Machine.State} (hc : ClosedInv s) {seq : SeqField} {plen : Nat}
    {payload : BitString} {rest : List DataMsg} (head : s.dch = .frame seq plen payload :: rest)
    {cur : ReceiverCursor} {acks : List SignedField}
    (machine : MachineInv { s with dch := rest, cur := cur, ach := acks })
    (below : cur.expected ≤ s.cfg.totalFrames) (started : cur.expected ≠ 0)
    (acked : ackCursor s.win.base acks = some cur.expected)
    (assembled : cur.assembled = (s.fs.take cur.expected).map Frame.payload)
    (carries : dataCursor cur.expected rest = dataCursor s.cur.expected s.dch) :
    ClosedInv { s with dch := rest, cur := cur, ach := acks } := by
  have nonempty : s.dch ≠ [] := by simp [head]
  have tail : ∀ {m}, m ∈ rest → m ∈ s.dch := fun hm => head ▸ List.mem_cons_of_mem _ hm
  exact { hc with
    machine := machine
    cursorBelow := below
    acks := acked
    frames := fun m hm => hc.frames m (tail hm)
    assembledPrefix := assembled
    firstIsSlotZero := fun he => absurd he started
    noEosBefore := fun he hm => hc.noEosBefore he (tail hm)
    eosLast := fun he hr => by
      obtain ⟨ms, hms, hne⟩ := hc.eosLast he hr
      rw [head] at hms
      cases ms with
      | nil => cases hms
      | cons m ms =>
        cases hms
        exact ⟨ms, rfl, fun hm => hne (List.mem_cons_of_mem _ hm)⟩
    afterEos := fun hr => absurd (hc.afterEos hr).1 nonempty
    unfilled := fun hf => absurd (hc.unfilled hf).1 nonempty
    deliverable := fun hf => by
      change _ ≤ dataCursor cur.expected rest ∨ wasDropped s (dataCursor cur.expected rest) = true
      rw [carries]
      exact hc.deliverable hf }

/-- The ack of the slot accepted last counts it (R80, R200). -/
theorem ackCursor_accepted {b e : Nat} {l : List SignedField} (h : ackCursor b l = some e)
    (he : e ≤ 65535) : ackCursor b (l ++ [ackOf e]) = some (e + 1) := by
  rw [ackCursor_append _ h, ackCursor, if_pos (ackValue_ackOf (by omega) (by omega)), ackCursor]

/-- The ack repeated for an unexpected frame counts nothing (R80, R202). -/
theorem ackCursor_repeated {b e : Nat} {l : List SignedField} (h : ackCursor b l = some e)
    (h0 : e ≠ 0) (he : e ≤ 65536) : ackCursor b (l ++ [ackOf ((e : Int) - 1)]) = some e := by
  have value : ackValue (ackOf ((e : Int) - 1)) = (e : Int) - 1 := ackValue_ackOf (by omega) (by omega)
  rw [ackCursor_append _ h, ackCursor, value, if_neg (by omega), if_pos (by omega), ackCursor]

theorem closedInv_accept {s : Machine.State} (hc : ClosedInv s) {seq : SeqField} {plen : Nat}
    {payload : BitString} {rest : List DataMsg} (head : s.dch = .frame seq plen payload :: rest)
    (formed : 1 ≤ plen ∧ plen ≤ s.cfg.payloadBits) (inOrder : seq.toNat = s.cur.expected) :
    ClosedInv { s with
      dch := rest
      cur := { expected := s.cur.expected + 1, assembled := s.cur.assembled ++ [payload.take plen] }
      ach := s.ach ++ [ackOf s.cur.expected] } := by
  obtain ⟨hN, -, f, hf, hpayload⟩ := closedInv_head_frame hc head
  have hseq := seq.isLt
  rw [inOrder] at hN hf hseq
  refine closedInv_takeFrame hc head (machineInv_accept hc.machine head formed inOrder _) hN
    (Nat.succ_ne_zero _) (ackCursor_accepted hc.acks (Nat.le_of_lt_succ hseq)) ?_ ?_
  · rw [List.take_add_one, hf, List.map_append, hc.assembledPrefix, hpayload]
    rfl
  · rw [head, dataCursor, seqValue, if_pos inOrder]

theorem closedInv_reject {s : Machine.State} (hc : ClosedInv s) {seq : SeqField} {plen : Nat}
    {payload : BitString} {rest : List DataMsg} (head : s.dch = .frame seq plen payload :: rest)
    (other : seq.toNat ≠ s.cur.expected) :
    ClosedInv { s with dch := rest, ach := s.ach ++ [ackOf ((s.cur.expected : Int) - 1)] } := by
  have started := expected_ne_zero_of_reject hc head other
  refine closedInv_takeFrame hc head
    { hc.machine with fieldWidths := fieldFits_tail hc.machine head } hc.cursorBelow started
    (ackCursor_repeated hc.acks started hc.machine.cursorBound) hc.assembledPrefix ?_
  rw [head, dataCursor, seqValue, if_neg other]

/-- With the marker at the head the transfer is over: the sender is done, and the receiver has accepted
every slot (R80, R172). -/
theorem transferred_of_eos {s : Machine.State} (hc : ClosedInv s) (state : s.rcv.rstate = .accepting)
    {rest : List DataMsg} (head : s.dch = .eos :: rest) :
    s.snd.eosPushed = true ∧ rest = [] ∧ s.cur.expected = s.cfg.totalFrames := by
  have pushed : s.snd.eosPushed = true := by
    by_contra hp
    exact hc.noEosBefore (Bool.eq_false_iff.mpr hp) (head ▸ List.mem_cons_self)
  obtain ⟨-, base⟩ := hc.machine.doneIff.mp (hc.machine.flags.1 pushed)
  refine ⟨pushed, ?_, Nat.le_antisymm hc.cursorBelow (base ▸ ackCursor_le hc.acks)⟩
  obtain ⟨ms, hms, hne⟩ := hc.eosLast pushed state
  rw [head] at hms
  cases ms with
  | nil => cases hms; rfl
  | cons m ms =>
    cases hms
    exact absurd List.mem_cons_self hne

/-- All the payloads, decoded, are the source (R127, R208). -/
theorem decode_assembled_eq_source {s : Machine.State} (hc : ClosedInv s)
    (all : s.cur.expected = s.cfg.totalFrames) :
    decodePayloads s.cur.assembled = { bytes := s.source, residue := 0 } := by
  obtain ⟨hlen, -⟩ := hc.machine.stores
  apply decodePayloads_of_flatten
  rw [hc.assembledPrefix, all, ← hlen, List.take_length]
  exact encoded_flatten hc.encoded

theorem closedInv_afterFlush {s : Machine.State} (hc : ClosedInv s) (state : s.rcv.rstate = .accepting)
    {rest : List DataMsg} (head : s.dch = .eos :: rest) : ClosedInv (afterFlush rest s) := by
  obtain ⟨pushed, rfl, all⟩ := transferred_of_eos hc state head
  exact { hc with
    machine := { hc.machine with
      writeDoneIff := ⟨fun _ => rfl, fun _ => rfl⟩
      fieldWidths := nofun }
    frames := nofun
    firstIsSlotZero := fun _ => nofun
    noEosBefore := fun _ => nofun
    eosLast := fun _ => nofun
    afterEos := fun _ => ⟨rfl, pushed, by
      change some (decodePayloads s.cur.assembled).bytes = some s.source
      rw [decode_assembled_eq_source hc all]⟩
    beforeEos := nofun
    unfilled := fun hf => absurd ((hc.unfilled hf).1.symm.trans head) (List.cons_ne_nil _ _).symm
    deliverable := fun hf => by
      have := hc.deliverable hf
      rw [head] at this
      exact this }

/-! ### Every operation completes -/

/-- The operations of the closed system: the agents' and the advance of the clock (R225, R226). -/
def IsOperation (i : Instr) : Prop := i ∈ senderOps ++ receiverEngineOps ∨ ∃ d, i = .envAdvance d

theorem mem_operations_of_enabled {i : Instr} {s : Machine.State} (h : i ∈ enabledOps s) :
    i ∈ senderOps ++ receiverEngineOps := by
  by_cases up : s.cfg.cstatus = .ok
  · simp only [enabledOps_up up, mainOps, listenerOps, receiverOps, List.mem_append, mem_offer] at h
    rcases h with ((((⟨-, rfl⟩ | ⟨-, rfl⟩) | ⟨-, rfl⟩) | ⟨-, rfl⟩) |
        (((⟨-, rfl⟩ | ⟨-, rfl⟩) | ⟨-, rfl⟩) | ⟨-, rfl⟩)) |
      ((((⟨-, rfl⟩ | ⟨-, rfl⟩) | ⟨-, rfl⟩) | ⟨-, rfl⟩) | ⟨-, rfl⟩) <;> decide
  · simp [enabledOps_down up] at h

theorem isOperation_of_choice {d : Nat} {i : Instr} {s : Machine.State} (h : i ∈ choices d s) :
    IsOperation i :=
  (List.mem_append.mp h).imp mem_operations_of_enabled fun h => ⟨_, List.mem_singleton.mp h⟩

/-- An operation is no construction and none of the rows that only a script holds (R106; log 7 to log
9). -/
theorem not_script_row_of_isOperation {i : Instr} (h : IsOperation i) :
    (∀ c, i ≠ .sysConstruct c) ∧ isFunctionRow i = false ∧ isDataWord i = false ∧
      isAckWord i = false ∧ isRecordRow i = false := by
  obtain hi | ⟨d, rfl⟩ := h
  · simp only [senderOps, receiverEngineOps, List.cons_append, List.nil_append, List.mem_cons,
      List.not_mem_nil, or_false] at hi
    rcases hi with rfl | rfl | rfl | rfl | rfl | rfl | rfl | rfl | rfl | rfl | rfl | rfl | rfl <;>
      exact ⟨nofun, rfl, rfl, rfl, rfl⟩
  · exact ⟨nofun, rfl, rfl, rfl, rfl⟩

/-- With the engines built an operation completes if its effect answers where its guard holds. -/
theorem runOperation_total {en : Machine.State → Bool}
    {eff : Machine.State → Except Fault Machine.State} {s : Machine.State} (up : s.cfg.cstatus = .ok)
    (h : en s = true → ∃ t, eff s = .ok t) : ∃ t, runOperation en eff s = .next t := by
  cases he : en s with
  | true => exact runOperation_completes up he (h he)
  | false => exact ⟨s, runOperation_disabled up he⟩

theorem txFill_answers {s : Machine.State} (h : MachineInv s) : ∃ t, txFill s = .ok t := by
  simp only [txFill, sendWindow_of_inv h]
  exact ⟨_, rfl⟩

theorem txPoll_answers {s : Machine.State} (h : MachineInv s) (built : s.cfg.senderBuilt = true)
    (stamped : WindowStamped s) : ∃ t, txPoll s = .ok t := by
  obtain ⟨-, period, -⟩ := h.senderConfig built
  have pass := sendWindow_of_wf (s := (s.setLastPoll s.now).enterRetransmission (expiredSlots s.now s))
    s.now (Nat.pos_iff_ne_zero.mp period) h.stores h.ackedBelowBase
  simp only [txPoll, arbitrate_of_stamps stamped, pass]
  split
  · exact ⟨_, rfl⟩
  · exact ⟨_, rfl⟩

/-- Outside `Done` there is a slot `base` to acknowledge, and the slot the slide exposes is one of the
store's (R109, R148, R166). -/
theorem ackAccept_answers {s : Machine.State} (h : MachineInv s) (built : s.cfg.senderBuilt = true)
    (watching : s.snd.sstate = .watching) {a : SignedField} {rest : List SignedField}
    (head : s.ach = a :: rest) : ∃ t, ackAccept s = .ok t := by
  obtain ⟨hfs, -, hacked, hdropped, -⟩ := h.stores
  obtain ⟨-, period, -⟩ := h.senderConfig built
  have hbase : s.win.base ≠ s.cfg.totalFrames := fun hb => by
    have := h.doneIff.mpr ⟨by simp [watching], hb⟩
    simp [watching] at this
  have hle := h.baseBound
  rw [ackAccept_cons head, if_pos (by omega), xmitExposed]
  cases hs : slideSlot (afterAck a rest s).win.base (afterAck a rest s).cfg.windowSize
      (afterAck a rest s).cfg.totalFrames with
  | none => exact ⟨_, rfl⟩
  | some i =>
    obtain ⟨-, hi⟩ := slideSlot_eq_some.mp hs
    change i < s.cfg.totalFrames at hi
    have sent := xmit_of_slot (s := afterAck a rest s) s.now (hdropped.symm ▸ hi) (hfs.symm ▸ hi)
      (Nat.pos_iff_ne_zero.mp period)
    simp only [sent]
    exact ⟨_, rfl⟩

/-- No operation of the closed system stops: every one answers a next state (R256). -/
theorem operation_completes {i : Instr} {s : Machine.State} (hc : ClosedInv s) (hi : IsOperation i) :
    ∃ t, exec i s = .next t := by
  have up := hc.constructed
  cases i with
  | envAdvance d => exact runOperation_total (en := envAdvanceEnabled d) up fun _ => ⟨_, rfl⟩
  | txFill => exact runOperation_total up fun _ => txFill_answers hc.machine
  | txPoll =>
    refine runOperation_total up fun on => txPoll_answers hc.machine hc.built (hc.stamped ?_)
    simp [(txPollEnabled_iff.mp on).2]
  | txFinish => exact runOperation_total up fun _ => ⟨_, rfl⟩
  | txJoin => exact runOperation_total up fun _ => ⟨_, rfl⟩
  | txaAckAccept =>
    refine runOperation_total up fun on => ?_
    obtain ⟨⟨-, -, state⟩, a, rest, head, -⟩ := txaAckAcceptEnabled_iff.mp on
    exact ackAccept_answers hc.machine hc.built (watching_of_ack hc state head) head
  | txaAckIgnore =>
    refine runOperation_total up fun on => ?_
    obtain ⟨-, a, rest, head, -⟩ := txaAckIgnoreEnabled_iff.mp on
    simp only [ackIgnore, deqAck_cons head]
    exact ⟨_, rfl⟩
  | txaIdle => exact runOperation_total up fun _ => ⟨_, rfl⟩
  | txaStop => exact runOperation_total up fun _ => ⟨_, rfl⟩
  | rxAccept =>
    refine runOperation_total up fun on => ?_
    obtain ⟨-, seq, plen, payload, rest, head, -⟩ := rxAcceptEnabled_iff.mp on
    simp only [rxAccept, deqData_cons head]
    exact ⟨_, rfl⟩
  | rxReject =>
    refine runOperation_total up fun on => ?_
    obtain ⟨-, seq, plen, payload, rest, head, -⟩ := rxRejectEnabled_iff.mp on
    simp only [rxReject, deqData_cons head]
    exact ⟨_, rfl⟩
  | rxEos =>
    refine runOperation_total up fun on => ?_
    obtain ⟨-, rest, head⟩ := rxEosEnabled_iff.mp on
    exact ⟨_, rxEos_cons head⟩
  | rxMalformed =>
    refine runOperation_total up fun on => ?_
    obtain ⟨-, seq, plen, payload, rest, head, -⟩ := rxMalformedEnabled_iff.mp on
    simp only [rxMalformed, deqData_cons head]
    exact ⟨_, rfl⟩
  | rxIdle => exact runOperation_total up fun _ => ⟨_, rfl⟩
  | _ => simp [IsOperation, senderOps, receiverEngineOps] at hi

/-! ### Every operation keeps the closed laws -/

/-- Whatever operation of the closed system answers a next state, the laws hold there, by the cases of
`Effect`. -/
theorem effect_closedInv {i : Instr} {s t : Machine.State} (h : Effect s i t) (hi : IsOperation i)
    (hc : ClosedInv s) : ClosedInv t := by
  obtain ⟨construction, function, dataWord, ackWord, recordRow⟩ := not_script_row_of_isOperation hi
  have machine := (effect_attempts h hc.machine construction).machineInv
  cases h with
  | construct => exact absurd rfl (construction _)
  | constructAlone => exact absurd rfl (construction _)
  | waits => exact hc
  | advance d _ contract => exact closedInv_advance hc d contract
  | fill _ _ state u sent => exact closedInv_fill hc state sent
  | quietPoll _ _ state quiet => exact closedInv_quietPoll hc state quiet
  | retransmit _ _ state _ _ _ u sent => exact closedInv_retransmit hc state sent
  | finish _ _ state unmarked => exact closedInv_finish hc state unmarked machine
  | join => exact { hc with machine := machine }
  | ackLast _ _ _ state a rest head inOrder slot exposes =>
    exact closedInv_ackLast hc state head inOrder slot exposes
  | ackSlide _ _ _ state a rest head inOrder slot exposes =>
    exact closedInv_ackSlide hc state head inOrder slot exposes
  | ackIgnore _ _ _ _ a rest head other => exact closedInv_ackIgnore hc head other _
  | listenerIdle => exact hc
  | listenerStop => exact { hc with machine := machine }
  | accept _ _ _ _ _ _ head formed inOrder => exact closedInv_accept hc head formed inOrder
  | reject _ _ _ _ _ _ head _ other => exact closedInv_reject hc head other
  | endOfStream _ state _ head => exact closedInv_afterFlush hc state head
  | malformed _ _ _ _ _ _ head malformed =>
    obtain ⟨-, formed, -⟩ := closedInv_head_frame hc head
    exact absurd formed malformed
  | receiverIdle => exact hc
  | function _ row => exact absurd (function.symm.trans row) Bool.false_ne_true
  | attempt => simp [IsOperation, senderOps, receiverEngineOps] at hi
  | window => simp [IsOperation, senderOps, receiverEngineOps] at hi
  | dataWord _ _ row => exact absurd (dataWord.symm.trans row) Bool.false_ne_true
  | ackWord _ _ row => exact absurd (ackWord.symm.trans row) Bool.false_ne_true
  | recordRow _ _ row => exact absurd (recordRow.symm.trans row) Bool.false_ne_true

/-- No schedule leaves the laws of the closed system: every operation completes, and keeps them. -/
theorem operation_closedInv {i : Instr} {s : Machine.State} (hc : ClosedInv s) (hi : IsOperation i) :
    ∃ t, exec i s = .next t ∧ ClosedInv t := by
  obtain ⟨t, ht⟩ := operation_completes hc hi
  exact ⟨t, ht, effect_closedInv (exec_next ht) hi hc⟩

/-- With no script a step is the free schedule's choice, taken with its counter moved on (log 4). -/
theorem step_of_script_nil {s : Machine.State} (h : s.script = []) :
    step s = exec (freeChoice s) { s with turn := s.turn + 1 } := by
  have hf : fetch s = none := by simp only [fetch, h]
  simp only [step, hf]
  rfl

/-! ### The statements of the channels and the closed laws -/

/-- Settles O51: every choice, the free schedule's among them, is an operation of the closed system, and
each of these completes and keeps the laws. -/
theorem everyScheduleKeepsTheClosedLaws : Obligations.EveryScheduleKeepsTheClosedLaws := by
  refine ⟨fun s d i hc hi => operation_closedInv hc (isOperation_of_choice hi), fun s hc hs => ?_⟩
  have hi := isOperation_of_choice (freeChoice_mem s)
  have hc' : ClosedInv { s with turn := s.turn + 1 } := { hc with machine := { hc.machine with } }
  obtain ⟨t, ht, hct⟩ := operation_closedInv hc' hi
  have script := effect_script (exec_next ht) (not_script_row_of_isOperation hi).1
  exact ⟨t, (step_of_script_nil hs).trans ht, hct, script.trans hs⟩

/-- Settles O41, by the cases of `Effect`. -/
theorem channelsAreFirstInFirstOut : Obligations.ChannelsAreFirstInFirstOut := by
  intro i s t h hc
  exact ⟨effect_dch (exec_next h) hc, effect_ach (exec_next h) hc⟩

end Sys2Proof.Proofs

/-! SUPPORT. The encodings (spec 30): the words of the four formats read back, the two directions of the
round trip between instructions and bytes, and the operation R109 gives each agent. -/

namespace Sys2Proof.Proofs

open Sys2Proof.Machine Sys2Proof.Laws

/-! ### The words of the formats -/

/-- The fields of a `DM` word stand where `decodeDm` looks for them (R93). -/
theorem decodeDm_dmWord {kind : Nat} (hk : kind < 2) (seq : SeqField) {plen : Nat} (payload : BitString)
    (hp : plen < 2 ^ plenWidth payload.length) :
    decodeDm payload.length (dmWord kind seq plen payload) =
      if kind = 0 then .msgFrame seq plen payload else .msgEos seq plen payload := by
  have abovePayload : dmWord kind seq plen payload / 2 ^ payload.length =
      (kind * 2 ^ Config.seqWidth + seq.toNat) * 2 ^ plenWidth payload.length + plen :=
    field_div (bitsToNat_lt payload)
  have abovePlen : dmWord kind seq plen payload / 2 ^ (payload.length + plenWidth payload.length) =
      kind * 2 ^ Config.seqWidth + seq.toNat := by
    rw [Nat.pow_add, ← Nat.div_div_eq_div_mul, abovePayload, field_div hp]
  have aboveSeq : dmWord kind seq plen payload /
      2 ^ (payload.length + plenWidth payload.length + Config.seqWidth) = kind := by
    rw [Nat.pow_add, ← Nat.div_div_eq_div_mul, abovePlen, field_div seq.isLt]
  have payloadField : natToBits payload.length (dmWord kind seq plen payload) = payload :=
    natToBits_field _ payload
  have seqField : BitVec.ofNat 16 (kind * 2 ^ Config.seqWidth + seq.toNat) = seq :=
    BitVec.eq_of_toNat_eq (field_mod seq.isLt)
  simp only [decodeDm, payloadField, abovePayload, abovePlen, aboveSeq, field_mod hp, seqField,
    Nat.mod_eq_of_lt hk]

/-- And so do those of an `F` word (R91). -/
theorem decodeF_frameWord (seq : SeqField) (payload : BitString) :
    decodeF payload.length (frameWord seq payload) = .fmtFrameF seq payload := by
  have payloadField : natToBits payload.length (frameWord seq payload) = payload :=
    natToBits_field _ payload
  have seqField : frameWord seq payload / 2 ^ payload.length = seq.toNat :=
    field_div (bitsToNat_lt payload)
  simp only [decodeF, payloadField, seqField, BitVec.ofNat_toNat, BitVec.setWidth_eq]

/-- An `F` word is the word of the frame it is read as. -/
theorem frameWord_fields {n w : Nat} (h : w < 2 ^ (Config.seqWidth + n)) :
    frameWord (BitVec.ofNat 16 (w / 2 ^ n)) (natToBits n w) = w := by
  have seqField : w / 2 ^ n < 2 ^ 16 := by
    rw [Nat.div_lt_iff_lt_mul (Nat.two_pow_pos n), ← Nat.pow_add]
    exact h
  rw [frameWord, natToBits_length, bitsToNat_natToBits, BitVec.toNat_ofNat, Nat.mod_eq_of_lt seqField,
    Nat.div_add_mod']

theorem decodeAm_of_slot (slot : SeqField) : decodeAm slot.toNat = .msgAck slot := by
  have hs : slot.toNat < 2 ^ 16 := slot.isLt
  rw [decodeAm, if_pos hs, BitVec.ofNat_toNat, BitVec.setWidth_eq]

theorem decodeAm_of_unexpected {low : SeqField} (h : low ≠ 0xFFFF) :
    decodeAm (2 ^ 16 + low.toNat) = .msgAckUnexpected low := by
  have notOnes : low.toNat ≠ 0xFFFF := fun hl => h (BitVec.eq_of_toNat_eq hl)
  have lowField : BitVec.ofNat 16 (2 ^ 16 + low.toNat) = low := by
    apply BitVec.eq_of_toNat_eq
    rw [BitVec.toNat_ofNat, Nat.add_mod_left, Nat.mod_eq_of_lt low.isLt]
  rw [decodeAm, if_neg (by omega), if_neg (by omega), lowField]

/-- The instruction an `AM` word is read as is well-formed, and its bytes are that word's (R97). -/
theorem encode_decodeAm {w : Nat} (h : w < 2 ^ 17) :
    (decodeAm w).wellFormed = true ∧ encode (decodeAm w) = 0x22 :: writeNat w := by
  unfold decodeAm
  split
  · rename_i hw
    refine ⟨rfl, ?_⟩
    rw [encode, BitVec.toNat_ofNat, Nat.mod_eq_of_lt hw]
  · split
    · rename_i hw
      exact ⟨rfl, by rw [hw, encode]⟩
    · have lowField : (BitVec.ofNat 16 w).toNat = w - 2 ^ 16 := by
        rw [BitVec.toNat_ofNat]
        omega
      refine ⟨?_, ?_⟩
      · have notOnes : BitVec.ofNat 16 w ≠ 0xFFFF := fun hw => by
          have := congrArg BitVec.toNat hw
          simp at this
          omega
        simpa [Instr.wellFormed] using notOnes
      · rw [encode, lowField, Nat.add_sub_cancel' (by omega)]

/-- The record row a code of R100 names. -/
def recordRow (code : Nat) (val : SignedField) : Instr :=
  match code with
  | 0 => .logSent val
  | 1 => .logDropped val
  | 2 => .logAckAccepted val
  | 3 => .logAckIgnored val
  | 4 => .logTimeout val
  | 5 => .logWriteDone val
  | 6 => .logFault val
  | _ => .logReserved val

theorem decodeLr_eq_recordRow (w : Nat) :
    decodeLr w = recordRow (w / 2 ^ 17 % 8) (BitVec.ofNat 17 w) := rfl

theorem decodeLr_logWord {code : Nat} (h : code < 8) (val : SignedField) :
    decodeLr (logWord code val) = recordRow code val := by
  have codeField : logWord code val / 2 ^ 17 = code := field_div val.isLt
  have valField : BitVec.ofNat 17 (logWord code val) = val :=
    BitVec.eq_of_toNat_eq (field_mod val.isLt)
  rw [decodeLr_eq_recordRow, codeField, valField, Nat.mod_eq_of_lt h]

theorem logWord_lt {code : Nat} (h : code < 8) (val : SignedField) : logWord code val < 2 ^ 20 := by
  have := val.isLt
  unfold logWord
  omega

theorem encode_recordRow {code : Nat} (h : code < 8) (val : SignedField) :
    (recordRow code val).wellFormed = true ∧
      encode (recordRow code val) = 0x23 :: writeNat (logWord code val) := by
  interval_cases code <;> exact ⟨rfl, rfl⟩

/-- The instruction an `LR` word is read as is well-formed, and its bytes are that word's (R100). -/
theorem encode_decodeLr {w : Nat} (h : w < 2 ^ 20) :
    (decodeLr w).wellFormed = true ∧ encode (decodeLr w) = 0x23 :: writeNat w := by
  have word : logWord (w / 2 ^ 17 % 8) (BitVec.ofNat 17 w) = w := by
    unfold logWord
    rw [BitVec.toNat_ofNat]
    omega
  have row := encode_recordRow (Nat.mod_lt (w / 2 ^ 17) (by decide)) (BitVec.ofNat 17 w)
  rwa [word] at row

/-! ### Decoding an encoded instruction -/

theorem decode_cons (b : Byte) (bs : List Byte) : decode (b :: bs) = decodeAfter b.toNat bs := rfl

theorem decodeAfter_dmBytes {l w : Nat} (hl : 1 ≤ l) (hw : w < 2 ^ dmWidth l) (rest : List Byte) :
    decodeAfter 0x20 (writePos l ++ (writeNat w ++ rest)) = .ok (decodeDm l w, rest) := by
  simp [decodeAfter, hl, hw]

theorem decodeAfter_fBytes {n w : Nat} (hn : 1 ≤ n) (hw : w < 2 ^ (Config.seqWidth + n))
    (rest : List Byte) :
    decodeAfter 0x21 (writePos n ++ (writeNat w ++ rest)) = .ok (decodeF n w, rest) := by
  simp only [decodeAfter, readPos_writePos hn, thenRead_ok, readWord_writeNat hw]

theorem decodeAfter_amBytes {w : Nat} (hw : w < 2 ^ 17) (rest : List Byte) :
    decodeAfter 0x22 (writeNat w ++ rest) = .ok (decodeAm w, rest) := by
  simp only [decodeAfter, thenRead_ok, readWord_writeNat hw]

theorem decodeAfter_lrBytes {code : Nat} (h : code < 8) (val : SignedField) (rest : List Byte) :
    decodeAfter 0x23 (writeNat (logWord code val) ++ rest) = .ok (recordRow code val, rest) := by
  simp only [decodeAfter, thenRead_ok, readWord_writeNat (logWord_lt h val), decodeLr_logWord h]

/-- A `DM` word with its width in front is read as the message it was written for (R93). -/
theorem decode_dmMessage {kind : Nat} (hk : kind < 2) (seq : SeqField) {plen : Nat}
    {payload : BitString} (fits : dmFieldsFit plen payload.length = true) (rest : List Byte) :
    decode (0x20 :: (writePos payload.length ++ writeNat (dmWord kind seq plen payload)) ++ rest) =
      .ok (if kind = 0 then .msgFrame seq plen payload else .msgEos seq plen payload, rest) := by
  obtain ⟨hl, hp⟩ : 1 ≤ payload.length ∧ plen < 2 ^ plenWidth payload.length := by
    simpa [dmFieldsFit] using fits
  rw [← decodeDm_dmWord hk seq payload hp, List.cons_append, List.append_assoc]
  exact decodeAfter_dmBytes hl (dmWord_lt seq payload hk hp) rest

/-- Reading what was written gives the instruction back: the operands of the labels by their readers, the
words of the formats by their fields. -/
theorem decode_encode (i : Instr) (rest : List Byte) (h : i.wellFormed = true) :
    decode (encode i ++ rest) = .ok (i, rest) := by
  cases i with
  | msgFrame seq plen payload => exact decode_dmMessage (kind := 0) (by decide) seq h rest
  | msgEos seq plen payload => exact decode_dmMessage (kind := 1) (by decide) seq h rest
  | fmtFrameF seq payload =>
    have word := decodeAfter_fBytes (by simpa [Instr.wellFormed] using h) (frameWord_lt seq payload) rest
    rw [decodeF_frameWord, ← List.append_assoc] at word
    exact word
  | msgAck slot =>
    have word := decodeAfter_amBytes (w := slot.toNat) (by omega) rest
    rw [decodeAm_of_slot] at word
    exact word
  | msgAckNone => exact decodeAfter_amBytes (w := 0x1FFFF) (by decide) rest
  | msgAckUnexpected low =>
    have word := decodeAfter_amBytes (w := 2 ^ 16 + low.toNat) (by omega) rest
    rw [decodeAm_of_unexpected (by simpa [Instr.wellFormed] using h)] at word
    exact word
  | logSent val => exact decodeAfter_lrBytes (code := 0) (by decide) val rest
  | logDropped val => exact decodeAfter_lrBytes (code := 1) (by decide) val rest
  | logAckAccepted val => exact decodeAfter_lrBytes (code := 2) (by decide) val rest
  | logAckIgnored val => exact decodeAfter_lrBytes (code := 3) (by decide) val rest
  | logTimeout val => exact decodeAfter_lrBytes (code := 4) (by decide) val rest
  | logWriteDone val => exact decodeAfter_lrBytes (code := 5) (by decide) val rest
  | logFault val => exact decodeAfter_lrBytes (code := 6) (by decide) val rest
  | logReserved val => exact decodeAfter_lrBytes (code := 7) (by decide) val rest
  | lossShouldDrop slot first period =>
    have hp : 1 ≤ period := by simpa [Instr.wellFormed] using h
    simp [encode, decode_cons, decodeAfter, hp]
  | winRange base window frames =>
    have hw : 1 ≤ window := by simpa [Instr.wellFormed] using h
    simp [encode, decode_cons, decodeAfter, hw]
  | winSlideSlot base window frames =>
    have hw : 1 ≤ window := by simpa [Instr.wellFormed] using h
    simp [encode, decode_cons, decodeAfter, hw]
  | _ => simp [encode, decode_cons, decodeAfter]

/-- Settles O2: the readers take back what the writers wrote, and the words their fields. -/
theorem decodeOfEncodeIsTheInstruction : Obligations.DecodeOfEncodeIsTheInstruction := decode_encode

/-! ### Bytes that decode are an encoding -/

/-- What stands behind a leading byte that decodes is that byte's row, well-formed and spelt in its only
way (R108; log 2). -/
theorem encode_of_decodeAfter {b : Byte} {bs rest : List Byte} {i : Instr}
    (h : decodeAfter b.toNat bs = .ok (i, rest)) : i.wellFormed = true ∧ encode i ++ rest = b :: bs := by
  obtain ⟨head, hb⟩ : ∃ head, b.toNat = head := ⟨_, rfl⟩
  obtain rfl : b = BitVec.ofNat 8 head := by rw [← hb, BitVec.ofNat_toNat, BitVec.setWidth_eq]
  rw [hb] at h
  clear hb
  unfold decodeAfter at h
  split at h
  case h_1 => -- `SYS.CONSTRUCT`
    obtain ⟨c, r, hc, h⟩ := thenRead_eq_ok h
    cases h
    exact ⟨rfl, congrArg _ (writeConstruction_of_readConstruction hc)⟩
  case h_2 | h_21 | h_24 => -- `ENV.ADVANCE`, `SEQ.XMIT`, `TMO.ARB`: one number
    obtain ⟨n, r, hn, h⟩ := thenRead_eq_ok h
    cases h
    exact ⟨rfl, congrArg _ (writeNat_of_readNat _ _ _ hn)⟩
  case h_16 => -- `CODEC.ENCODE`
    obtain ⟨source, r, hs, h⟩ := thenRead_eq_ok h
    obtain ⟨capacity, r', hc, h⟩ := thenRead_eq_ok h
    cases h
    exact ⟨rfl, by simp [encode, ← writeBytes_of_readBytes hs, ← writeNat_of_readNat _ _ _ hc]⟩
  case h_17 => -- `CODEC.DECODE`
    obtain ⟨payloads, r, hp, h⟩ := thenRead_eq_ok h
    cases h
    exact ⟨rfl, congrArg _ (writeBitsList_of_readBitsList hp)⟩
  case h_18 => -- `LOSS.SHOULD_DROP`
    obtain ⟨slot, r, hs, h⟩ := thenRead_eq_ok h
    obtain ⟨first, r', hf, h⟩ := thenRead_eq_ok h
    obtain ⟨period, r'', hp, h⟩ := thenRead_eq_ok h
    cases h
    obtain ⟨atLeastOne, hp⟩ := writePos_of_readPos hp
    exact ⟨decide_eq_true atLeastOne, by
      simp [encode, ← writeNat_of_readNat _ _ _ hs, ← writeBool_of_readBool hf, ← hp]⟩
  case h_19 | h_20 => -- `WIN.RANGE`, `WIN.SLIDE_SLOT`
    obtain ⟨base, r, hb, h⟩ := thenRead_eq_ok h
    obtain ⟨window, r', hw, h⟩ := thenRead_eq_ok h
    obtain ⟨frames, r'', hf, h⟩ := thenRead_eq_ok h
    cases h
    obtain ⟨atLeastOne, hw⟩ := writePos_of_readPos hw
    exact ⟨decide_eq_true atLeastOne, by
      simp [encode, ← writeNat_of_readNat _ _ _ hb, ← hw, ← writeNat_of_readNat _ _ _ hf]⟩
  case h_23 => -- `TMO.EXPIRED`
    obtain ⟨slot, r, hs, h⟩ := thenRead_eq_ok h
    obtain ⟨t, r', ht, h⟩ := thenRead_eq_ok h
    cases h
    exact ⟨rfl, by simp [encode, ← writeNat_of_readNat _ _ _ hs, ← writeNat_of_readNat _ _ _ ht]⟩
  case h_25 => -- `LOG.RECORD`
    obtain ⟨kind, r, hk, h⟩ := thenRead_eq_ok h
    obtain ⟨val, r', hv, h⟩ := thenRead_eq_ok h
    cases h
    exact ⟨rfl, by simp [encode, ← writeLogKind_of_readLogKind hk, ← writeSigned_of_readSigned hv]⟩
  case h_26 => -- a `DM` word
    obtain ⟨l, r, hl, h⟩ := thenRead_eq_ok h
    obtain ⟨w, r', hw, h⟩ := thenRead_eq_ok h
    cases h
    obtain ⟨atLeastOne, rfl⟩ := writePos_of_readPos hl
    obtain ⟨below, rfl⟩ := writeNat_of_readWord hw
    obtain ⟨wf, bytes⟩ := encode_decodeDm atLeastOne below
    exact ⟨wf, bytes rest⟩
  case h_27 => -- an `F` word
    obtain ⟨n, r, hn, h⟩ := thenRead_eq_ok h
    obtain ⟨w, r', hw, h⟩ := thenRead_eq_ok h
    cases h
    obtain ⟨atLeastOne, rfl⟩ := writePos_of_readPos hn
    obtain ⟨below, rfl⟩ := writeNat_of_readWord hw
    exact ⟨by simpa [decodeF, Instr.wellFormed] using atLeastOne, by
      simp [decodeF, encode, frameWord_fields below]⟩
  case h_28 => -- an `AM` word
    obtain ⟨w, r, hw, h⟩ := thenRead_eq_ok h
    cases h
    obtain ⟨below, rfl⟩ := writeNat_of_readWord hw
    obtain ⟨wf, bytes⟩ := encode_decodeAm below
    exact ⟨wf, by rw [bytes]; rfl⟩
  case h_29 => -- an `LR` word
    obtain ⟨w, r, hw, h⟩ := thenRead_eq_ok h
    cases h
    obtain ⟨below, rfl⟩ := writeNat_of_readWord hw
    obtain ⟨wf, bytes⟩ := encode_decodeLr below
    exact ⟨wf, by rw [bytes]; rfl⟩
  case h_30 => cases h -- no row has any other leading byte
  -- the labels without operands
  all_goals
    cases h
    exact ⟨rfl, rfl⟩

/-- Settles O3, by the leading byte. -/
theorem decodedBytesAreTheEncoding : Obligations.DecodedBytesAreTheEncoding := by
  intro bs rest i h
  cases bs with
  | nil => cases h
  | cons b bs => exact encode_of_decodeAfter h

/-! ### Labels no row has -/

/-- Every instruction's bytes begin with a label R108 uses or with a format byte. -/
theorem leadByte (i : Instr) : LeadByte.Statement i :=
  match i with
  | .sysConstruct c => LeadByte.sysConstruct c
  | .envAdvance d => LeadByte.envAdvance d
  | .txFill => LeadByte.txFill
  | .txPoll => LeadByte.txPoll
  | .txFinish => LeadByte.txFinish
  | .txJoin => LeadByte.txJoin
  | .txaAckAccept => LeadByte.txaAckAccept
  | .txaAckIgnore => LeadByte.txaAckIgnore
  | .txaIdle => LeadByte.txaIdle
  | .txaStop => LeadByte.txaStop
  | .rxAccept => LeadByte.rxAccept
  | .rxReject => LeadByte.rxReject
  | .rxEos => LeadByte.rxEos
  | .rxMalformed => LeadByte.rxMalformed
  | .rxIdle => LeadByte.rxIdle
  | .codecEncode source capacity => LeadByte.codecEncode source capacity
  | .codecDecode payloads => LeadByte.codecDecode payloads
  | .lossShouldDrop slot first period => LeadByte.lossShouldDrop slot first period
  | .winRange base window frames => LeadByte.winRange base window frames
  | .winSlideSlot base window frames => LeadByte.winSlideSlot base window frames
  | .seqXmit slot => LeadByte.seqXmit slot
  | .seqSendWindow => LeadByte.seqSendWindow
  | .tmoExpired slot t => LeadByte.tmoExpired slot t
  | .tmoArb t => LeadByte.tmoArb t
  | .logRecord kind val => LeadByte.logRecord kind val
  | .msgFrame seq plen payload => LeadByte.msgFrame seq plen payload
  | .msgEos seq plen payload => LeadByte.msgEos seq plen payload
  | .fmtFrameF seq payload => LeadByte.fmtFrameF seq payload
  | .msgAck slot => LeadByte.msgAck slot
  | .msgAckNone => LeadByte.msgAckNone
  | .msgAckUnexpected low => LeadByte.msgAckUnexpected low
  | .logSent val => LeadByte.logSent val
  | .logDropped val => LeadByte.logDropped val
  | .logAckAccepted val => LeadByte.logAckAccepted val
  | .logAckIgnored val => LeadByte.logAckIgnored val
  | .logTimeout val => LeadByte.logTimeout val
  | .logWriteDone val => LeadByte.logWriteDone val
  | .logFault val => LeadByte.logFault val
  | .logReserved val => LeadByte.logReserved val

/-- "Labels `0F` and `1A` to `1F` are unused" (R108). -/
theorem decodeAfter_unusedLabel {label : Nat} (h : label = 0x0F ∨ (0x1A ≤ label ∧ label ≤ 0x1F))
    (bs : List Byte) : decodeAfter label bs = .error (.unusedLabel label) := by
  obtain rfl | ⟨low, high⟩ := h
  · rfl
  · interval_cases label <;> rfl

/-- Settles O4: the decoder has no row for these labels, and no row begins with one. -/
theorem unusedLabelsAreRejected : Obligations.UnusedLabelsAreRejected := by
  intro b bs unused
  refine ⟨decodeAfter_unusedLabel unused bs, fun i hi => ?_⟩
  obtain ⟨b', bs', bytes, used⟩ := leadByte i
  obtain ⟨rfl, -⟩ := List.cons.inj (bytes.symm.trans hi)
  omega

/-! ### The spec's own words -/

/-- Settles O1: the words are closed, and the model's decoder reads each. -/
theorem decodeReadsTheSpecsWords : Obligations.DecodeReadsTheSpecsWords := by
  unfold Obligations.DecodeReadsTheSpecsWords
  refine ⟨?_, ?_, ?_, ?_, ?_, ?_, ?_, ?_, ?_, ?_, ?_, ?_, ?_, ?_⟩ <;> decide +kernel

/-! ### Words executed as injections -/

section
variable {s : Machine.State} (up : s.cfg.cstatus = .ok)
include up

/-- A message of the channel's width joins the tail of `DCH` (R90, R106). -/
theorem injectData_of_width {width : Nat} (h : width = s.cfg.payloadBits) (m : DataMsg) :
    injectData width m s = .next { s with dch := s.dch ++ [m] } := by
  rw [injectData, onEngine_up up, if_pos h]
  rfl

theorem injectData_of_otherWidth {width : Nat} (h : width ≠ s.cfg.payloadBits) (m : DataMsg) :
    injectData width m s = .fault .messageWidthMismatch := by
  rw [injectData, onEngine_up up, if_neg h]
  rfl

/-- An ack of the field's range joins the tail of `ACH`, and is read there as the number it was (R97). -/
theorem injectAck_ackOf {v : Int} (low : -65536 ≤ v) (high : v ≤ 65535) :
    ∃ a : SignedField, a.toInt = v ∧ injectAck (ackOf v) s = .next { s with ach := s.ach ++ [a] } := by
  refine ⟨ackOf v, ackValue_ackOf low high, ?_⟩
  rw [injectAck, onEngine_up up]
  rfl

/-- A frame in format `F` of at most `L` payload bits joins as its `FRAME` message (R90, R94). -/
theorem execFmtFrameF_of_fits {payload : BitString} (h : payload.length ≤ s.cfg.payloadBits)
    (seq : SeqField) : execFmtFrameF seq payload s =
      .next { s with dch := s.dch ++ [.frame seq payload.length
        (payload ++ List.replicate (s.cfg.payloadBits - payload.length) false)] } := by
  rw [execFmtFrameF, onEngine_up up, if_pos h]
  rfl

theorem execFmtFrameF_of_tooLong {payload : BitString} (h : s.cfg.payloadBits < payload.length)
    (seq : SeqField) : execFmtFrameF seq payload s = .fault .messageWidthMismatch := by
  rw [execFmtFrameF, onEngine_up up, if_neg (Nat.not_le.mpr h)]
  rfl

end

/-- Settles O33: a message word is an injection at its width, an ack word one of its signed value. -/
theorem messageWordsJoinTheirChannels : Obligations.MessageWordsJoinTheirChannels := by
  constructor
  · intro seq plen payload s up
    exact ⟨fun h => ⟨injectData_of_width up h _, injectData_of_width up h _⟩,
      fun h => ⟨injectData_of_otherWidth up h _, injectData_of_otherWidth up h _⟩,
      fun h => execFmtFrameF_of_fits up h seq, fun h => execFmtFrameF_of_tooLong up h seq⟩
  · intro v s up
    have := v.isLt
    exact ⟨injectAck_ackOf up (by omega) (by omega), injectAck_ackOf up (by omega) (by omega),
      injectAck_ackOf up (by omega) (by omega)⟩

/-- Settles O35: the row has no effect but its fault (log 24). -/
theorem reservedLogKindStops : Obligations.ReservedLogKindStops := fun _ _ => rfl

/-! ### The one operation of each agent -/

theorem offer_eq_ite (enabled : Bool) (i : Instr) : offer enabled i = if enabled = true then [i] else [] := by
  cases enabled <;> rfl

/-- R109 for the main activity: its guards ask for different states, and in `Done`, where the exit flags
live, for different flags (R242). -/
theorem mainOps_eq {s : Machine.State} (h : MachineInv s) :
    mainOps s =
      if s.cfg.senderBuilt = false then []
      else if s.snd.sstate = .filling then [.txFill]
      else if s.snd.sstate = .watching then [.txPoll]
      else if s.snd.eosPushed = false then [.txFinish]
      else if s.snd.listenerStopped = true ∧ s.snd.senderComplete = false then [.txJoin]
      else [] := by
  simp only [mainOps, offer_eq_ite, txFillEnabled_iff, txPollEnabled_iff, txFinishEnabled_iff,
    txJoinEnabled_iff]
  cases built : s.cfg.senderBuilt with
  | false => simp
  | true =>
    by_cases hd : s.snd.sstate = .done
    · cases pushed : s.snd.eosPushed <;> simp [hd]
    · obtain ⟨notPushed, -, -⟩ := flags_clear h hd
      obtain ⟨notSliding, notRetransmitting⟩ := h.resting
      cases state : s.snd.sstate <;> simp_all

/-- R109 for the listener: it has stopped, or stops in `Done`, or takes what stands at the head of
`ACH`. -/
theorem listenerOps_eq (s : Machine.State) :
    listenerOps s =
      if s.cfg.senderBuilt = false ∨ s.snd.listenerStopped = true then []
      else if s.snd.sstate = .done then [.txaStop]
      else match s.ach with
        | [] => [.txaIdle]
        | a :: _ => if ackValue a = s.win.base then [.txaAckAccept] else [.txaAckIgnore] := by
  classical
  simp only [listenerOps, offer_eq_ite, txaStopEnabled_iff, txaAckAcceptEnabled_iff,
    txaAckIgnoreEnabled_iff, txaIdleEnabled_iff]
  by_cases off : s.cfg.senderBuilt = false ∨ s.snd.listenerStopped = true
  · rcases off with off | off <;> simp [off]
  · obtain ⟨built, running⟩ : s.cfg.senderBuilt = true ∧ s.snd.listenerStopped = false := by
      simpa using off
    by_cases hd : s.snd.sstate = .done
    · simp [built, running, hd]
    · cases s.ach with
      | nil => simp [built, running, hd]
      | cons a rest => by_cases inOrder : ackValue a = s.win.base <;> simp [built, running, hd, inOrder]

/-- R109 for the receiver: it has stopped, or takes what stands at the head of `DCH`. -/
theorem receiverOps_eq (s : Machine.State) :
    receiverOps s =
      if s.rcv.rstate = .stopped then []
      else match s.dch with
        | [] => [.rxIdle]
        | .eos :: _ => [.rxEos]
        | .frame seq plen _ :: _ =>
          if plen = 0 ∨ s.cfg.payloadBits < plen then [.rxMalformed]
          else if seq.toNat = s.cur.expected then [.rxAccept] else [.rxReject] := by
  classical
  simp only [receiverOps, offer_eq_ite, rxAcceptEnabled_iff, rxRejectEnabled_iff, rxEosEnabled_iff,
    rxMalformedEnabled_iff, rxIdleEnabled_iff]
  cases state : s.rcv.rstate with
  | stopped => simp
  | accepting =>
    cases s.dch with
    | nil => simp
    | cons m rest =>
      cases m with
      | eos => simp
      | frame seq plen payload =>
        by_cases malformed : plen = 0 ∨ s.cfg.payloadBits < plen
        · have notFormed : ¬(1 ≤ plen ∧ plen ≤ s.cfg.payloadBits) := by omega
          simp [malformed, notFormed]
        · have formed : 1 ≤ plen ∧ plen ≤ s.cfg.payloadBits := by omega
          by_cases inOrder : seq.toNat = s.cur.expected <;> simp [malformed, formed, inOrder]

/-- Settles O36: the three agents, each by its guards. -/
theorem eachAgentHasAtMostOneOperation : Obligations.EachAgentHasAtMostOneOperation := by
  intro s h up
  simp only [agentOps, if_pos up]
  exact ⟨mainOps_eq h, listenerOps_eq s, receiverOps_eq s⟩

end Sys2Proof.Proofs

/-! SUPPORT. The frame codec (spec 40): the stream bit by bit, what `CODEC.ENCODE` answers in each of its
cases, the fields of its frames, and that `CODEC.DECODE` takes the frames back to the source. -/

namespace Sys2Proof.Proofs

open Sys2Proof.Machine Sys2Proof.Laws

/-! ### Bytes and their bits -/

theorem byteBits_getElem? (b : Byte) {i : Nat} (hi : i < 8) :
    (byteBits b)[i]? = some (b.getLsbD (7 - i)) := natToBits_getElem? 8 b.toNat i hi

/-- A byte read from a stream has the stream's bits. -/
theorem byteBits_byteAt {stream : BitString} {k : Nat} (whole : 8 * k + 8 ≤ stream.length) :
    byteBits (byteAt stream k) = (stream.drop (8 * k)).take 8 := by
  have hlen : ((stream.drop (8 * k)).take 8).length = 8 := by
    rw [List.length_take, List.length_drop]
    omega
  have hval := bitsToNat_lt ((stream.drop (8 * k)).take 8)
  have hback := natToBits_bitsToNat ((stream.drop (8 * k)).take 8)
  rw [hlen] at hval hback
  rw [byteBits, byteAt, BitVec.toNat_ofNat, Nat.mod_eq_of_lt hval, hback]

/-- Bit `8k + i` of a stream is bit `7 - i` of its `k`-th whole byte (R121, R126). -/
theorem getElem?_eq_bit_of_byteAt {stream : BitString} {k i : Nat} (whole : 8 * k + 8 ≤ stream.length)
    (hi : i < 8) : stream[8 * k + i]? = some ((byteAt stream k).getLsbD (7 - i)) := by
  rw [← byteBits_getElem? _ hi, byteBits_byteAt whole, List.getElem?_take_of_lt hi, List.getElem?_drop]

/-- Settles O12: the `k`-th byte read from a source's stream is the source's. -/
theorem streamTakesEachBytesHighBitFirst : Obligations.StreamTakesEachBytesHighBitFirst := by
  intro source
  refine ⟨bitStream_length source, fun k i v hi hv => ?_⟩
  obtain ⟨hk, -⟩ := List.getElem?_eq_some_iff.mp hv
  have whole : 8 * k + 8 ≤ (bitStream source).length := by
    rw [bitStream_length]
    omega
  rw [getElem?_eq_bit_of_byteAt whole hi, byteAt_bitStream hv]

/-! ### The answers of the two rows -/

theorem exec_codecEncode (source : List Byte) (c : Nat) (s : Machine.State) :
    exec (.codecEncode source c) s = execCodecEncode source c s := rfl

theorem exec_codecDecode (payloads : List BitString) (s : Machine.State) :
    exec (.codecDecode payloads) s =
      .next { s with fnResult := .decoded (decodePayloads payloads) } := rfl

theorem exec_codecEncode_of_ok {source : List Byte} {c : Nat} {fs : List Frame}
    (h : encodeSource source c = .ok fs) (s : Machine.State) :
    exec (.codecEncode source c) s = .next { s with fnResult := .frames fs } := by
  rw [exec_codecEncode, execCodecEncode, h]
  rfl

theorem exec_codecEncode_of_error {source : List Byte} {c : Nat} {fault : FaultCode}
    (h : encodeSource source c = .error fault) (s : Machine.State) :
    exec (.codecEncode source c) s = .next { s with fnResult := .raised fault } := by
  rw [exec_codecEncode, execCodecEncode, h]
  rfl

/-- Frames in the result field are the frames the codec gave. -/
theorem encodeSource_of_fnResult {source : List Byte} {c : Nat} {fs : List Frame} {s t : Machine.State}
    (h : exec (.codecEncode source c) s = .next t) (hr : t.fnResult = .frames fs) :
    encodeSource source c = .ok fs := by
  cases he : encodeSource source c with
  | error fault =>
    cases (exec_codecEncode_of_error he s).symm.trans h
    cases hr
  | ok frames =>
    cases (exec_codecEncode_of_ok he s).symm.trans h
    cases hr
    rfl

/-! ### The cases of `CODEC.ENCODE` (R123, R128, R130) -/

theorem encodeSource_of_small_capacity {c : Nat} (small : c ≤ 16) (source : List Byte) :
    encodeSource source c = .error .configFrameCapacity := if_pos small

theorem encodeSource_of_too_many {source : List Byte} {c : Nat} (hc : 16 < c)
    (many : 2 ^ 16 * (c - 16) < 8 * source.length) :
    encodeSource source c = .error .configFrameCount := by
  have count : 65536 < frameCount source.length (c - 16) := (lt_ceilDiv (by omega)).mpr many
  rw [encodeSource, Config.seqWidth, if_neg (by omega)]
  exact if_pos count

theorem encodeSource_of_fits {source : List Byte} {c : Nat} (hc : 16 < c)
    (fits : 8 * source.length ≤ 2 ^ 16 * (c - 16)) : ∃ fs, encodeSource source c = .ok fs :=
  ⟨_, encodeSource_eq_ok.mpr ⟨hc, (ceilDiv_le (by omega)).mpr fits, rfl⟩⟩

/-! ### The frames of an encoded source -/

/-- Bit `j` of slot `k`'s payload is bit `k * L + j` of the stream (R123). -/
theorem frameOf_payload_getElem? (stream : BitString) (l k : Nat) {j : Nat}
    (hj : j < (frameOf stream l k).payload.length) :
    (frameOf stream l k).payload[j]? = stream[k * l + j]? := by
  simp only [frameOf, List.length_take] at hj ⊢
  rw [List.getElem?_take_of_lt (Nat.lt_of_lt_of_le hj (Nat.min_le_left _ _)), List.getElem?_drop]

section
variable {source : List Byte} {c : Nat} {fs : List Frame} (h : encodeSource source c = .ok fs)
include h

theorem encoded_capacity : 16 < c := (encodeSource_eq_ok.mp h).1

theorem encoded_length : fs.length = frameCount source.length (c - 16) := by
  obtain ⟨-, -, rfl⟩ := encodeSource_eq_ok.mp h
  rw [List.length_map, List.length_range]

/-- `N` is the least count with `N * L ≥ total` (R124). -/
theorem encoded_length_le_iff {n : Nat} : fs.length ≤ n ↔ 8 * source.length ≤ n * (c - 16) := by
  have hc := encoded_capacity h
  rw [encoded_length h, frameCount, ceilDiv_le (by omega)]

variable {k : Nat} {f : Frame} (hf : fs[k]? = some f)
include hf

/-- R125: "frame `s` carries `seq = s`"; the sequence field holds every slot number. -/
theorem encoded_seq : f.seq.toNat = k := by
  obtain ⟨rfl, hk, -⟩ := encoded_frame h hf
  have hn := encoded_length_le h
  exact Nat.mod_eq_of_lt (by omega)

theorem encoded_payload_length :
    frameLen f = min ((k + 1) * (c - 16)) (8 * source.length) - k * (c - 16) := by
  obtain ⟨rfl, -, start⟩ := encoded_frame h hf
  rw [frameLen_frameOf _ _ _ (by rw [bitStream_length]; omega), bitStream_length]

theorem encoded_payload_getElem? {j : Nat} (hj : j < f.payload.length) :
    f.payload[j]? = (bitStream source)[k * (c - 16) + j]? := by
  obtain ⟨rfl, -, -⟩ := encoded_frame h hf
  exact frameOf_payload_getElem? _ _ _ hj

/-- Every frame but the last is full (R124): the next one starts within the stream. -/
theorem encoded_frameLen_of_not_last (next : k + 1 < fs.length) : frameLen f = c - 16 := by
  have inside : (k + 1) * (c - 16) ≤ 8 * source.length :=
    (Nat.lt_of_not_le (mt (encoded_length_le_iff h).mpr (Nat.not_le.mpr next))).le
  rw [encoded_payload_length h hf, Nat.min_eq_left inside, Nat.add_mul, Nat.one_mul,
    Nat.add_sub_cancel_left]

/-- The last frame has the rest of the stream (R124): no bit stands after it. -/
theorem encoded_frameLen_of_last (last : k + 1 = fs.length) :
    frameLen f = 8 * source.length - k * (c - 16) := by
  have covered : 8 * source.length ≤ (k + 1) * (c - 16) := (encoded_length_le_iff h).mp last.ge
  rw [encoded_payload_length h hf, Nat.min_eq_right covered]

end

/-- Settles O13: the three cases of `CODEC.ENCODE`, and the fields of its frames. -/
theorem encodeCutsTheStreamIntoFrames : Obligations.EncodeCutsTheStreamIntoFrames := by
  intro source c s
  refine ⟨fun small => exec_codecEncode_of_error (encodeSource_of_small_capacity small source) s,
    fun hc many => exec_codecEncode_of_error (encodeSource_of_too_many hc many) s, fun hc fits => ?_⟩
  obtain ⟨fs, h⟩ := encodeSource_of_fits hc fits
  refine ⟨fs, exec_codecEncode_of_ok h s, (encoded_length_le_iff h).mp le_rfl,
    fun n => (encoded_length_le_iff h).mpr, fun k hk => ?_⟩
  have hf := List.getElem?_eq_getElem hk
  exact ⟨fs[k], hf, encoded_seq h hf, encoded_payload_length h hf,
    fun j => encoded_payload_getElem? h hf⟩

/-- Settles O14: `N` is the ceiling, so only the last frame reaches the end of the stream. -/
theorem framesAreFullButTheLast : Obligations.FramesAreFullButTheLast := by
  intro source c fs h
  have hc := encoded_capacity h
  have ceiling : fs.length = (8 * source.length + (c - 16) - 1) / (c - 16) := by
    rw [encoded_length h, frameCount, ceilDiv, Nat.add_sub_assoc (by omega)]
  exact ⟨hc, encoded_length_le h, ceiling, fun k f hf => ⟨encoded_seq h hf,
    encoded_frameLen_of_not_last h hf, fun last =>
      ⟨encoded_frameLen_of_last h hf last, encoded_frameLen h (List.mem_of_getElem? hf)⟩⟩⟩

/-! ### Decoding -/

/-- The whole bytes of the payloads, each read from their concatenation (R126). -/
theorem decodePayloads_bytes_getElem? {payloads : List BitString} {k : Nat}
    (hk : k < payloads.flatten.length / 8) :
    (decodePayloads payloads).bytes[k]? = some (byteAt payloads.flatten k) := by
  rw [decodePayloads, List.getElem?_map, List.getElem?_range hk, Option.map_some]

theorem decodePayloads_bytes_length (payloads : List BitString) :
    (decodePayloads payloads).bytes.length = payloads.flatten.length / 8 := by
  rw [decodePayloads, List.length_map, List.length_range]

/-- Settles O15: every byte the codec answers is a whole byte of the concatenation. -/
theorem decodeRegroupsTheBits : Obligations.DecodeRegroupsTheBits := by
  intro payloads s
  refine ⟨decodePayloads payloads, exec_codecDecode payloads s, rfl,
    decodePayloads_bytes_length payloads, fun k hk => ?_⟩
  rw [decodePayloads_bytes_length] at hk
  exact ⟨_, decodePayloads_bytes_getElem? hk, fun i hi => getElem?_eq_bit_of_byteAt (by omega) hi⟩

/-- Settles O16: the payloads of the frames concatenate to the source's stream. -/
theorem decodeOfEncodedFramesIsTheSource : Obligations.DecodeOfEncodedFramesIsTheSource := by
  intro x c fs s t h hr
  have encoded := encodeSource_of_fnResult h hr
  rw [exec_codecDecode, decodePayloads_of_flatten (encoded_flatten encoded)]

end Sys2Proof.Proofs

/-! SUPPORT. The loss simulator (spec 41): the answer of `LOSS.SHOULD_DROP`, and that the `DROPPED` records
of the log count the drop flags as they are set. -/

namespace Sys2Proof.Proofs

open Sys2Proof.Machine Sys2Proof.Laws

/-! ### The row -/

theorem exec_lossShouldDrop (slot : Nat) (first : Bool) (period : Nat) (s : Machine.State) :
    exec (.lossShouldDrop slot first period) s = execLossShouldDrop slot first period s := rfl

theorem shouldDrop_eq_decide (slot : Nat) (first : Bool) (period : Nat) :
    shouldDrop slot first period = decide ((slot + 1) % period = 0 ∧ slot ≠ 0 ∧ first = true) :=
  Bool.eq_iff_iff.mpr (shouldDrop_iff.trans decide_eq_true_iff.symm)

/-- Settles O17: a period that construction accepts gives R135's formula, and a period of 0 stops. -/
theorem dropRuleOfTheLossSimulator : Obligations.DropRuleOfTheLossSimulator := by
  intro slot period first s
  rw [exec_lossShouldDrop, execLossShouldDrop]
  refine ⟨fun legal => ?_, fun zero => ?_⟩
  · rw [if_neg (Nat.ne_of_gt legal), shouldDrop_eq_decide]
    rfl
  · rw [if_pos zero]
    rfl

/-! ### The records of withheld attempts -/

/-- The record of a withheld attempt of slot `k` (R150). -/
def droppedRecord (k : Nat) : LogRecord := { kind := .dropped, val := k }

/-- Only a first attempt is withheld (R135). -/
theorem wasDropped_of_withheldNow {s : Machine.State} {k : Nat} (h : withheldNow s k = true) :
    wasDropped s k = false := by
  obtain ⟨-, -, first⟩ := shouldDrop_iff.mp h
  simpa using first

theorem attemptRecord_eq_droppedRecord {s : Machine.State} {i k : Nat} :
    attemptRecord s i = droppedRecord k ↔ i = k ∧ withheldNow s i = true := by
  cases hw : withheldNow s i <;> simp [attemptRecord, droppedRecord, hw]

/-- A pass over distinct slots logs `DROPPED k` once if it withholds slot `k`, and otherwise never. -/
theorem count_droppedRecord_attempts (s : Machine.State) {slots : List Nat} (distinct : slots.Nodup)
    (k : Nat) : (slots.map (attemptRecord s)).count (droppedRecord k) =
      if k ∈ slots ∧ withheldNow s k = true then 1 else 0 := by
  split
  · rename_i h
    obtain ⟨hk, hw⟩ := h
    have same : ∀ i ∈ slots, (attemptRecord s i == droppedRecord k) = (i == k) := fun i _ => by
      rw [Bool.eq_iff_iff, beq_iff_eq, beq_iff_eq, attemptRecord_eq_droppedRecord]
      exact and_iff_left_of_imp fun hi => hi ▸ hw
    rw [List.count, List.countP_map]
    exact (List.countP_congr fun i hi => by simp [same i hi]).trans (List.count_eq_one_of_mem distinct hk)
  · rename_i h
    refine List.count_eq_zero.mpr fun hmem => h ?_
    obtain ⟨i, hi, he⟩ := List.mem_map.mp hmem
    obtain ⟨rfl, hw⟩ := attemptRecord_eq_droppedRecord.mp he
    exact ⟨hi, hw⟩

/-! ### The flags and their records -/

/-- From `s` to `t` the log grows, and every slot's drop flag, as a number, by the slot's new `DROPPED`
records: a set flag stays, and is not logged again (R25, R140). -/
def DropsLogged (s t : Machine.State) : Prop :=
  ∃ records, t.log = s.log ++ records ∧
    ∀ k, (wasDropped t k).toNat = (wasDropped s k).toNat + records.count (droppedRecord k)

theorem DropsLogged.trans {s t u : Machine.State} (st : DropsLogged s t) (tu : DropsLogged t u) :
    DropsLogged s u := by
  obtain ⟨first, hlog, hfirst⟩ := st
  obtain ⟨second, hlog', hsecond⟩ := tu
  refine ⟨first ++ second, by rw [hlog', hlog, List.append_assoc], fun k => ?_⟩
  rw [hsecond, hfirst, List.count_append, Nat.add_assoc]

/-- Writes that leave the drop flags and log records of other kinds only. -/
theorem DropsLogged.quiet {s t : Machine.State} (records : List LogRecord)
    (log : t.log = s.log ++ records) (flags : t.win.droppedOnce = s.win.droppedOnce)
    (others : ∀ r ∈ records, r.kind ≠ .dropped) : DropsLogged s t := by
  refine ⟨records, log, fun k => ?_⟩
  have unlogged : records.count (droppedRecord k) = 0 :=
    List.count_eq_zero.mpr fun hmem => others _ hmem rfl
  rw [unlogged, wasDropped, wasDropped, flags, Nat.add_zero]

/-- Writes that leave the drop flags and the log. -/
theorem DropsLogged.silent {s t : Machine.State} (log : t.log = s.log)
    (flags : t.win.droppedOnce = s.win.droppedOnce) : DropsLogged s t :=
  .quiet [] (by rw [log, List.append_nil]) flags nofun

/-- Each of distinct, existing slots is attempted once, so each flag a pass sets it logs once (R150). -/
theorem DropsLogged.pass {s : Machine.State} {slots : List Nat} (now : Nat) (distinct : slots.Nodup)
    (exist : ∀ i ∈ slots, i < s.win.droppedOnce.length) : DropsLogged s (afterPass now slots s) := by
  refine ⟨slots.map (attemptRecord s), rfl, fun k => ?_⟩
  rw [count_droppedRecord_attempts s distinct, wasDropped_afterPass]
  by_cases withheld : k ∈ slots ∧ withheldNow s k = true
  · rw [if_pos ⟨withheld, exist k withheld.1⟩, if_pos withheld, wasDropped_of_withheldNow withheld.2]
    rfl
  · rw [if_neg (mt And.left withheld), if_neg withheld, Nat.add_zero]

theorem DropsLogged.attempt {s : Machine.State} {i : Nat} (now : Nat)
    (exists_ : i < s.win.droppedOnce.length) : DropsLogged s (afterAttempt now i s) := by
  rw [afterAttempt_eq_afterPass]
  exact .pass now (List.nodup_singleton i) (by simpa using exists_)

/-- A pass over the window, whose slots are distinct and exist (R146). -/
theorem DropsLogged.window {s : Machine.State} (stores : Memory.wf s) (now : Nat) :
    DropsLogged s (afterPass now (activeWindow s) s) := by
  obtain ⟨-, -, -, count, -⟩ := stores
  exact .pass now (windowRange_nodup _ _ _) fun i hi =>
    count ▸ Nat.lt_of_lt_of_le (mem_activeWindow.mp hi).2 (windowEnd_le s)

/-- A retransmission logs the expired slots, and then passes over the window (R188). -/
theorem DropsLogged.retransmission {s u : Machine.State} (h : MachineInv s)
    (built : s.cfg.senderBuilt = true) {expired : List Nat}
    (sent : sendWindow s.now ((s.setLastPoll s.now).enterRetransmission expired) = .ok u) :
    DropsLogged s u.leaveRetransmission := by
  obtain ⟨-, period, -⟩ := h.senderConfig built
  cases (sendWindow_of_wf (s := (s.setLastPoll s.now).enterRetransmission expired) s.now
    (Nat.pos_iff_ne_zero.mp period) h.stores h.ackedBelowBase).symm.trans sent
  have timeouts : DropsLogged s ((s.setLastPoll s.now).enterRetransmission expired) :=
    .quiet _ rfl rfl (by simp)
  have pass := DropsLogged.window (s := (s.setLastPoll s.now).enterRetransmission expired) h.stores s.now
  exact (timeouts.trans pass).trans (.silent rfl rfl)

/-- An accepted ack's record is no `DROPPED` (R166). -/
theorem DropsLogged.ack (a : SignedField) (rest : List SignedField) (s : Machine.State) :
    DropsLogged s (afterAck a rest s) := .quiet _ rfl rfl (by simp)

theorem flushRecords_kind_ne_dropped {d : Decoded} {r : LogRecord} (h : r ∈ flushRecords d) :
    r.kind ≠ .dropped := by
  rcases List.mem_append.mp h with h | h
  · split at h
    · cases h
    · rw [List.mem_singleton.mp h]
      nofun
  · rw [List.mem_singleton.mp h]
    nofun

/-- Every instruction but a construction, which empties the flags and the log, and a record row, which
logs what it is told (R284; log 8). -/
theorem effect_dropsLogged {i : Instr} {s t : Machine.State} (h : Effect s i t) (hm : MachineInv s)
    (hc : ∀ c, i ≠ .sysConstruct c) (hr : isRecordRow i = false) : DropsLogged s t := by
  cases h with
  | construct l => exact absurd rfl (hc _)
  | constructAlone n => exact absurd rfl (hc _)
  | recordRow _ _ row => exact absurd (row.symm.trans hr) nofun
  | fill _ _ _ u sent =>
    cases (sendWindow_of_inv hm s.now).symm.trans sent
    exact (DropsLogged.window hm.stores s.now).trans (.silent rfl rfl)
  | retransmit _ built _ _ _ _ u sent => exact .retransmission hm built sent
  | window _ u sent =>
    cases (sendWindow_of_inv hm s.now).symm.trans sent
    exact .window hm.stores s.now
  | attempt _ _ _ exists_ => exact .attempt s.now exists_
  | ackLast _ _ _ _ a rest => exact (DropsLogged.ack a rest s).trans (.silent rfl rfl)
  | ackSlide _ _ _ _ a rest _ _ _ _ exists_ =>
    have slide := DropsLogged.attempt (s := afterAck a rest s) s.now exists_
    exact ((DropsLogged.ack a rest s).trans slide).trans (.silent rfl rfl)
  | ackIgnore => exact .quiet _ rfl rfl (by simp)
  | endOfStream => exact .quiet _ rfl rfl fun _ => flushRecords_kind_ne_dropped
  | malformed => exact .quiet _ rfl rfl (by simp)
  | _ => exact .silent rfl rfl

/-- Settles O46: an operation is no construction and no record row, and a flag is at most 1. -/
theorem slotIsWithheldAtMostOnce : Obligations.SlotIsWithheldAtMostOnce := by
  intro i s t k hm hi h
  obtain ⟨hc, -, -, -, hr⟩ := not_script_row_of_isOperation (.inl hi)
  obtain ⟨records, hlog, hflags⟩ := effect_dropsLogged (exec_next h) hm hc hr
  refine ⟨fun flagged => ?_, ?_⟩
  · have le := Nat.le_add_right (wasDropped s k).toNat (records.count (droppedRecord k))
    rw [← hflags, flagged] at le
    exact Bool.toNat_eq_one.mp (Nat.le_antisymm (Bool.toNat_le _) le)
  · rw [hlog, List.drop_left, hflags, Nat.add_sub_cancel_left]
    rfl

end Sys2Proof.Proofs

/-! SUPPORT. The frame sequencer (spec 42): the window as it slides, one attempt of one slot, a pass over
the whole window, and which slots stand unacknowledged. -/

namespace Sys2Proof.Proofs

open Sys2Proof.Machine Sys2Proof.Laws

/-! ### The rows -/

theorem exec_winRange (base w n : Nat) (s : Machine.State) :
    exec (.winRange base w n) s = execWinRange base w n s := rfl

theorem exec_winSlideSlot (base w n : Nat) (s : Machine.State) :
    exec (.winSlideSlot base w n) s = execWinSlideSlot base w n s := rfl

theorem exec_seqXmit (i : Nat) (s : Machine.State) : exec (.seqXmit i) s = execSeqXmit i s := rfl

theorem exec_seqSendWindow (s : Machine.State) : exec .seqSendWindow s = execSeqSendWindow s := rfl

/-! ### The window -/

theorem windowRange_pairwise_lt (b w n : Nat) : (windowRange b w n).Pairwise (· < ·) :=
  List.pairwise_lt_range'

theorem lt_totalFrames_of_mem_activeWindow {s : Machine.State} {i : Nat} (hi : i ∈ activeWindow s) :
    i < s.cfg.totalFrames := Nat.lt_of_lt_of_le (mem_activeWindow.mp hi).2 (windowEnd_le s)

theorem windowRange_length (b w n : Nat) : (windowRange b w n).length = winEnd b w n - b :=
  List.length_range'

/-- While the frames do not end inside it, the window has its whole width (R146). -/
theorem windowRange_of_whole {b w n : Nat} (whole : b + w ≤ n) :
    windowRange b w n = List.range' b w := by
  rw [windowRange, winEnd, Nat.min_eq_left whole, Nat.add_sub_cancel_left]

/-- A window that the frames end in runs to the last frame (R146). -/
theorem windowRange_of_clipped {b w n : Nat} (clipped : n ≤ b + w) :
    windowRange b w n = List.range' b (n - b) := by
  rw [windowRange, winEnd, Nat.min_eq_right clipped]

/-- R148: a slide takes slot `b` out in front and adds the slide's slot, if there is one, at the end. -/
theorem cons_windowRange_succ {b w n : Nat} (hb : b < n) :
    b :: windowRange (b + 1) w n = windowRange b w n ++ (slideSlot (b + 1) w n).toList := by
  by_cases exposes : b + w < n
  · have slot : slideSlot (b + 1) w n = some (b + w) := slideSlot_eq_some.mpr ⟨by omega, exposes⟩
    rw [slot, windowRange_of_whole (by omega), windowRange_of_whole (Nat.le_of_lt exposes),
      ← List.range'_succ, List.range'_1_concat]
    rfl
  · have slot : slideSlot (b + 1) w n = none := slideSlot_eq_none.mpr (by omega)
    have rest : n - b = n - (b + 1) + 1 := by omega
    rw [slot, windowRange_of_clipped (by omega), windowRange_of_clipped (Nat.le_of_not_lt exposes),
      rest, List.range'_succ]
    exact (List.append_nil _).symm

/-- Settles O18: the two rows answer the window's own functions, and a slide is `cons_windowRange_succ`. -/
theorem windowIsClippedAndSlidesByOne : Obligations.WindowIsClippedAndSlidesByOne :=
  ⟨fun base w n s => ⟨windowRange base w n, exec_winRange base w n s, fun _ => mem_windowRange,
      windowRange_pairwise_lt base w n⟩,
    fun base w n s _ => exec_winSlideSlot base w n s,
    fun _ _ _ _ hb => cons_windowRange_succ hb⟩

/-! ### One attempt -/

theorem withheldNow_iff {s : Machine.State} {i : Nat} :
    withheldNow s i = true ↔
      (i + 1) % s.cfg.dropPeriod = 0 ∧ i ≠ 0 ∧ wasDropped s i = false := by
  rw [withheldNow, shouldDrop_iff, Bool.not_eq_true']

/-- A withheld attempt marks, logs and stamps its slot, and sends nothing (R150). -/
theorem afterAttempt_of_withheld {s : Machine.State} {i : Nat} (now : Nat)
    (withheld : withheldNow s i = true) :
    afterAttempt now i s = { s with
      log := s.log ++ [{ kind := .dropped, val := i }]
      win := { s.win with
        sendTimestamp := s.win.sendTimestamp.set i (some now)
        droppedOnce := s.win.droppedOnce.set i true } } := by
  simp [afterAttempt, sentMsgs, attemptRecord, withheld]

/-- Any other attempt enqueues the slot's message, logs it and stamps the slot (R150). -/
theorem afterAttempt_of_sent {s : Machine.State} {i : Nat} (now : Nat)
    (sent : withheldNow s i = false) :
    afterAttempt now i s = { s with
      dch := s.dch ++ [slotMsg s i]
      log := s.log ++ [{ kind := .sent, val := i }]
      win := { s.win with sendTimestamp := s.win.sendTimestamp.set i (some now) } } := by
  simp [afterAttempt, sentMsgs, attemptRecord, sent]

/-- In the window `SEQ.XMIT` is one attempt at the clock's `now` (R61, R150; log 8). -/
theorem exec_seqXmit_of_mem {s : Machine.State} {i : Nat} (up : s.cfg.cstatus = .ok)
    (period : 1 ≤ s.cfg.dropPeriod) (stores : Memory.wf s) (hi : i ∈ activeWindow s) :
    exec (.seqXmit i) s = .next (afterAttempt s.now i s) := by
  obtain ⟨frames, -, -, flags, -⟩ := stores
  have exists_ := lt_totalFrames_of_mem_activeWindow hi
  rw [exec_seqXmit, execSeqXmit, onEngine_up up, if_pos hi,
    xmit_of_slot s.now (flags ▸ exists_) (frames ▸ exists_) (Nat.ne_of_gt period), outcomeOf_ok]

/-- Beyond the window it stops (R61). -/
theorem exec_seqXmit_of_not_mem {s : Machine.State} {i : Nat} (up : s.cfg.cstatus = .ok)
    (hi : i ∉ activeWindow s) : exec (.seqXmit i) s = .fault .slotOutsideWindow := by
  rw [exec_seqXmit, execSeqXmit, onEngine_up up, if_neg hi, outcomeOf_error]

/-- Settles O19: the attempt is withheld, or its frame is sent, or the slot is not in the window. -/
theorem xmitAttemptsOneSlot : Obligations.XmitAttemptsOneSlot := by
  intro i s up period stores
  refine ⟨fun hb he eligible positive unflagged => ?_, fun hb he exempt => ?_, fun outside => ?_⟩
  · rw [exec_seqXmit_of_mem up period stores (mem_activeWindow.mpr ⟨hb, he⟩),
      afterAttempt_of_withheld _ (withheldNow_iff.mpr ⟨eligible, positive, unflagged⟩)]
  · have hi := mem_activeWindow.mpr ⟨hb, he⟩
    obtain ⟨f, hf, -, hmsg, -⟩ := slotMsg_of_wf stores (lt_totalFrames_of_mem_activeWindow hi)
    have sent : withheldNow s i = false := by
      rw [← Bool.not_eq_true, withheldNow_iff]
      rintro ⟨eligible, positive, unflagged⟩
      simp [eligible, positive, unflagged] at exempt
    exact ⟨f, hf, by rw [exec_seqXmit_of_mem up period stores hi, afterAttempt_of_sent _ sent, hmsg]⟩
  · refine exec_seqXmit_of_not_mem up fun hi => ?_
    obtain ⟨hb, he⟩ := mem_activeWindow.mp hi
    omega

/-! ### A pass over the window -/

/-- With the stores in their form a pass over the window attempts each of its slots once (R152). -/
theorem windowAttempted_afterPass {s : Machine.State} (stores : Memory.wf s) :
    WindowAttempted [] s (afterPass s.now (activeWindow s) s) := by
  obtain ⟨-, stampCount, -, dropCount, -⟩ := stores
  refine
    { dch := rfl, base := rfl, acked := rfl
      log := by rw [List.append_nil]; rfl
      stampCount := foldl_set_length _ _ _
      dropCount := foldl_set_length _ _ _
      stamps := fun i => ?_, drops := fun i => ?_ }
  · simp only [stampOf_afterPass, stampCount, ← mem_activeWindow,
      and_iff_left_of_imp lt_totalFrames_of_mem_activeWindow]
  · simp only [wasDropped_afterPass, dropCount, ← mem_activeWindow,
      and_iff_left_of_imp fun h => lt_totalFrames_of_mem_activeWindow (And.left h)]
    by_cases withheld : i ∈ activeWindow s ∧ withheldNow s i = true
    · simp [withheld]
    · have unmarked : (decide (i ∈ activeWindow s) && withheldNow s i) = false := by simpa using withheld
      rw [if_neg withheld, unmarked, Bool.or_false]

theorem exec_seqSendWindow_of_inv {s : Machine.State} (h : MachineInv s) (up : s.cfg.cstatus = .ok) :
    exec .seqSendWindow s = .next (afterPass s.now (activeWindow s) s) := by
  rw [exec_seqSendWindow, execSeqSendWindow, onEngine_up up, sendWindow_of_inv h, outcomeOf_ok]

/-- Settles O20: the row completes with the pass over the window. -/
theorem sendWindowAttemptsTheWholeWindow : Obligations.SendWindowAttemptsTheWholeWindow :=
  fun s h up => ⟨afterPass s.now (activeWindow s) s, exec_seqSendWindow_of_inv h up,
    windowAttempted_afterPass h.stores, rfl⟩

/-! ### The unacknowledged slots -/

theorem activeWindow_length (s : Machine.State) :
    (activeWindow s).length = windowEnd s - s.win.base := windowRange_length _ _ _

/-- R147: the window is at most `W` slots wide. -/
theorem activeWindow_length_le (s : Machine.State) : (activeWindow s).length ≤ s.cfg.windowSize := by
  have clipped : windowEnd s ≤ s.win.base + s.cfg.windowSize := Nat.min_le_left _ _
  rw [activeWindow_length]
  omega

/-- R31 item 3: the unacknowledged slots are those from `base` on. -/
theorem acked_eq_false_iff {s : Machine.State} (h : MachineInv s) {i : Nat} :
    s.win.acked[i]? = some false ↔ s.win.base ≤ i ∧ i < s.cfg.totalFrames := by
  obtain ⟨-, -, count, -⟩ := h.stores
  by_cases exists_ : i < s.cfg.totalFrames
  · simp [h.ackedBelowBase i exists_, exists_]
  · simp [List.getElem?_eq_none (count ▸ Nat.le_of_not_lt exists_), exists_]

/-- R31 item 5, R149: once the fill has run, a slot from `base` on has a stamp exactly if it lies below the
window's end. -/
theorem stampOf_isSome_iff {s : Machine.State} (hc : ClosedInv s) (filled : s.snd.sstate ≠ .filling)
    {i : Nat} (hb : s.win.base ≤ i) : (stampOf s i).isSome = true ↔ i < windowEnd s := by
  refine ⟨fun stamped => ?_, fun he => ?_⟩
  · by_contra beyond
    rw [hc.unsent i (Nat.le_of_not_lt beyond)] at stamped
    cases stamped
  · obtain ⟨t, ht, -⟩ := hc.stamped filled i hb he
    rw [ht, Option.isSome_some]

/-- Settles O55: from `base` on the stamped slots are those below the window's end, and before `base` all
are acknowledged. -/
theorem unacknowledgedSlotsAreTheWindow : Obligations.UnacknowledgedSlotsAreTheWindow := by
  intro s hc filled
  refine ⟨fun i => ?_, activeWindow_length_le s⟩
  rw [acked_eq_false_iff hc.machine]
  constructor
  · rintro ⟨stamped, hb, -⟩
    exact mem_activeWindow.mpr ⟨hb, (stampOf_isSome_iff hc filled hb).mp stamped⟩
  · intro hi
    obtain ⟨hb, he⟩ := mem_activeWindow.mp hi
    exact ⟨(stampOf_isSome_iff hc filled hb).mpr he, hb, lt_totalFrames_of_mem_activeWindow hi⟩

end Sys2Proof.Proofs

/-! SUPPORT. The Sender Engine (spec 43): the first pass over the window, the accepted and the ignored
ack, the three steps of the termination, and that only an accepted ack moves `base`. -/

namespace Sys2Proof.Proofs

open Sys2Proof.Machine Sys2Proof.Laws

/-! ### The rows -/

theorem exec_txFill (s : Machine.State) : exec .txFill s = runOperation txFillEnabled txFill s := rfl

theorem exec_txFinish (s : Machine.State) :
    exec .txFinish s = runOperation txFinishEnabled txFinish s := rfl

theorem exec_txJoin (s : Machine.State) : exec .txJoin s = runOperation txJoinEnabled txJoin s := rfl

theorem exec_txaAckAccept (s : Machine.State) :
    exec .txaAckAccept s = runOperation txaAckAcceptEnabled ackAccept s := rfl

theorem exec_txaAckIgnore (s : Machine.State) :
    exec .txaAckIgnore s = runOperation txaAckIgnoreEnabled ackIgnore s := rfl

theorem exec_txaStop (s : Machine.State) : exec .txaStop s = runOperation txaStopEnabled txaStop s := rfl

/-! ### The first window -/

/-- With the invariant `TX.FILL` passes over the window, notes the time of the poll and settles (R160). -/
theorem exec_txFill_of_inv {s : Machine.State} (h : MachineInv s) (up : s.cfg.cstatus = .ok)
    (built : s.cfg.senderBuilt = true) (state : s.snd.sstate = .filling) :
    exec .txFill s =
      .next ((afterPass s.now (activeWindow s) s).setLastPoll s.now).settleSState := by
  have on : txFillEnabled s = true := txFillEnabled_iff.mpr ⟨built, state⟩
  rw [exec_txFill, runOperation_enabled up on, txFill, sendWindow_of_inv h, outcomeOf_ok]

/-- Settles O23: after the pass neither `lastPoll` nor the settling touches what was attempted. -/
theorem fillTransmitsTheFirstWindow : Obligations.FillTransmitsTheFirstWindow :=
  fun s h up built state => ⟨((afterPass s.now (activeWindow s) s).setLastPoll s.now).settleSState,
    exec_txFill_of_inv h up built state, { windowAttempted_afterPass h.stores with }, rfl⟩

/-! ### The acks -/

/-- The slot the slide exposes is the one at distance `W` from the acknowledged one (R148). -/
theorem exposedSlot_eq (b w : Nat) : b + 1 + w - 1 = b + w := by omega

/-- In `Watching` an ack equal to `base` is accepted: the sender settles at once where the window has
reached the last frame, and elsewhere after one attempt of the exposed slot (R148, R166). -/
theorem exec_txaAckAccept_of_head {s : Machine.State} {a : SignedField} {rest : List SignedField}
    (h : MachineInv s) (up : s.cfg.cstatus = .ok) (built : s.cfg.senderBuilt = true)
    (watching : s.snd.sstate = .watching) (running : s.snd.listenerStopped = false)
    (head : s.ach = a :: rest) (inOrder : ackValue a = s.win.base) :
    ∃ t, exec .txaAckAccept s = .next t ∧
      (s.cfg.totalFrames ≤ s.win.base + s.cfg.windowSize ∧ t = (afterAck a rest s).settleSState ∨
        s.win.base + s.cfg.windowSize < s.cfg.totalFrames ∧
          t = (afterAttempt s.now (s.win.base + s.cfg.windowSize) (afterAck a rest s)).settleSState) := by
  have on : txaAckAcceptEnabled s = true :=
    txaAckAcceptEnabled_iff.mpr ⟨⟨built, running, by simp [watching]⟩, a, rest, head, inOrder⟩
  obtain ⟨t, ht⟩ := ackAccept_answers h built watching head
  have next : exec .txaAckAccept s = .next t := by
    rw [exec_txaAckAccept, runOperation_enabled up on, ht, outcomeOf_ok]
  obtain ⟨-, -, a', rest', head', -, -, slides⟩ := txaAckAccept_next on next
  cases head.symm.trans head'
  rw [exposedSlot_eq] at slides
  exact ⟨t, next, slides.imp_right fun ⟨exposes, _, slide⟩ => ⟨exposes, slide⟩⟩

/-- Settles O25: with a slot exposed the ack's record is followed by one attempt, and without one
nothing is attempted. -/
theorem acceptedAckSlidesTheWindowByOne : Obligations.AcceptedAckSlidesTheWindowByOne := by
  intro s a rest h up built watching running head inOrder
  obtain ⟨t, next, ⟨last, rfl⟩ | ⟨exposes, rfl⟩⟩ :=
    exec_txaAckAccept_of_head h up built watching running head inOrder
  · refine ⟨_, next, rfl, rfl, rfl, fun exposes => absurd exposes (Nat.not_lt.mpr last), fun _ => ?_⟩
    exact ⟨rfl, by rw [← inOrder]; rfl, rfl, rfl⟩
  · refine ⟨_, next, rfl, rfl, rfl, fun _ => ?_, fun last => absurd exposes (Nat.not_lt.mpr last)⟩
    exact ⟨rfl, by rw [← inOrder]; exact List.append_assoc .., rfl, rfl⟩

theorem ackIgnore_cons {s : Machine.State} {a : SignedField} {rest : List SignedField}
    (head : s.ach = a :: rest) : ackIgnore s =
      .ok { s with ach := rest, log := s.log ++ [{ kind := .ackIgnored, val := ackValue a }] } := by
  rw [ackIgnore, deqAck_cons head]
  rfl

/-- Settles O26: any head ack but `base` enables the row, whose effect is `ackIgnore_cons`. -/
theorem ignoredAckIsOnlyLogged : Obligations.IgnoredAckIsOnlyLogged := by
  intro s a rest up built state running head other
  have on : txaAckIgnoreEnabled s = true :=
    txaAckIgnoreEnabled_iff.mpr ⟨⟨built, running, state⟩, a, rest, head, other⟩
  rw [exec_txaAckIgnore, runOperation_enabled up on, ackIgnore_cons head, outcomeOf_ok]
  rfl

/-! ### The termination -/

/-- Settles O27: each row's guard holds, and its effect writes what the statement says. -/
theorem terminationSetsOneFlagAtATime : Obligations.TerminationSetsOneFlagAtATime := by
  intro s up built
  refine ⟨fun state unpushed => ?_, fun state running => ?_, fun pushed stopped incomplete => ?_⟩
  · have on : txFinishEnabled s = true := txFinishEnabled_iff.mpr ⟨built, state, unpushed⟩
    rw [exec_txFinish, runOperation_enabled up on]
    rfl
  · have on : txaStopEnabled s = true := txaStopEnabled_iff.mpr ⟨built, running, state⟩
    rw [exec_txaStop, runOperation_enabled up on]
    rfl
  · have on : txJoinEnabled s = true := txJoinEnabled_iff.mpr ⟨built, pushed, stopped, incomplete⟩
    rw [exec_txJoin, runOperation_enabled up on]
    rfl

/-! ### What moves `base` -/

theorem sendWindow_base {now : Nat} {s u : Machine.State} (h : sendWindow now s = .ok u) :
    u.win.base = s.win.base := by rw [sendSlots_frame h]

/-- A running listener has `TXA.ACK_ACCEPT` enabled on an ack equal to `base` (R108, R164). -/
theorem txaAckAccept_mem_enabledOps {s : Machine.State} {a : SignedField} {rest : List SignedField}
    (up : s.cfg.cstatus = .ok) (built : s.cfg.senderBuilt = true)
    (running : s.snd.listenerStopped = false) (state : s.snd.sstate ≠ .done)
    (head : s.ach = a :: rest) (inOrder : ackValue a = s.win.base) : .txaAckAccept ∈ enabledOps s :=
  (mem_enabledOps (by decide)).mpr
    ⟨up, txaAckAcceptEnabled_iff.mpr ⟨⟨built, running, state⟩, a, rest, head, inOrder⟩⟩

/-- Where `TXA.ACK_ACCEPT` is not enabled no instruction but a construction moves `base` (R165). -/
theorem effect_base {i : Instr} {s t : Machine.State} (h : Effect s i t)
    (hc : ∀ c, i ≠ .sysConstruct c) (off : i = .txaAckAccept → i ∉ enabledOps s) :
    t.win.base = s.win.base := by
  cases h with
  | construct l => exact absurd rfl (hc _)
  | constructAlone n => exact absurd rfl (hc _)
  | ackLast up built running state a rest head inOrder =>
    exact absurd (txaAckAccept_mem_enabledOps up built running state head inOrder) (off rfl)
  | ackSlide up built running state a rest head inOrder =>
    exact absurd (txaAckAccept_mem_enabledOps up built running state head inOrder) (off rfl)
  | fill _ _ _ u sent => simp [sendWindow_base sent]
  | retransmit _ _ _ _ _ _ u sent => simp [sendWindow_base sent]
  | window _ u sent => exact sendWindow_base sent
  | _ => rfl

/-- An enabled `TXA.ACK_ACCEPT` takes an ack equal to `base` and adds 1 to it (R165, R166). -/
theorem base_of_ackAccept {s t : Machine.State} (on : txaAckAcceptEnabled s = true)
    (h : exec .txaAckAccept s = .next t) :
    t.win.base = s.win.base + 1 ∧ ∃ a rest, s.ach = a :: rest ∧ ackValue a = s.win.base := by
  obtain ⟨-, -, a, rest, head, inOrder, -, ⟨-, rfl⟩ | ⟨-, -, rfl⟩⟩ := txaAckAccept_next on h
  · exact ⟨rfl, a, rest, head, inOrder⟩
  · exact ⟨rfl, a, rest, head, inOrder⟩

/-- Settles O42: an enabled `TXA.ACK_ACCEPT` adds 1, and by the cases of `Effect` nothing else moves
`base`. -/
theorem baseMovesOnlyByAnAcceptedAck : Obligations.BaseMovesOnlyByAnAcceptedAck := by
  intro i s t h hc
  refine ⟨fun off => effect_base (exec_next h) hc fun hi on => ?_, ?_⟩
  · exact off.elim (absurd hi) (absurd on)
  · rintro rfl on
    exact base_of_ackAccept ((mem_enabledOps (by decide)).mp on).2 h

end Sys2Proof.Proofs

/-! SUPPORT. The packet timeout arbiter and the poll (spec 44): the comparison of a slot's age and its stops,
the state a poll answers, and, in the closed system, which slots a poll finds expired and what it resends. -/

namespace Sys2Proof.Proofs

open Sys2Proof.Machine Sys2Proof.Laws

/-! ### The rows -/

theorem exec_tmoExpired (i at_ : Nat) (s : Machine.State) :
    exec (.tmoExpired i at_) s = execTmoExpired i at_ s := rfl

theorem exec_tmoArb (at_ : Nat) (s : Machine.State) : exec (.tmoArb at_) s = execTmoArb at_ s := rfl

theorem exec_txPoll (s : Machine.State) : exec .txPoll s = runOperation txPollEnabled txPoll s := rfl

/-! ### The age of one slot -/

theorem getElem?_of_stamp {s : Machine.State} {i ts : Nat} (stamp : stampOf s i = some ts) :
    s.win.sendTimestamp[i]? = some (some ts) := by
  rw [stampOf, Option.getD_eq_iff] at stamp
  simpa using stamp

/-- A slot that exists and has never been attempted has no age (R185, R256). -/
theorem slotExpired_of_unstamped {s : Machine.State} {i : Nat} (now : Nat)
    (slot : i < s.win.sendTimestamp.length) (unstamped : stampOf s i = none) :
    slotExpired i now s = .error .timestampNone := by
  rw [stampOf, List.getElem?_eq_getElem slot, Option.getD_some] at unstamped
  rw [slotExpired, List.getElem?_eq_getElem slot, unstamped]

/-- Nor has one whose stamp lies in the future (R256). -/
theorem slotExpired_of_ahead {s : Machine.State} {i now ts : Nat} (stamp : stampOf s i = some ts)
    (ahead : now < ts) : slotExpired i now s = .error .clockBehindStamp := by
  simp only [slotExpired, getElem?_of_stamp stamp, if_pos ahead]

theorem slotExpired_of_no_slot {s : Machine.State} {i : Nat} (now : Nat)
    (beyond : s.win.sendTimestamp.length ≤ i) : slotExpired i now s = .error .slotOutOfRange := by
  rw [slotExpired, List.getElem?_eq_none beyond]

theorem exec_tmoExpired_of_answer {s : Machine.State} {i at_ : Nat} {b : Bool} (up : s.cfg.cstatus = .ok)
    (answer : slotExpired i at_ s = .ok b) :
    exec (.tmoExpired i at_) s = .next (s.setResult (.flag b)) := by
  rw [exec_tmoExpired, execTmoExpired, onEngine_up up, answer, outcomeOf_ok]

theorem exec_tmoExpired_of_fault {s : Machine.State} {i at_ : Nat} {f : Fault} (up : s.cfg.cstatus = .ok)
    (stop : slotExpired i at_ s = .error f) : exec (.tmoExpired i at_) s = .fault f := by
  rw [exec_tmoExpired, execTmoExpired, onEngine_up up, stop, outcomeOf_error]

/-- Settles O21: the row answers, or stops, as the comparison of the slot's age does. -/
theorem expiredComparesStrictly : Obligations.ExpiredComparesStrictly :=
  fun _ at_ _ up =>
    ⟨fun _ stamp past => exec_tmoExpired_of_answer up (slotExpired_of_stamp stamp past),
      fun slot unstamped => exec_tmoExpired_of_fault up (slotExpired_of_unstamped at_ slot unstamped),
      fun _ stamp ahead => exec_tmoExpired_of_fault up (slotExpired_of_ahead stamp ahead),
      fun beyond => exec_tmoExpired_of_fault up (slotExpired_of_no_slot at_ beyond)⟩

/-! ### The arbiter -/

theorem timeoutAny_eq_decide (expired : List Nat) : timeoutAny expired = decide (expired ≠ []) := by
  cases expired <;> rfl

/-- Settles O22: in a stamped window the arbiter finds exactly the expired slots. -/
theorem arbiterListsTheExpiredSlots : Obligations.ArbiterListsTheExpiredSlots := by
  intro at_ s up stamped
  rw [exec_tmoArb, execTmoArb, onEngine_up up, arbitrate_of_stamps stamped, ← timeoutAny_eq_decide]
  rfl

/-- R185, R186: a slot of the window is expired exactly if its age exceeds the interval. -/
theorem mem_expiredSlots {at_ : Nat} {s : Machine.State} {i : Nat} :
    i ∈ expiredSlots at_ s ↔ i ∈ activeWindow s ∧
      ∃ ts, stampOf s i = some ts ∧ ts + s.cfg.timeoutInterval < at_ := by
  simp only [expiredSlots, List.mem_filter, Option.any_eq_true, decide_eq_true_iff,
    Nat.lt_sub_iff_add_lt']

/-! ### The poll -/

/-- The records of a retransmission's entry, one for each expired slot (R188, R265). -/
def timeoutRecords (s : Machine.State) : List LogRecord :=
  (expiredSlots s.now s).map fun (i : Nat) => { kind := .timeout, val := i }

/-- The state in which a poll passes over the window (R188, R265). -/
def retransmitting (s : Machine.State) : Machine.State :=
  (s.setLastPoll s.now).enterRetransmission (expiredSlots s.now s)

/-- The state a poll with an expired slot answers (R188, R266). -/
def retransmitted (s : Machine.State) : Machine.State :=
  (afterPass s.now (activeWindow s) (retransmitting s)).leaveRetransmission

section
variable {s : Machine.State} (up : s.cfg.cstatus = .ok) (built : s.cfg.senderBuilt = true)
  (watching : s.snd.sstate = .watching) (stamped : WindowStamped s)
include up built watching stamped

/-- R188: with no expired slot a poll only notes its time. -/
theorem exec_txPoll_of_none (quiet : expiredSlots s.now s = []) :
    exec .txPoll s = .next (s.setLastPoll s.now) := by
  have on : txPollEnabled s = true := txPollEnabled_iff.mpr ⟨built, watching⟩
  rw [exec_txPoll, runOperation_enabled up on, txPoll, arbitrate_of_stamps stamped, quiet]
  rfl

/-- R188: with one, it logs them and passes over the window. -/
theorem exec_txPoll_of_expired (h : MachineInv s) (found : expiredSlots s.now s ≠ []) :
    exec .txPoll s = .next (retransmitted s) := by
  have on : txPollEnabled s = true := txPollEnabled_iff.mpr ⟨built, watching⟩
  obtain ⟨-, period, -⟩ := h.senderConfig built
  have pass : sendWindow s.now ((s.setLastPoll s.now).enterRetransmission (expiredSlots s.now s)) =
      .ok (afterPass s.now (activeWindow s) (retransmitting s)) :=
    sendWindow_of_wf s.now (Nat.ne_of_gt period) h.stores h.ackedBelowBase
  have any : timeoutAny (expiredSlots s.now s) = true := by
    rw [timeoutAny_eq_decide, decide_eq_true_iff]
    exact found
  rw [exec_txPoll, runOperation_enabled up on, txPoll, arbitrate_of_stamps stamped]
  simp only [any, if_true, pass]
  rfl

end

/-- A retransmission attempts the window after its `TIMEOUT` records: entering and leaving it touch no
store but the log (R265, R266). -/
theorem windowAttempted_retransmitted {s : Machine.State} (stores : Memory.wf s) :
    WindowAttempted (timeoutRecords s) s (retransmitted s) :=
  { windowAttempted_afterPass (s := retransmitting s) stores with log := rfl }

/-- Back in `Watching`, the sender has only noted the time of the poll (R266). -/
theorem retransmitted_snd {s : Machine.State} (watching : s.snd.sstate = .watching) :
    (retransmitted s).snd = { s.snd with lastPoll := s.now } := by
  change { s.snd with sstate := .watching, lastPoll := s.now } = _
  rw [← watching]

/-- Settles O24: the two answers of the poll, the second back in `Watching`. -/
theorem pollRetransmitsTheWindowOnExpiry : Obligations.PollRetransmitsTheWindowOnExpiry := by
  intro s h up built watching stamped
  refine ⟨exec_txPoll_of_none up built watching stamped, fun found => ?_⟩
  refine ⟨retransmitted s, exec_txPoll_of_expired up built watching stamped h found,
    windowAttempted_retransmitted h.stores, ?_⟩
  exact congrArg (fun c => { retransmitted s with snd := c }) (retransmitted_snd watching)

/-! ### The poll in the closed system -/

/-- A stamped window slot stands only in `Watching`: before the fill no slot is stamped, and in `Done` the
window is empty (R31, R175). -/
theorem watching_of_stamp {s : Machine.State} (hc : ClosedInv s) {i ts : Nat} (hi : i ∈ activeWindow s)
    (stamp : stampOf s i = some ts) : s.snd.sstate = .watching := by
  have exists_ := lt_totalFrames_of_mem_activeWindow hi
  obtain ⟨notSliding, notRetransmitting⟩ := hc.machine.resting
  cases hs : s.snd.sstate with
  | filling =>
    obtain ⟨-, -, -, unsent⟩ := hc.unfilled hs
    exact absurd ((unsent i exists_).1.symm.trans stamp) nofun
  | watching => rfl
  | sliding => exact absurd hs notSliding
  | retransmitting => exact absurd hs notRetransmitting
  | done =>
    obtain ⟨-, last⟩ := hc.machine.doneIff.mp hs
    exact absurd exists_ (Nat.not_lt.mpr (last ▸ (mem_activeWindow.mp hi).1))

theorem watching_of_expired {s : Machine.State} (hc : ClosedInv s) {at_ : Nat}
    (found : expiredSlots at_ s ≠ []) : s.snd.sstate = .watching := by
  obtain ⟨i, hi⟩ := List.exists_mem_of_ne_nil _ found
  obtain ⟨window, ts, stamp, -⟩ := mem_expiredSlots.mp hi
  exact watching_of_stamp hc window stamp

/-- The window is stamped wherever the sender polls (R31 item 5). -/
theorem windowStamped_of_watching {s : Machine.State} (hc : ClosedInv s)
    (watching : s.snd.sstate = .watching) : WindowStamped s := hc.stamped (by simp [watching])

/-- R189: a slot that has been attempted is never withheld again: an eligible one has its flag set. -/
theorem withheldNow_of_stamp {s : Machine.State} (hc : ClosedInv s) {i ts : Nat}
    (exists_ : i < s.cfg.totalFrames) (stamp : stampOf s i = some ts) : withheldNow s i = false := by
  rw [← Bool.not_eq_true, withheldNow_iff]
  rintro ⟨eligible, positive, unflagged⟩
  rw [hc.attemptedEligible i ts exists_ stamp positive eligible] at unflagged
  cases unflagged

theorem withheldNow_of_watching {s : Machine.State} (hc : ClosedInv s)
    (watching : s.snd.sstate = .watching) : ∀ i ∈ activeWindow s, withheldNow s i = false := by
  intro i hi
  obtain ⟨hb, he⟩ := mem_activeWindow.mp hi
  obtain ⟨ts, stamp, -⟩ := windowStamped_of_watching hc watching i hb he
  exact withheldNow_of_stamp hc (lt_totalFrames_of_mem_activeWindow hi) stamp

/-- A pass that withholds no slot sets no drop flag (R150). -/
theorem droppedOnce_afterPass_of_none_withheld {s : Machine.State} (now : Nat) {slots : List Nat}
    (none : ∀ i ∈ slots, withheldNow s i = false) :
    (afterPass now slots s).win.droppedOnce = s.win.droppedOnce := by
  have empty : slots.filter (withheldNow s) = [] := List.filter_eq_nil_iff.mpr (by simpa using none)
  simp only [afterPass, empty, List.foldl_nil]

/-- Settles O52: each slot of the window has been attempted, so the pass withholds none. -/
theorem retransmissionsAreAlwaysDelivered : Obligations.RetransmissionsAreAlwaysDelivered := by
  intro s t hc h found
  have watching := watching_of_expired hc found
  have sends := withheldNow_of_watching hc watching
  have next := exec_txPoll_of_expired hc.constructed hc.built watching
    (windowStamped_of_watching hc watching) hc.machine found
  cases next.symm.trans h
  have sent := (windowAttempted_retransmitted hc.machine.stores).dch
  rw [sentMsgs_of_none_withheld sends] at sent
  exact ⟨sent, activeWindow_length s,
    droppedOnce_afterPass_of_none_withheld (s := retransmitting s) s.now sends⟩

/-! ### The window and its base -/

/-- R187: across the window the stamps do not decrease. -/
theorem stamp_le_stamp {s : Machine.State} (hc : ClosedInv s) (filled : s.snd.sstate ≠ .filling)
    {i j ts u : Nat} (hb : s.win.base ≤ i) (hij : i ≤ j) (he : j < windowEnd s)
    (hi : stampOf s i = some ts) (hj : stampOf s j = some u) : ts ≤ u := by
  induction j, hij using Nat.le_induction generalizing u with
  | base => exact Nat.le_of_eq (Option.some.inj (hi.symm.trans hj))
  | succ j hij ih =>
    have hbj := Nat.le_trans hb hij
    have hej := Nat.lt_of_succ_lt he
    obtain ⟨v, hv, -⟩ := hc.stamped filled j hbj hej
    exact Nat.le_trans (ih hej hv) (hc.stampsOrdered j v u hbj he hv hj)

/-- R187: with a slot every slot of the window before it is expired. -/
theorem mem_expiredSlots_of_le {s : Machine.State} (hc : ClosedInv s) (filled : s.snd.sstate ≠ .filling)
    {at_ i j : Nat} (hb : s.win.base ≤ i) (hij : i ≤ j) (hj : j ∈ expiredSlots at_ s) :
    i ∈ expiredSlots at_ s := by
  obtain ⟨window, u, hu, old⟩ := mem_expiredSlots.mp hj
  have hej := (mem_activeWindow.mp window).2
  have hei := Nat.lt_of_le_of_lt hij hej
  obtain ⟨ts, hts, -⟩ := hc.stamped filled i hb hei
  have older : ts ≤ u := stamp_le_stamp hc filled hb hij hej hts hu
  exact mem_expiredSlots.mpr ⟨mem_activeWindow.mpr ⟨hb, hei⟩, ts, hts,
    Nat.lt_of_le_of_lt (Nat.add_le_add_right older _) old⟩

/-- Where a predicate that holds of an element holds of all before it, the filtered list is a prefix. -/
theorem filter_prefix_of_pairwise {α : Type} {p : α → Bool} {l : List α}
    (h : l.Pairwise fun a b => p b = true → p a = true) : l.filter p <+: l := by
  induction l with
  | nil => exact List.prefix_rfl
  | cons a l ih =>
    obtain ⟨first, rest⟩ := List.pairwise_cons.mp h
    by_cases ha : p a = true
    · rw [List.filter_cons_of_pos ha]
      exact List.cons_prefix_cons.mpr ⟨rfl, ih rest⟩
    · rw [List.filter_eq_nil_iff.mpr fun b hb => ?_]
      · exact List.nil_prefix
      · rcases List.mem_cons.mp hb with rfl | hb
        · exact ha
        · exact mt (first b hb) ha

theorem expiredSlots_prefix {s : Machine.State} (hc : ClosedInv s) (filled : s.snd.sstate ≠ .filling)
    (at_ : Nat) : expiredSlots at_ s <+: activeWindow s := by
  refine filter_prefix_of_pairwise ((windowRange_pairwise_lt _ _ _).imp_of_mem fun {i j} hi hj hij old => ?_)
  have later : j ∈ expiredSlots at_ s := List.mem_filter.mpr ⟨hj, old⟩
  exact (List.mem_filter.mp
    (mem_expiredSlots_of_le hc filled (mem_activeWindow.mp hi).1 (Nat.le_of_lt hij) later)).2

/-- Settles O53: the stamps do not decrease from `base` on, so with any slot `base` is expired. -/
theorem windowTimesOutWithItsBase : Obligations.WindowTimesOutWithItsBase := by
  intro s hc watching
  have filled : s.snd.sstate ≠ .filling := by simp [watching]
  refine ⟨fun i ts u hi hts hu => ?_, fun at_ _ => ⟨expiredSlots_prefix hc filled at_, fun found => ?_,
    List.ne_nil_of_mem⟩⟩
  · obtain ⟨hb, he⟩ := mem_activeWindow.mp hi
    exact stamp_le_stamp hc filled (Nat.le_refl _) hb he hts hu
  · obtain ⟨i, hi⟩ := List.exists_mem_of_ne_nil _ found
    have hb := (mem_activeWindow.mp (mem_expiredSlots.mp hi).1).1
    exact mem_expiredSlots_of_le hc filled (Nat.le_refl _) hb hi

/-! ### The time of a report -/

/-- What a poll adds to the log (R188). -/
theorem log_txPoll {s t : Machine.State} (hc : ClosedInv s) (watching : s.snd.sstate = .watching)
    (h : exec .txPoll s = .next t) :
    ∃ slots : List Nat, t.log = s.log ++ (timeoutRecords s ++ slots.map (attemptRecord s)) := by
  have stamped := windowStamped_of_watching hc watching
  by_cases quiet : expiredSlots s.now s = []
  · cases (exec_txPoll_of_none hc.constructed hc.built watching stamped quiet).symm.trans h
    exact ⟨[], by simp [timeoutRecords, quiet]⟩
  · cases (exec_txPoll_of_expired hc.constructed hc.built watching stamped hc.machine quiet).symm.trans h
    refine ⟨activeWindow s, ?_⟩
    rw [(windowAttempted_retransmitted hc.machine.stores).log, List.append_assoc]

/-- An attempt's record is no `TIMEOUT` (R150). -/
theorem attemptRecord_kind_ne_timeout (s : Machine.State) (i : Nat) :
    (attemptRecord s i).kind ≠ .timeout := by
  cases hw : withheldNow s i <;> simp [attemptRecord, hw]

/-- Of a poll's records the `TIMEOUT`s name the expired slots. -/
theorem timeout_mem_records {s : Machine.State} {k : Nat} (slots : List Nat) :
    { kind := .timeout, val := (k : Int) } ∈ timeoutRecords s ++ slots.map (attemptRecord s) ↔
      k ∈ expiredSlots s.now s := by
  have other : { kind := .timeout, val := (k : Int) } ∉ slots.map (attemptRecord s) := fun hmem => by
    obtain ⟨i, -, hi⟩ := List.mem_map.mp hmem
    exact attemptRecord_kind_ne_timeout s i (by rw [hi])
  rw [List.mem_append, or_iff_left other]
  simp [timeoutRecords]

/-- The last poll left no slot expired, and the next is due within a tick (R192, R236). -/
theorem now_le_of_stamp {s : Machine.State} (hc : ClosedInv s) (watching : s.snd.sstate = .watching)
    {k ts : Nat} (hk : k ∈ activeWindow s) (stamp : stampOf s k = some ts) :
    s.now ≤ ts + s.cfg.timeoutInterval + s.cfg.pollTick := by
  obtain ⟨hb, he⟩ := mem_activeWindow.mp hk
  exact Nat.le_trans (hc.polled.2 watching)
    (Nat.add_le_add_right (hc.unexpired watching k ts hb he stamp) _)

/-- Settles O54: a poll reports the expired slots, and none has been expired for more than a tick. -/
theorem timeoutFiresWithinOnePollTick : Obligations.TimeoutFiresWithinOnePollTick := by
  intro s t k ts hc h hk stamp
  have watching := watching_of_stamp hc hk stamp
  obtain ⟨slots, log⟩ := log_txPoll hc watching h
  refine ⟨?_, fun _ => now_le_of_stamp hc watching hk stamp⟩
  rw [log, List.drop_left, timeout_mem_records, mem_expiredSlots]
  simp [hk, stamp]

end Sys2Proof.Proofs

/-! SUPPORT. The Receiver Engine (spec 45): the accepted and the rejected frame with their acks, the flush
at the end of the stream, and the malformed frame, on which neither accept nor reject is enabled. -/

namespace Sys2Proof.Proofs

open Sys2Proof.Machine Sys2Proof.Laws

/-! ### The rows -/

theorem exec_rxAccept (s : Machine.State) :
    exec .rxAccept s = runOperation rxAcceptEnabled rxAccept s := rfl

theorem exec_rxReject (s : Machine.State) :
    exec .rxReject s = runOperation rxRejectEnabled rxReject s := rfl

theorem exec_rxEos (s : Machine.State) : exec .rxEos s = runOperation rxEosEnabled rxEos s := rfl

theorem exec_rxMalformed (s : Machine.State) :
    exec .rxMalformed s = runOperation rxMalformedEnabled rxMalformed s := rfl

/-! ### What each effect makes of its head message -/

section
variable {s : Machine.State} {rest : List DataMsg}

/-- The ack carries the cursor as it stood before the increment (R200). -/
theorem rxAccept_cons {seq : SeqField} {plen : Nat} {payload : BitString}
    (head : s.dch = .frame seq plen payload :: rest) :
    rxAccept s = .ok { s with
      dch := rest, ach := s.ach ++ [ackOf s.cur.expected]
      cur := { expected := s.cur.expected + 1
               assembled := s.cur.assembled ++ [payload.take plen] } } := by
  rw [rxAccept, deqData_cons head]
  rfl

theorem rxReject_cons {m : DataMsg} (head : s.dch = m :: rest) :
    rxReject s =
      .ok { s with dch := rest, ach := s.ach ++ [ackOf ((s.cur.expected : Int) - 1)] } := by
  rw [rxReject, deqData_cons head]
  rfl

theorem rxMalformed_cons {m : DataMsg} (head : s.dch = m :: rest) :
    rxMalformed s =
      .ok { s with dch := rest, log := s.log ++ [{ kind := .fault, val := 16 }] } := by
  rw [rxMalformed, deqData_cons head]
  rfl

/-- The log after the flush: `FAULT 17` where bits are left over, then `WRITE_DONE` (R131, R204). -/
theorem afterFlush_log :
    (afterFlush rest s).log = s.log
      ++ (if s.cur.assembled.flatten.length % 8 = 0 then [] else [{ kind := .fault, val := 17 }])
      ++ [{ kind := .writeDone, val := 0 }] := (List.append_assoc ..).symm

/-- A malformed head frame offers no sequence number to the guards of accept and reject (R94). -/
theorem headSeq_of_malformed {seq : SeqField} {plen : Nat} {payload : BitString}
    (head : s.dch = .frame seq plen payload :: rest)
    (malformed : ¬(1 ≤ plen ∧ plen ≤ s.cfg.payloadBits)) : headSeq s = none := by
  rw [headSeq, head, List.head?_cons]
  exact if_neg (mt plenWellFormed_iff.mp malformed)

theorem rxAcceptEnabled_of_headSeq_none (h : headSeq s = none) : rxAcceptEnabled s = false := by
  simp [rxAcceptEnabled, h]

theorem rxRejectEnabled_of_headSeq_none (h : headSeq s = none) : rxRejectEnabled s = false := by
  simp [rxRejectEnabled, h]

end

/-! ### The statements -/

/-- Settles O29: the ack is read back as `expected`, which the 16-bit `seq` it equals bounds. -/
theorem acceptedFrameIsAppendedAndAcked : Obligations.AcceptedFrameIsAppendedAndAcked := by
  intro s seq plen payload rest up accepts head low high inOrder
  have on : rxAcceptEnabled s = true :=
    rxAcceptEnabled_iff.mpr ⟨accepts, seq, plen, payload, rest, head, ⟨low, high⟩, inOrder⟩
  have bound : seq.toNat < 2 ^ 16 := seq.isLt
  refine ⟨ackOf s.cur.expected, ackValue_ackOf (by omega) (by omega), ?_⟩
  rw [exec_rxAccept, runOperation_enabled up on, rxAccept_cons head, outcomeOf_ok]

/-- Settles O30: `expected - 1` lies in the ack field's range, `-1` included (R97). -/
theorem rejectedFrameRepeatsTheLastAck : Obligations.RejectedFrameRepeatsTheLastAck := by
  intro s seq plen payload rest up accepts head low high other bound
  have on : rxRejectEnabled s = true :=
    rxRejectEnabled_iff.mpr ⟨accepts, seq, plen, payload, rest, head, ⟨low, high⟩, other⟩
  refine ⟨ackOf ((s.cur.expected : Int) - 1), ackValue_ackOf (by omega) (by omega), ?_⟩
  rw [exec_rxReject, runOperation_enabled up on, rxReject_cons head, outcomeOf_ok]

/-- Settles O31: the effect is `afterFlush`, whose log is `afterFlush_log`. -/
theorem endOfStreamFlushesTheSink : Obligations.EndOfStreamFlushesTheSink := by
  intro s rest up accepts head
  have on : rxEosEnabled s = true := rxEosEnabled_iff.mpr ⟨accepts, rest, head⟩
  rw [exec_rxEos, runOperation_enabled up on, rxEos_cons head, outcomeOf_ok,
    ← afterFlush_log (rest := rest)]
  rfl

/-- Settles O32: the head enables `RX.MALFORMED`, and offers the other two guards no sequence number. -/
theorem malformedFrameIsOnlyLogged : Obligations.MalformedFrameIsOnlyLogged := by
  intro s seq plen payload rest up accepts head outside
  have malformed : ¬(1 ≤ plen ∧ plen ≤ s.cfg.payloadBits) := fun ⟨low, high⟩ =>
    outside.elim (Nat.ne_of_gt low) (Nat.not_lt.mpr high)
  have on : rxMalformedEnabled s = true :=
    rxMalformedEnabled_iff.mpr ⟨accepts, seq, plen, payload, rest, head, malformed⟩
  have noSeq := headSeq_of_malformed head malformed
  refine ⟨?_, ?_, ?_⟩
  · rw [exec_rxMalformed, runOperation_enabled up on, rxMalformed_cons head, outcomeOf_ok]
  · rw [exec_rxAccept, runOperation_disabled up (rxAcceptEnabled_of_headSeq_none noSeq)]
  · rw [exec_rxReject, runOperation_disabled up (rxRejectEnabled_of_headSeq_none noSeq)]

end Sys2Proof.Proofs

/-! SUPPORT. The event log (spec 46): its words append one record, and no instruction but a construction
takes a record out of the log or changes one. -/

namespace Sys2Proof.Proofs

open Sys2Proof.Machine Sys2Proof.Laws

/-! ### The words -/

/-- With the engines built a record word appends the one record it names (R100, R215; log 8). -/
theorem recordWord_up {s : Machine.State} (up : s.cfg.cstatus = .ok) (kind : LogKind)
    (val : SignedField) : recordWord kind val s =
      .next { s with log := s.log ++ [{ kind := kind, val := val.toInt }] } := by
  rw [recordWord, onEngine_up up, outcomeOf_ok]
  rfl

/-- Settles O34: `LOG.RECORD` and each of the seven words is `recordWord` of its kind. -/
theorem logWordsAppendOneRecord : Obligations.LogWordsAppendOneRecord :=
  fun val _ up => ⟨fun kind => recordWord_up up kind val, recordWord_up up .sent val,
    recordWord_up up .dropped val, recordWord_up up .ackAccepted val, recordWord_up up .ackIgnored val,
    recordWord_up up .timeout val, recordWord_up up .writeDone val, recordWord_up up .fault val⟩

/-! ### The log only grows -/

theorem sendWindow_log {now : Nat} {s u : Machine.State} (h : sendWindow now s = .ok u) :
    s.log <+: u.log := by
  obtain ⟨-, records, hlog⟩ := sendSlots_appends h
  exact ⟨records, hlog.symm⟩

/-- A retransmission logs the expired slots, and then the attempts of its pass (R188). -/
theorem retransmission_log {now : Nat} {s u : Machine.State} {expired : List Nat}
    (sent : sendWindow now ((s.setLastPoll now).enterRetransmission expired) = .ok u) :
    s.log <+: u.leaveRetransmission.log := (List.prefix_append _ _).trans (sendWindow_log sent)

/-- Every instruction but a construction, which empties the log (R284), keeps its records where they
stand (R219). -/
theorem effect_log {i : Instr} {s t : Machine.State} (h : Effect s i t)
    (hc : ∀ c, i ≠ .sysConstruct c) : s.log <+: t.log := by
  cases h with
  | construct l => exact absurd rfl (hc _)
  | constructAlone n => exact absurd rfl (hc _)
  | fill _ _ _ u sent => simpa using sendWindow_log sent
  | retransmit _ _ _ _ _ _ u sent => exact retransmission_log sent
  | window _ u sent => exact sendWindow_log sent
  | ackLast => exact List.prefix_append _ _
  | ackSlide => exact (List.prefix_append _ _).trans (List.prefix_append _ _)
  | ackIgnore => exact List.prefix_append _ _
  | endOfStream => exact List.prefix_append _ _
  | malformed => exact List.prefix_append _ _
  | attempt => exact List.prefix_append _ _
  | recordRow => exact List.prefix_append _ _
  | _ => exact List.prefix_rfl

/-- Settles O40, by the cases of `Effect`. -/
theorem logIsAppendOnly : Obligations.LogIsAppendOnly :=
  fun _ _ _ h hc => effect_log (exec_next h) hc

end Sys2Proof.Proofs

/-! SUPPORT. Scheduling (spec 47): what a step of the machine executes, the operations by agent, what moves
the two engines' control states, and the states in which the closed system can still move. -/

namespace Sys2Proof.Proofs

open Sys2Proof.Machine Sys2Proof.Laws

/-! ### The machine's step -/

theorem exec_envAdvance (d : Nat) (s : Machine.State) :
    exec (.envAdvance d) s = runOperation (envAdvanceEnabled d) (advanceClock d) s := rfl

theorem exec_txaIdle (s : Machine.State) :
    exec .txaIdle s = runOperation txaIdleEnabled (fun s => .ok s) s := rfl

theorem exec_rxIdle (s : Machine.State) :
    exec .rxIdle s = runOperation rxIdleEnabled (fun s => .ok s) s := rfl

theorem fetch_of_decode {s : Machine.State} {i : Instr} {rest : List Byte}
    (h : decode s.script = .ok (i, rest)) : fetch s = some (.ok (i, { s with script := rest })) := by
  cases hs : s.script with
  | nil => rw [hs] at h; cases h
  | cons b bs => rw [hs] at h; simp only [fetch, hs, h]

theorem fetch_of_error {s : Machine.State} {e : DecodeError} (ne : s.script ≠ [])
    (h : decode s.script = .error e) : fetch s = some (.error e) := by
  cases hs : s.script with
  | nil => exact absurd hs ne
  | cons b bs => rw [hs] at h; simp only [fetch, hs, h]

/-- Settles O5: the two answers of the fetch on a script that is not empty. -/
theorem stepRunsTheDecodedInstruction : Obligations.StepRunsTheDecodedInstruction := by
  refine ⟨fun s i rest h formed => ?_, fun s e ne h => ?_⟩
  · simp only [step, fetch_of_decode h, runFetched, if_pos formed]
  · simp only [step, fetch_of_error ne h]

/-- The clock is never asked to go beyond the latency contract (R236). -/
theorem envAdvanceEnabled_allowedDelay (d : Nat) (s : Machine.State) :
    envAdvanceEnabled (allowedDelay d s) s = true := by
  rw [envAdvanceEnabled_iff, allowedDelay]
  by_cases watching : s.snd.sstate = .watching
  · rw [if_pos watching]
    omega
  · exact .inr (.inl watching)

/-- Settles O6: the free choice is one of `choices`, whose last is an allowed advance. -/
theorem emptyScriptRunsAnEnabledOperation : Obligations.EmptyScriptRunsAnEnabledOperation := by
  intro s hs
  refine ⟨step_of_script_nil hs, (List.mem_append.mp (freeChoice_mem s)).imp_right fun advance => ?_⟩
  exact ⟨_, List.mem_singleton.mp advance, envAdvanceEnabled_allowedDelay _ s⟩

/-! ### Operations that wait -/

/-- Settles O37: with the engines built an operation is enabled exactly if its guard holds. -/
theorem disabledOperationsChangeNothing : Obligations.DisabledOperationsChangeNothing := by
  intro i s hi up off
  obtain ⟨effect, he⟩ := exec_eq_runOperation hi
  have guard : guardOf i s = false :=
    Bool.eq_false_iff.mpr fun on => off ((mem_enabledOps hi).mpr ⟨up, on⟩)
  rw [he, runOperation_disabled up guard]

/-- Settles O11: the two answers of the row under its guard, the latency contract. -/
theorem advanceMovesTheClockWithinTheLatencyContract :
    Obligations.AdvanceMovesTheClockWithinTheLatencyContract := by
  intro d s up
  refine ⟨fun within => ?_, fun positive watching late => ?_⟩
  · rw [exec_envAdvance, runOperation_enabled up (envAdvanceEnabled_iff.mpr within)]
    rfl
  · have off : envAdvanceEnabled d s = false := by
      rw [← Bool.not_eq_true, envAdvanceEnabled_iff]
      rintro (rfl | away | within)
      · exact Nat.lt_irrefl _ positive
      · exact away watching
      · exact Nat.not_le.mpr late within
    rw [exec_envAdvance, runOperation_disabled up off]

/-- Settles O28: each idle row has its guard, and its effect is the identity. -/
theorem idleOperationsChangeNothing : Obligations.IdleOperationsChangeNothing := by
  intro s up
  refine ⟨fun built running state empty => ?_, fun accepts empty => ?_⟩
  · rw [exec_txaIdle,
      runOperation_enabled up (txaIdleEnabled_iff.mpr ⟨⟨built, running, state⟩, empty⟩), outcomeOf_ok]
  · rw [exec_rxIdle, runOperation_enabled up (rxIdleEnabled_iff.mpr ⟨accepts, empty⟩), outcomeOf_ok]

/-! ### The engines' control states -/

theorem sendWindow_snd {now : Nat} {s u : Machine.State} (h : sendWindow now s = .ok u) :
    u.snd = s.snd := by rw [sendSlots_frame h]

theorem sendWindow_rcv {now : Nat} {s u : Machine.State} (h : sendWindow now s = .ok u) :
    u.rcv = s.rcv := by rw [sendSlots_frame h]

/-- Where `TX.FILL` is not enabled only `TXA.ACK_ACCEPT`, with an ack to take, leaves the sender in another
state than it found, the one it settles in (R228). -/
theorem effect_sstate {i : Instr} {s t : Machine.State} (h : Effect s i t)
    (hc : ∀ c, i ≠ .sysConstruct c) (off : i = .txFill → i ∉ enabledOps s) :
    t.snd.sstate = s.snd.sstate ∨
      i = .txaAckAccept ∧ s.snd.sstate ≠ .done ∧ s.ach ≠ [] ∧
        t.snd.sstate = (if t.win.base = s.cfg.totalFrames then .done else .watching) := by
  cases h with
  | construct l => exact absurd rfl (hc _)
  | constructAlone n => exact absurd rfl (hc _)
  | fill up built state =>
    exact (off rfl ((mem_enabledOps (by decide)).mpr ⟨up, txFillEnabled_iff.mpr ⟨built, state⟩⟩)).elim
  | ackLast _ _ _ state a rest head => exact .inr ⟨rfl, state, by simp [head], rfl⟩
  | ackSlide _ _ _ state a rest head => exact .inr ⟨rfl, state, by simp [head], rfl⟩
  | retransmit _ _ state => exact .inl state.symm
  | window _ u sent => exact .inl (by rw [sendWindow_snd sent])
  | _ => exact .inl rfl

/-- The fill settles in `Done` only where there is nothing to acknowledge (R160). -/
theorem sstate_of_fill {s t : Machine.State} (hm : MachineInv s) (on : txFillEnabled s = true)
    (h : exec .txFill s = .next t) :
    t.snd.sstate = if s.win.base < s.cfg.totalFrames then .watching else .done := by
  obtain ⟨up, ⟨built, state⟩, -⟩ := txFill_next on h
  cases (exec_txFill_of_inv hm up built state).symm.trans h
  change (if s.win.base = s.cfg.totalFrames then SState.done else SState.watching) = _
  by_cases open_ : s.win.base < s.cfg.totalFrames
  · rw [if_pos open_, if_neg (Nat.ne_of_lt open_)]
  · rw [if_neg open_, if_pos (Nat.le_antisymm hm.baseBound (Nat.not_lt.mp open_))]

/-- Between operations the sender fills, watches or is done (R228). -/
theorem sstate_cases {s : Machine.State} (hm : MachineInv s) :
    s.snd.sstate = .filling ∨ s.snd.sstate = .watching ∨ s.snd.sstate = .done := by
  obtain ⟨notSliding, notRetransmitting⟩ := hm.resting
  cases hs : s.snd.sstate with
  | filling => exact .inl rfl
  | watching => exact .inr (.inl rfl)
  | sliding => exact absurd hs notSliding
  | retransmitting => exact absurd hs notRetransmitting
  | done => exact .inr (.inr rfl)

/-- Settles O44: with no ack before the fill, an accepted one finds the sender `Watching`. -/
theorem senderStateFollowsItsGraph : Obligations.SenderStateFollowsItsGraph := by
  intro i s t hm unfilled h hc
  by_cases fill : i = .txFill ∧ i ∈ enabledOps s
  · obtain ⟨rfl, on⟩ := fill
    have guard := ((mem_enabledOps (by decide)).mp on).2
    exact .inr (.inl ⟨rfl, on, (txFillEnabled_iff.mp guard).2, sstate_of_fill hm guard h⟩)
  have off : i = .txFill → i ∉ enabledOps s := fun hi on => fill ⟨hi, on⟩
  obtain same | ⟨rfl, state, waiting, settled⟩ := effect_sstate (exec_next h) hc off
  · exact .inl ⟨same, off⟩
  have watching : s.snd.sstate = .watching :=
    ((sstate_cases hm).resolve_left (mt unfilled waiting)).resolve_right state
  by_cases last : t.win.base = s.cfg.totalFrames
  · exact .inr (.inr ⟨rfl, watching, by rw [settled, if_pos last], last⟩)
  · exact .inl ⟨by rw [settled, if_neg last, watching], off⟩

/-- Where `RX.EOS` is not enabled no instruction but a construction moves the receiver's control state
(R230). -/
theorem effect_rcv {i : Instr} {s t : Machine.State} (h : Effect s i t)
    (hc : ∀ c, i ≠ .sysConstruct c) (off : i = .rxEos → i ∉ enabledOps s) : t.rcv = s.rcv := by
  cases h with
  | construct l => exact absurd rfl (hc _)
  | constructAlone n => exact absurd rfl (hc _)
  | endOfStream up state rest head =>
    have on := rxEosEnabled_iff.mpr ⟨state, rest, head⟩
    exact (off rfl ((mem_enabledOps (by decide)).mpr ⟨up, on⟩)).elim
  | fill _ _ _ u sent => simp [sendWindow_rcv sent]
  | retransmit _ _ _ _ _ _ u sent => simp [sendWindow_rcv sent]
  | window _ u sent => exact sendWindow_rcv sent
  | _ => rfl

/-- In `Stopped` the receiver has no operation (R205). -/
theorem agentOps_receiver_of_stopped {s : Machine.State} (stopped : s.rcv.rstate = .stopped) :
    agentOps .receiver s = [] := by
  by_cases up : s.cfg.cstatus = .ok
  · simp only [agentOps, if_pos up]
    rw [receiverOps_eq, if_pos stopped]
  · simp only [agentOps, if_neg up]

/-- Settles O45: an enabled `RX.EOS` flushes, and by the cases of `Effect` nothing else moves the
receiver's control state. -/
theorem receiverStopsOnceAtEndOfStream : Obligations.ReceiverStopsOnceAtEndOfStream := by
  refine ⟨fun i s t h hc => ⟨fun off => ?_, ?_⟩, fun _ => agentOps_receiver_of_stopped⟩
  · exact effect_rcv (exec_next h) hc fun hi on => off.elim (absurd hi) (absurd on)
  · rintro rfl on
    obtain ⟨-, accepts, rest, -, rfl⟩ := rxEos_next ((mem_enabledOps (by decide)).mp on).2 h
    exact ⟨accepts, rfl⟩

/-! ### What the agents of the closed system can do -/

/-- The operations of each agent (R225). -/
def opsOf : Agent → List Instr
  | .main => [.txFill, .txPoll, .txFinish, .txJoin]
  | .listener => [.txaStop, .txaAckAccept, .txaAckIgnore, .txaIdle]
  | .receiver => receiverEngineOps

/-- An operation of an agent is one of its enabled ones where its guard holds (R109). -/
theorem mem_agentOps {a : Agent} {i : Instr} {s : Machine.State} (up : s.cfg.cstatus = .ok)
    (hi : i ∈ opsOf a) : i ∈ agentOps a s ↔ guardOf i s = true := by
  cases a
  all_goals
    simp only [opsOf, receiverEngineOps, List.mem_cons, List.not_mem_nil, or_false] at hi
    simp only [agentOps, if_pos up, mainOps, listenerOps, receiverOps, List.mem_append, mem_offer]
  · rcases hi with rfl | rfl | rfl | rfl <;> simp [guardOf]
  · rcases hi with rfl | rfl | rfl | rfl <;> simp [guardOf]
  · rcases hi with rfl | rfl | rfl | rfl | rfl <;> simp [guardOf]

theorem mem_enabledOps_of_agentOps {a : Agent} {i : Instr} {s : Machine.State} (h : i ∈ agentOps a s) :
    i ∈ enabledOps s := by
  cases a <;> simp [enabledOps, h]

/-- The one operation of an agent is the only one it can be scheduled for (R109). -/
theorem agentOps_unique {a : Agent} {i j : Instr} {s : Machine.State} (hc : ClosedInv s)
    (hi : i ∈ agentOps a s) (hj : j ∈ agentOps a s) : i = j := by
  obtain ⟨main, listener, receiver⟩ := eachAgentHasAtMostOneOperation s hc.machine hc.constructed
  suffices one : (agentOps a s).length ≤ 1 by
    obtain ⟨k, hk⟩ := List.length_eq_one_iff.mp
      (Nat.le_antisymm one (List.length_pos_of_mem hi))
    rw [hk, List.mem_singleton] at hi hj
    rw [hi, hj]
  cases a with
  | main => rw [main]; split_ifs <;> simp
  | listener =>
    rw [listener]
    cases s.ach <;> simp only <;> split_ifs <;> simp
  | receiver =>
    rw [receiver]
    rcases s.dch with _ | ⟨_ | _, _⟩ <;> simp only <;> split_ifs <;> simp

/-- The operation by which a receiver that expects `e` takes a message of the closed system (R109). -/
def receiverOp (e : Nat) : DataMsg → Instr
  | .eos => .rxEos
  | .frame seq _ _ => if seq.toNat = e then .rxAccept else .rxReject

/-- The operation by which the listener takes an ack while `base` is `b` (R109). -/
def listenerOp (b : Nat) (a : SignedField) : Instr :=
  if ackValue a = b then .txaAckAccept else .txaAckIgnore

/-- The receiver of the closed system takes whatever stands at the head: no frame in flight is malformed
(R80). -/
theorem agentOps_receiver_cons {s : Machine.State} (hc : ClosedInv s) (accepts : s.rcv.rstate = .accepting)
    {m : DataMsg} {rest : List DataMsg} (head : s.dch = m :: rest) :
    agentOps .receiver s = [receiverOp s.cur.expected m] := by
  simp only [agentOps, if_pos hc.constructed]
  rw [receiverOps_eq, if_neg (by simp [accepts]), head]
  cases m with
  | eos => rfl
  | frame seq plen payload =>
    obtain ⟨-, ⟨low, high⟩, -⟩ := closedInv_head_frame hc head
    have formed : ¬(plen = 0 ∨ s.cfg.payloadBits < plen) := by omega
    simp only [if_neg formed, receiverOp]
    split <;> rfl

theorem agentOps_listener_cons {s : Machine.State} (hc : ClosedInv s) (watching : s.snd.sstate = .watching)
    {a : SignedField} {rest : List SignedField} (head : s.ach = a :: rest) :
    agentOps .listener s = [listenerOp s.win.base a] := by
  have state : s.snd.sstate ≠ .done := by simp [watching]
  obtain ⟨-, running, -⟩ := flags_clear hc.machine state
  simp only [agentOps, if_pos hc.constructed]
  rw [listenerOps_eq, if_neg (by simp [hc.built, running]), if_neg state, head]
  simp only [listenerOp]
  split <;> rfl

/-- The receiver accepts until the marker has been pushed and taken (R204). -/
theorem accepting_of_unmarked {s : Machine.State} (hc : ClosedInv s) (unmarked : s.snd.eosPushed = false) :
    s.rcv.rstate = .accepting := by
  cases hr : s.rcv.rstate with
  | accepting => rfl
  | stopped => exact absurd (unmarked.symm.trans (hc.afterEos hr).2.1) Bool.false_ne_true

theorem accepting_of_watching {s : Machine.State} (hc : ClosedInv s) (watching : s.snd.sstate = .watching) :
    s.rcv.rstate = .accepting :=
  accepting_of_unmarked hc (flags_clear hc.machine (by simp [watching])).1

theorem accepting_of_not_writeDone {s : Machine.State} (hc : ClosedInv s)
    (unwritten : s.rcv.writeDone = false) : s.rcv.rstate = .accepting := by
  cases hr : s.rcv.rstate with
  | accepting => rfl
  | stopped => exact absurd (unwritten.symm.trans (hc.machine.writeDoneIff.mpr hr)) Bool.false_ne_true

/-- A sender that watches has a slot to wait for (R31). -/
theorem base_mem_activeWindow {s : Machine.State} (hc : ClosedInv s) (watching : s.snd.sstate = .watching) :
    s.win.base ∈ activeWindow s := by
  obtain ⟨window, -⟩ := hc.machine.senderConfig hc.built
  have open_ : s.win.base ≠ s.cfg.totalFrames := fun last => by
    have done := hc.machine.doneIff.mpr ⟨by simp [watching], last⟩
    simp [watching] at done
  have bound := hc.machine.baseBound
  rw [mem_activeWindow, windowEnd, winEnd]
  omega

/-! ### Completion and deadlock -/

/-- Settles O56: completion means that the exit flags are set in `Done` and the receiver has stopped. -/
theorem completionDeliversTheSource : Obligations.CompletionDeliversTheSource := by
  rintro s hc ⟨complete, written⟩
  obtain ⟨-, -, joined⟩ := hc.machine.flags
  obtain ⟨pushed, stopped⟩ := joined complete
  have done := hc.machine.flags.1 pushed
  obtain ⟨-, last⟩ := hc.machine.doneIff.mp done
  have receiverStopped := hc.machine.writeDoneIff.mp written
  obtain ⟨drained, -, delivered⟩ := hc.afterEos receiverStopped
  have all : s.cur.expected = s.cfg.totalFrames :=
    Nat.le_antisymm hc.cursorBelow (last ▸ ackCursor_le hc.acks)
  refine ⟨delivered, drained, last, all, fun a ha => all ▸ ackCursor_mem hc.acks a ha, ?_⟩
  obtain ⟨main, listener, -⟩ := eachAgentHasAtMostOneOperation s hc.machine hc.constructed
  rw [enabledOps, main, listener, agentOps_receiver_of_stopped receiverStopped]
  simp [hc.built, done, pushed, stopped, complete]

/-- An operation of R241 that does more than find a channel empty or no slot expired. -/
def IsProductive (i : Instr) : Prop := i ≠ .txPoll ∧ isIdle i = false

theorem isProductive_receiverOp (e : Nat) (m : DataMsg) : IsProductive (receiverOp e m) := by
  cases m with
  | eos => exact ⟨nofun, rfl⟩
  | frame seq plen payload =>
    simp only [receiverOp]
    split <;> exact ⟨nofun, rfl⟩

theorem isProductive_listenerOp (b : Nat) (a : SignedField) : IsProductive (listenerOp b a) := by
  unfold listenerOp
  split <;> exact ⟨nofun, rfl⟩

/-- Some agent has an enabled operation that does something. -/
def CanProgress (s : Machine.State) : Prop := ∃ i ∈ enabledOps s, IsProductive i

theorem canProgress_of_guard {a : Agent} {i : Instr} {s : Machine.State} (hc : ClosedInv s)
    (hi : i ∈ opsOf a) (on : guardOf i s = true) (productive : IsProductive i) : CanProgress s :=
  ⟨i, mem_enabledOps_of_agentOps ((mem_agentOps hc.constructed hi).mpr on), productive⟩

theorem canProgress_of_dch {s : Machine.State} (hc : ClosedInv s) (accepts : s.rcv.rstate = .accepting)
    (ne : s.dch ≠ []) : CanProgress s := by
  obtain ⟨m, rest, head⟩ := List.exists_cons_of_ne_nil ne
  have one := agentOps_receiver_cons hc accepts head
  exact ⟨_, mem_enabledOps_of_agentOps (one ▸ List.mem_singleton_self _), isProductive_receiverOp _ _⟩

theorem canProgress_of_ach {s : Machine.State} (hc : ClosedInv s) (watching : s.snd.sstate = .watching)
    (ne : s.ach ≠ []) : CanProgress s := by
  obtain ⟨a, rest, head⟩ := List.exists_cons_of_ne_nil ne
  have one := agentOps_listener_cons hc watching head
  exact ⟨_, mem_enabledOps_of_agentOps (one ▸ List.mem_singleton_self _), isProductive_listenerOp _ _⟩

/-- In `Done` the exit flags are set one after the other, and the marker is then in flight until the
receiver writes (R172, R174, R176, R204). -/
theorem canProgress_of_done {s : Machine.State} (hc : ClosedInv s) (done : s.snd.sstate = .done)
    (incomplete : ¬Completed s) : CanProgress s := by
  cases pushed : s.snd.eosPushed with
  | false =>
    exact canProgress_of_guard (a := .main) (i := .txFinish) hc (by decide)
      (txFinishEnabled_iff.mpr ⟨hc.built, done, pushed⟩) ⟨nofun, rfl⟩
  | true =>
  cases stopped : s.snd.listenerStopped with
  | false =>
    exact canProgress_of_guard (a := .listener) (i := .txaStop) hc (by decide)
      (txaStopEnabled_iff.mpr ⟨hc.built, stopped, done⟩) ⟨nofun, rfl⟩
  | true =>
  cases complete : s.snd.senderComplete with
  | false =>
    exact canProgress_of_guard (a := .main) (i := .txJoin) hc (by decide)
      (txJoinEnabled_iff.mpr ⟨hc.built, pushed, stopped, complete⟩) ⟨nofun, rfl⟩
  | true =>
    have unwritten : s.rcv.writeDone = false := Bool.eq_false_iff.mpr fun w => incomplete ⟨complete, w⟩
    have accepts := accepting_of_not_writeDone hc unwritten
    obtain ⟨ms, marker, -⟩ := hc.eosLast pushed accepts
    exact canProgress_of_dch hc accepts (by simp [marker])

/-- A poll that withholds no slot sends the whole window (R188, R189). -/
theorem dch_retransmitted {s : Machine.State} (stores : Memory.wf s)
    (sends : ∀ i ∈ activeWindow s, withheldNow s i = false) :
    (retransmitted s).dch = s.dch ++ (activeWindow s).map (slotMsg s) := by
  rw [(windowAttempted_retransmitted stores).dch, sentMsgs_of_none_withheld sends]

/-- With `DCH` empty a poll late enough fills it with the window, whatever the latency contract says of
the time until then (R188, R189). -/
theorem poll_resends_window {s : Machine.State} (hc : ClosedInv s) (watching : s.snd.sstate = .watching)
    (empty : s.dch = []) {n ts : Nat} (stamp : stampOf s s.win.base = some ts)
    (late : ts + s.cfg.timeoutInterval < n) (after : s.now ≤ n) :
    ∃ t, exec .txPoll { s with now := n } = .next t ∧
      t.dch = (activeWindow s).map (slotMsg s) ∧ t.dch ≠ [] := by
  have hm : MachineInv { s with now := n } := { hc.machine with }
  have stamped : WindowStamped { s with now := n } := fun i hb he =>
    have ⟨t, ht, past⟩ := windowStamped_of_watching hc watching i hb he
    ⟨t, ht, Nat.le_trans past after⟩
  have waiting := base_mem_activeWindow hc watching
  have found : expiredSlots n { s with now := n } ≠ [] :=
    List.ne_nil_of_mem (mem_expiredSlots.mpr ⟨waiting, ts, stamp, late⟩)
  have next := exec_txPoll_of_expired (s := { s with now := n }) hc.constructed hc.built watching stamped
    hm found
  have sends := withheldNow_of_watching hc watching
  have sent := dch_retransmitted (s := { s with now := n }) hm.stores sends
  have resent : (retransmitted { s with now := n }).dch = (activeWindow s).map (slotMsg s) :=
    sent.trans (congrArg (· ++ (activeWindow s).map (slotMsg s)) empty)
  refine ⟨_, next, resent, ?_⟩
  rw [resent]
  exact List.ne_nil_of_mem (List.mem_map_of_mem waiting)

/-- Settles O57, by the sender's state. -/
theorem closedSystemHasNoDeadlock : Obligations.ClosedSystemHasNoDeadlock := by
  intro s hc incomplete
  obtain filling | watching | done := sstate_cases hc.machine
  · exact .inl (canProgress_of_guard (a := .main) (i := .txFill) hc (by decide)
      (txFillEnabled_iff.mpr ⟨hc.built, filling⟩) ⟨nofun, rfl⟩)
  · by_cases data : s.dch = []
    · by_cases acks : s.ach = []
      · exact .inr ⟨watching, data, acks, fun n ts => poll_resends_window hc watching data⟩
      · exact .inl (canProgress_of_ach hc watching acks)
    · exact .inl (canProgress_of_dch hc (accepting_of_watching hc watching) data)
  · exact .inl (canProgress_of_done hc done incomplete)

end Sys2Proof.Proofs

/-! SUPPORT. Runs of the step relation (spec 47): what every step of a run keeps, what a retransmission does
to the receiver's reach, and the bound on the retransmissions that loss causes. -/

namespace Sys2Proof.Proofs

open Sys2Proof.Machine Sys2Proof.Laws

/-! ### Steps -/

section
variable {s t : Machine.State} {i : Instr} (h : StepsTo s i t)
include h

theorem stepsTo_isOperation : IsOperation i :=
  h.1.imp mem_operations_of_enabled fun ⟨d, hd, _⟩ => ⟨d, hd⟩

theorem stepsTo_effect : Effect s i t := exec_next h.2

theorem stepsTo_closedInv (hc : ClosedInv s) : ClosedInv t :=
  effect_closedInv (stepsTo_effect h) (stepsTo_isOperation h) hc

theorem stepsTo_ne_construct : ∀ c, i ≠ .sysConstruct c :=
  (not_script_row_of_isOperation (stepsTo_isOperation h)).1

theorem stepsTo_cfg : t.cfg = s.cfg := (effect_readOnly (stepsTo_effect h) (stepsTo_ne_construct h)).1

/-- No step of a run waits (R227). -/
theorem stepsTo_guard : guardOf i s = true := by
  obtain on | ⟨d, rfl, on⟩ := h.1
  · exact ((mem_enabledOps (mem_operations_of_enabled on)).mp on).2
  · exact on

theorem stepsTo_mem_agentOps {a : Agent} (hc : ClosedInv s) (hi : i ∈ opsOf a) : i ∈ agentOps a s :=
  (mem_agentOps hc.constructed hi).mpr (stepsTo_guard h)

end

section
variable {states : Nat → Machine.State} {ops : Nat → Instr} (run : IsRun states ops)
include run

/-- Every state of a run has the laws of the closed system. -/
theorem run_closedInv (start : ClosedInv (states 0)) (n : Nat) : ClosedInv (states n) := by
  induction n with
  | zero => exact start
  | succ n ih => exact stepsTo_closedInv (run n) ih

theorem run_cfg (n : Nat) : (states n).cfg = (states 0).cfg := by
  induction n with
  | zero => rfl
  | succ n ih => exact (stepsTo_cfg (run n)).trans ih

theorem run_cfg_eq (m n : Nat) : (states m).cfg = (states n).cfg :=
  (run_cfg run m).trans (run_cfg run n).symm

end

/-! ### The receiver's reach -/

/-- The slot the receiver will expect when it has consumed the frames in flight (R139). -/
def reach (s : Machine.State) : Nat := dataCursor s.cur.expected s.dch

/-- Messages that join the tail do not shorten it (R67). -/
theorem reach_le_of_append {s t : Machine.State} {ms : List DataMsg} (hcur : t.cur = s.cur)
    (hdch : t.dch = s.dch ++ ms) : reach s ≤ reach t := by
  rw [reach, reach, hcur, hdch, dataCursor_append]
  exact le_dataCursor _ _

/-- No step takes back what is in flight (R67, R139). -/
theorem reach_mono {s t : Machine.State} {i : Instr} (hc : ClosedInv s) (h : StepsTo s i t) :
    reach s ≤ reach t := by
  have construction := stepsTo_ne_construct h
  have effect := stepsTo_effect h
  cases effect with
  | construct => exact absurd rfl (construction _)
  | constructAlone => exact absurd rfl (construction _)
  | accept _ _ _ _ _ _ head _ inOrder =>
    rw [reach, head, dataCursor, seqValue, if_pos inOrder]
    exact Nat.le_refl _
  | reject _ _ _ _ _ _ head _ other =>
    rw [reach, head, dataCursor, seqValue, if_neg other]
    exact Nat.le_refl _
  | endOfStream _ _ _ head =>
    rw [reach, head, dataCursor]
    exact Nat.le_refl _
  | malformed _ _ _ _ _ _ head malformed =>
    exact absurd (closedInv_head_frame hc head).2.1 malformed
  | fill _ _ _ u sent =>
    obtain ⟨ms, hms⟩ := sendWindow_dch sent
    exact reach_le_of_append (sendWindow_cur sent :) hms
  | retransmit _ _ _ _ _ _ u sent =>
    obtain ⟨ms, hms⟩ := sendWindow_dch sent
    exact reach_le_of_append (sendWindow_cur sent :) hms
  | window _ u sent =>
    obtain ⟨ms, hms⟩ := sendWindow_dch sent
    exact reach_le_of_append (sendWindow_cur sent :) hms
  | finish => exact reach_le_of_append rfl rfl
  | ackSlide => exact reach_le_of_append rfl rfl
  | attempt => exact reach_le_of_append rfl rfl
  | dataWord => exact reach_le_of_append rfl rfl
  | _ => exact Nat.le_refl _

theorem base_le_reach {s : Machine.State} (hc : ClosedInv s) : s.win.base ≤ reach s :=
  Nat.le_trans (ackCursor_le hc.acks) (le_dataCursor _ _)

theorem slotLost_iff {s : Machine.State} : slotLost s = true ↔ reach s < windowEnd s := decide_eq_true_iff

/-! ### Retransmissions -/

/-- A retransmission is a poll, by a sender that watches, that finds a slot expired (R188, R265). -/
theorem retransmits_cases {s : Machine.State} {i : Instr} (hc : ClosedInv s)
    (on : guardOf i s = true) (hr : retransmits s i = true) :
    i = .txPoll ∧ s.snd.sstate = .watching ∧ expiredSlots s.now s ≠ [] := by
  rw [retransmits, Bool.and_eq_true, beq_iff_eq] at hr
  obtain ⟨rfl, found⟩ := hr
  obtain ⟨-, watching⟩ := txPollEnabled_iff.mp on
  rw [arbitrate_of_stamps (windowStamped_of_watching hc watching)] at found
  exact ⟨rfl, watching, by simpa [timeoutAny_eq_decide] using found⟩

/-- A retransmission sends every slot of the window, so what is in flight after it carries the receiver to
the window's end (R189). -/
theorem windowEnd_le_reach_of_retransmits {s t : Machine.State} {i : Instr} (hc : ClosedInv s)
    (h : StepsTo s i t) (hr : retransmits s i = true) : windowEnd s ≤ reach t := by
  obtain ⟨rfl, watching, found⟩ := retransmits_cases hc (stepsTo_guard h) hr
  have next := exec_txPoll_of_expired hc.constructed hc.built watching
    (windowStamped_of_watching hc watching) hc.machine found
  cases next.symm.trans h.2
  have sends := withheldNow_of_watching hc watching
  have sent := (windowAttempted_retransmitted hc.machine.stores).dch
  have clipped : s.win.base + (windowEnd s - s.win.base) = windowEnd s :=
    Nat.add_sub_of_le (base_le_windowEnd hc.machine)
  have pass := dataCursor_pass hc.machine.stores (clipped.symm ▸ windowEnd_le s) (base_le_reach hc)
  rw [clipped] at pass
  change windowEnd s ≤ dataCursor s.cur.expected (retransmitted s).dch
  rw [sent, dataCursor_append]
  obtain ends | ⟨withheld, inside⟩ := pass
  · exact ends
  · have beyond := Nat.le_trans (base_le_reach hc) (le_dataCursor (reach s)
      (sentMsgs s (activeWindow s)))
    have unwithheld := sends _ (mem_activeWindow.mpr ⟨beyond, inside⟩)
    exact absurd (unwithheld.symm.trans withheld) Bool.false_ne_true

/-! ### The eligible slots -/

/-- With a period of 1 every slot but slot 0 is eligible (R136). -/
theorem eligible_count_one (n : Nat) :
    ((List.range n).filter fun i => i != 0 && (i + 1) % 1 == 0).length = n - 1 := by
  induction n with
  | zero => rfl
  | succ n ih =>
    rw [List.range_succ, List.filter_append, List.length_append, ih]
    cases n <;> simp [Nat.mod_one]

/-- With a longer one slot 0 is not, and every `p`-th slot is (R136, R140). -/
theorem eligible_count {p : Nat} (hp : 1 < p) (n : Nat) :
    ((List.range n).filter fun i => i != 0 && (i + 1) % p == 0).length = n / p := by
  induction n with
  | zero => simp
  | succ n ih =>
    have first : (n != 0 && (n + 1) % p == 0) = decide (p ∣ n + 1) := by
      rw [Bool.eq_iff_iff, Bool.and_eq_true, bne_iff_ne, beq_iff_eq, decide_eq_true_iff,
        Nat.dvd_iff_mod_eq_zero]
      refine and_iff_right_of_imp fun divides => ?_
      rintro rfl
      rw [Nat.mod_eq_of_lt hp] at divides
      exact Nat.one_ne_zero divides
    rw [List.range_succ, List.filter_append, List.length_append, ih, Nat.succ_div,
      List.filter_singleton, first]
    by_cases divides : p ∣ n + 1 <;> simp [divides]

/-- The number of eligible slots is that of R140. -/
theorem length_eligibleSlots {s : Machine.State} (period : 1 ≤ s.cfg.dropPeriod) :
    (eligibleSlots s).length =
      if s.cfg.dropPeriod = 1 then s.cfg.totalFrames - 1 else s.cfg.totalFrames / s.cfg.dropPeriod := by
  by_cases one : s.cfg.dropPeriod = 1
  · rw [if_pos one, eligibleSlots, one, eligible_count_one]
  · rw [if_neg one, eligibleSlots, eligible_count (Nat.lt_of_le_of_ne period (Ne.symm one))]

/-- Where a slot is lost the receiver is carried to one that has been withheld (R139). -/
theorem reach_mem_eligibleSlots {s : Machine.State} (hc : ClosedInv s)
    (filled : s.snd.sstate ≠ .filling) (lost : slotLost s = true) : reach s ∈ eligibleSlots s := by
  have withheld : wasDropped s (reach s) = true :=
    (hc.deliverable filled).resolve_left (Nat.not_le.mpr (slotLost_iff.mp lost))
  have exists_ := lt_of_wasDropped hc.machine withheld
  obtain ⟨positive, eligible, -⟩ := hc.machine.droppedEligible _ exists_ withheld
  simp [eligibleSlots, exists_, positive, eligible]

/-! ### Retransmissions caused by loss -/

section
variable {states : Nat → Machine.State} {ops : Nat → Instr} (run : IsRun states ops)
  (start : ClosedInv (states 0))
include run start

theorem run_reach_mono {k m : Nat} (h : k ≤ m) : reach (states k) ≤ reach (states m) :=
  monotone_nat_of_le_succ (f := fun n => reach (states n))
    (fun n => reach_mono (run_closedInv run start n) (run n)) h

/-- A retransmission that loss causes carries the receiver beyond the lost slot for good. -/
theorem reach_lt_of_lossRetransmission {n k m : Nat} (hk : k ∈ lossRetransmissions states ops n)
    (h : k < m) : reach (states k) < reach (states m) := by
  obtain ⟨retransmission, lost⟩ := Bool.and_eq_true_iff.mp (List.mem_filter.mp hk).2
  calc reach (states k) < windowEnd (states k) := slotLost_iff.mp lost
    _ ≤ reach (states (k + 1)) :=
      windowEnd_le_reach_of_retransmits (run_closedInv run start k) (run k) retransmission
    _ ≤ reach (states m) := run_reach_mono run start h

theorem reach_mem_of_lossRetransmission {n k : Nat} (hk : k ∈ lossRetransmissions states ops n) :
    reach (states k) ∈ eligibleSlots (states 0) := by
  obtain ⟨retransmission, lost⟩ := Bool.and_eq_true_iff.mp (List.mem_filter.mp hk).2
  have hc := run_closedInv run start k
  obtain ⟨-, watching, -⟩ := retransmits_cases hc (stepsTo_guard (run k)) retransmission
  have eligible := reach_mem_eligibleSlots hc (by simp [watching]) lost
  rwa [eligibleSlots, run_cfg run k] at eligible

/-- Each retransmission that loss causes has an eligible slot of its own, the one the receiver was carried
to (R139, R239). -/
theorem length_lossRetransmissions_le (n : Nat) :
    (lossRetransmissions states ops n).length ≤ (eligibleSlots (states 0)).length := by
  have injective : ∀ k ∈ lossRetransmissions states ops n, ∀ m ∈ lossRetransmissions states ops n,
      reach (states k) = reach (states m) → k = m := by
    intro k hk m hm same
    obtain before | here | after := Nat.lt_trichotomy k m
    · exact absurd same (Nat.ne_of_lt (reach_lt_of_lossRetransmission run start hk before))
    · exact here
    · exact absurd same (Nat.ne_of_gt (reach_lt_of_lossRetransmission run start hm after))
  have distinct : ((lossRetransmissions states ops n).map fun k => reach (states k)).Nodup :=
    (List.nodup_range.filter _).map_on injective
  have eligible : (lossRetransmissions states ops n).map (fun k => reach (states k)) ⊆
      eligibleSlots (states 0) := by
    intro slot hs
    obtain ⟨k, hk, rfl⟩ := List.mem_map.mp hs
    exact reach_mem_of_lossRetransmission run start hk
  simpa using (List.subperm_of_subset distinct eligible).length_le

end

/-- Where no slot is lost messages are outstanding: with both channels empty the receiver stands at `base`,
within the window (R191). -/
theorem outstanding_of_not_lost {s : Machine.State} (hc : ClosedInv s) (watching : s.snd.sstate = .watching)
    (safe : slotLost s = false) : s.dch ≠ [] ∨ s.ach ≠ [] := by
  by_contra empty
  obtain ⟨data, acks⟩ : s.dch = [] ∧ s.ach = [] := by simpa [not_or] using empty
  have counted := hc.acks
  rw [acks, ackCursor, Option.some.injEq] at counted
  have standing : reach s = s.win.base := by rw [reach, data, dataCursor, counted]
  have inside := (mem_activeWindow.mp (base_mem_activeWindow hc watching)).2
  have lost := slotLost_iff.mpr (standing ▸ inside)
  exact Bool.false_ne_true (safe.symm.trans lost)

/-- Settles O59: the slots the receiver is carried to, one for each retransmission that loss causes, are
distinct and eligible; any other retransmission finds `base` expired with messages outstanding. -/
theorem lossCausesBoundedRetransmissions : Obligations.LossCausesBoundedRetransmissions := by
  intro states ops run start
  obtain ⟨-, period, -⟩ := start.machine.senderConfig start.built
  refine ⟨length_lossRetransmissions_le run start, length_eligibleSlots period,
    fun k retransmission safe => ?_⟩
  have hc := run_closedInv run start k
  obtain ⟨-, watching, found⟩ := retransmits_cases hc (stepsTo_guard (run k)) retransmission
  obtain ⟨-, base_first⟩ := (windowTimesOutWithItsBase _ hc watching).2 _ (Nat.le_refl _)
  obtain ⟨-, expired⟩ := mem_expiredSlots.mp (base_first.mp found)
  exact ⟨outstanding_of_not_lost hc watching safe, expired⟩

end Sys2Proof.Proofs

/-! SUPPORT. Fair runs (spec 47 R238, R239): the operations that advance the transfer are finitely many in
every run, and a fair run does not cease to take them before it reports completion. -/

namespace Sys2Proof.Proofs

open Sys2Proof.Machine Sys2Proof.Laws

/-! ### The operations that advance the transfer -/

/-- The operations that move a control state, an exit flag, `base` or `expected`. -/
def advancing : List Instr :=
  [.txFill, .txFinish, .txJoin, .txaStop, .txaAckAccept, .rxAccept, .rxEos]

/-- What the advancing operations move. -/
structure Control where
  sstate : SState
  eosPushed : Bool
  listenerStopped : Bool
  senderComplete : Bool
  base : Nat
  expected : Nat
  rcv : ReceiverControl

def controlOf (s : Machine.State) : Control where
  sstate := s.snd.sstate
  eosPushed := s.snd.eosPushed
  listenerStopped := s.snd.listenerStopped
  senderComplete := s.snd.senderComplete
  base := s.win.base
  expected := s.cur.expected
  rcv := s.rcv

/-- How far a transfer is: each advancing operation moves one of these forward. -/
def Control.progress (c : Control) : Nat :=
  c.sstate.code + c.base + c.expected + c.eosPushed.toNat + c.listenerStopped.toNat +
    c.senderComplete.toNat + c.rcv.writeDone.toNat

theorem sstate_code_le (v : SState) : v.code ≤ 4 := by cases v <;> decide

theorem progress_le {s : Machine.State} (hc : ClosedInv s) :
    (controlOf s).progress ≤ 2 * s.cfg.totalFrames + 8 := by
  have state := sstate_code_le s.snd.sstate
  have base := hc.machine.baseBound
  have expected := hc.cursorBelow
  have flags := Bool.toNat_le s.snd.eosPushed
  have flags' := Bool.toNat_le s.snd.listenerStopped
  have flags'' := Bool.toNat_le s.snd.senderComplete
  have written := Bool.toNat_le s.rcv.writeDone
  simp only [Control.progress, controlOf]
  omega

/-- The sender settles beyond `Filling`, at least in `Watching` (R26). -/
theorem one_le_settled_code (s : Machine.State) : 1 ≤ s.settleSState.snd.sstate.code := by
  by_cases last : s.win.base = s.cfg.totalFrames <;> simp [last, SState.code]

/-- The receiver has not written while it accepts (R35). -/
theorem writeDone_of_accepting {s : Machine.State} (hc : ClosedInv s)
    (accepts : s.rcv.rstate = .accepting) : s.rcv.writeDone = false := by
  rw [← Bool.not_eq_true, hc.machine.writeDoneIff, accepts]
  nofun

theorem progress_lt_of_settled {c : Control} {u : Machine.State} {b : Nat}
    (h : c.sstate.code + c.base < 1 + b) :
    c.progress < { c with sstate := u.settleSState.snd.sstate, base := b }.progress := by
  have settled := one_le_settled_code u
  simp only [Control.progress]
  omega

/-- An advancing operation advances the transfer (R160, R166, R172 to R176, R200, R204). -/
theorem progress_lt {s t : Machine.State} {i : Instr} (hc : ClosedInv s) (h : StepsTo s i t)
    (hi : i ∈ advancing) : (controlOf s).progress < (controlOf t).progress := by
  have on := stepsTo_guard h
  have next := h.2
  simp only [advancing, List.mem_cons, List.not_mem_nil, or_false] at hi
  rcases hi with rfl | rfl | rfl | rfl | rfl | rfl | rfl
  · obtain ⟨built, state⟩ := txFillEnabled_iff.mp on
    cases (exec_txFill_of_inv hc.machine hc.constructed built state).symm.trans next
    have filling : (controlOf s).sstate.code = 0 := congrArg SState.code state
    exact progress_lt_of_settled (b := s.win.base) (by rw [filling]; exact Nat.add_lt_add_right one_pos _)
  · obtain ⟨-, ⟨-, -, unpushed⟩, rfl⟩ := txFinish_next on next
    simp only [Control.progress, controlOf, unpushed, Bool.toNat_false, Bool.toNat_true]
    omega
  · obtain ⟨-, ⟨-, -, -, incomplete⟩, rfl⟩ := txJoin_next on next
    simp only [Control.progress, controlOf, incomplete, Bool.toNat_false, Bool.toNat_true]
    omega
  · obtain ⟨-, ⟨-, running, -⟩, rfl⟩ := txaStop_next on next
    simp only [Control.progress, controlOf, running, Bool.toNat_false, Bool.toNat_true]
    omega
  · obtain ⟨-, ⟨-, -, state⟩, a, rest, head, -, -, slides⟩ := txaAckAccept_next on next
    have watching : (controlOf s).sstate.code = 1 := congrArg SState.code (watching_of_ack hc state head)
    have later : (controlOf s).sstate.code + s.win.base < 1 + (s.win.base + 1) := by omega
    obtain ⟨-, rfl⟩ | ⟨-, -, rfl⟩ := slides
    · exact progress_lt_of_settled later
    · exact progress_lt_of_settled later
  · obtain ⟨-, -, _, _, _, _, -, -, -, rfl⟩ := rxAccept_next on next
    simp only [Control.progress, controlOf]
    omega
  · obtain ⟨-, accepts, _, -, rfl⟩ := rxEos_next on next
    have unwritten := writeDone_of_accepting hc accepts
    simp only [Control.progress, controlOf, afterFlush, unwritten, Bool.toNat_false, Bool.toNat_true]
    omega

/-- Every other step of a run leaves all of it; and WindowState too, unless it retransmits (R227). -/
theorem control_of_not_advancing {s t : Machine.State} {i : Instr} (h : StepsTo s i t)
    (hi : i ∉ advancing) : controlOf t = controlOf s ∧ (t.win = s.win ∨ retransmits s i = true) := by
  have operation := stepsTo_isOperation h
  have construction := stepsTo_ne_construct h
  have effect := stepsTo_effect h
  cases effect with
  | construct => exact absurd rfl (construction _)
  | constructAlone => exact absurd rfl (construction _)
  | retransmit _ _ state expired found ne u sent =>
    refine ⟨?_, .inr ?_⟩
    · simp [controlOf, state, sendWindow_snd sent, sendWindow_base sent, sendWindow_cur sent,
        sendWindow_rcv sent]
    · simp [retransmits, found, timeoutAny_eq_decide, ne]
  | attempt => simp [IsOperation, senderOps, receiverEngineOps] at operation
  | window => simp [IsOperation, senderOps, receiverEngineOps] at operation
  | fill => exact absurd (by decide) hi
  | finish => exact absurd (by decide) hi
  | join => exact absurd (by decide) hi
  | listenerStop => exact absurd (by decide) hi
  | ackLast => exact absurd (by decide) hi
  | ackSlide => exact absurd (by decide) hi
  | accept => exact absurd (by decide) hi
  | endOfStream => exact absurd (by decide) hi
  | _ => exact ⟨rfl, .inl rfl⟩

/-- The exit flags and the fill are offered or not by what the advancing operations move (R109). -/
theorem guardOf_congr {s t : Machine.State} {i : Instr} (hi : i ∈ [.txFill, .txFinish, .txJoin, .txaStop])
    (cfg : t.cfg = s.cfg) (control : controlOf t = controlOf s) : guardOf i t = guardOf i s := by
  simp only [controlOf, Control.mk.injEq] at control
  obtain ⟨state, pushed, stopped, complete, -⟩ := control
  simp only [List.mem_cons, List.not_mem_nil, or_false] at hi
  rcases hi with rfl | rfl | rfl | rfl
  · simp only [guardOf, txFillEnabled, cfg, state]
  · simp only [guardOf, txFinishEnabled, cfg, state, pushed]
  · simp only [guardOf, txJoinEnabled, cfg, pushed, stopped, complete]
  · simp only [guardOf, txaStopEnabled, cfg, state, stopped]

/-! ### Channels -/

/-- From step `n` of a run on agent `a` has one operation for the head of the channel `q`, which takes it,
and every other step leaves it where it stands (R67, R109). -/
structure Serves {α : Type} (states : Nat → Machine.State) (ops : Nat → Instr) (n : Nat) (a : Agent)
    (op : α → Instr) (q : Nat → List α) : Prop where
  offers : ∀ m, n ≤ m → ∀ x l, q m = x :: l → agentOps a (states m) = [op x]
  takes : ∀ m, n ≤ m → ∀ x l, q m = x :: l → ops m = op x → q (m + 1) = l
  keeps : ∀ m, n ≤ m → ∀ x l, q m = x :: l → ops m ≠ op x → ∃ l', q (m + 1) = q m ++ l'

section
variable {α : Type} {states : Nat → Machine.State} {ops : Nat → Instr} {n : Nat} {a : Agent}
  {op : α → Instr} {q : Nat → List α} (fair : AgentsAreFair states ops) (h : Serves states ops n a op q)
include fair h

/-- A fair run takes the head of a channel that is served (R238). -/
theorem Serves.head_taken {m : Nat} (hm : n ≤ m) {x : α} {l : List α} (head : q m = x :: l) :
    ∃ k, m ≤ k ∧ ops k = op x ∧ ∃ l', q k = x :: (l ++ l') := by
  by_contra never
  have waits : ∀ k, m ≤ k → ∃ l', q k = x :: (l ++ l') := by
    intro k hk
    induction k, hk using Nat.le_induction with
    | base => exact ⟨[], by rw [List.append_nil, head]⟩
    | succ k hk ih =>
      have ⟨l', hq⟩ := ih
      have untaken : ops k ≠ op x := fun taken => never ⟨k, hk, taken, ih⟩
      obtain ⟨l'', next⟩ := h.keeps k (Nat.le_trans hm hk) x _ hq untaken
      exact ⟨l' ++ l'', by rw [next, hq, List.cons_append, List.append_assoc]⟩
  have offered : ∀ k, m ≤ k → agentOps a (states k) = [op x] := fun k hk =>
    have ⟨_, hq⟩ := waits k hk
    h.offers k (Nat.le_trans hm hk) x _ hq
  obtain ⟨k, hk, scheduled⟩ := fair a (op x) m fun k hk => offered k hk ▸ List.mem_singleton_self _
  rw [offered k hk, List.mem_singleton] at scheduled
  exact never ⟨k, hk, scheduled, waits k hk⟩

/-- And so, in its turn, every message of it. -/
theorem Serves.taken {m : Nat} (hm : n ≤ m) {x : α} (hx : x ∈ q m) : ∃ k, m ≤ k ∧ ops k = op x := by
  obtain ⟨before, behind, hq⟩ := List.append_of_mem hx
  clear hx
  induction before generalizing m behind with
  | nil =>
    obtain ⟨k, hk, taken, -⟩ := h.head_taken fair hm hq
    exact ⟨k, hk, taken⟩
  | cons y before ih =>
    rw [List.cons_append] at hq
    obtain ⟨k, hk, taken, l', hq'⟩ := h.head_taken fair hm hq
    have next := h.takes k (Nat.le_trans hm hk) y _ hq' taken
    rw [List.append_assoc, List.cons_append] at next
    obtain ⟨k', hk', taken'⟩ := ih (Nat.le_succ_of_le (Nat.le_trans hm hk)) _ next
    exact ⟨k', Nat.le_trans hk (Nat.le_of_succ_le hk'), taken'⟩

end

/-- The receiver's operation takes the head of `DCH` and adds nothing (R67). -/
theorem dch_of_receiverOp {s t : Machine.State} {e : Nat} {m : DataMsg} {rest : List DataMsg}
    (h : StepsTo s (receiverOp e m) t) (head : s.dch = m :: rest) : t.dch = rest := by
  have on := stepsTo_guard h
  have next := h.2
  cases m with
  | eos =>
    obtain ⟨-, -, rest', head', rfl⟩ := rxEos_next on next
    exact (List.cons.inj (head'.symm.trans head)).2
  | frame seq plen payload =>
    simp only [receiverOp] at on next
    split at next
    · rename_i inOrder
      rw [if_pos inOrder] at on
      obtain ⟨-, -, _, _, _, rest', head', -, -, rfl⟩ := rxAccept_next on next
      exact (List.cons.inj (head'.symm.trans head)).2
    · rename_i other
      rw [if_neg other] at on
      obtain ⟨-, -, _, _, _, rest', head', -, -, rfl⟩ := rxReject_next on next
      exact (List.cons.inj (head'.symm.trans head)).2

/-- The listener's operation takes the head of `ACH` and adds nothing (R67). -/
theorem ach_of_listenerOp {s t : Machine.State} {b : Nat} {a : SignedField} {rest : List SignedField}
    (h : StepsTo s (listenerOp b a) t) (head : s.ach = a :: rest) : t.ach = rest := by
  have on := stepsTo_guard h
  have next := h.2
  simp only [listenerOp] at on next
  split at next
  · rename_i inOrder
    rw [if_pos inOrder] at on
    obtain ⟨-, -, _, rest', head', -, -, ⟨-, rfl⟩ | ⟨-, -, rfl⟩⟩ := txaAckAccept_next on next
    · exact (List.cons.inj (head'.symm.trans head)).2
    · exact (List.cons.inj (head'.symm.trans head)).2
  · rename_i other
    rw [if_neg other] at on
    obtain ⟨-, -, _, rest', head', -, rfl⟩ := txaAckIgnore_next on next
    exact (List.cons.inj (head'.symm.trans head)).2

/-- Messages that a receiver expecting `e` rejects carry it nowhere (R202). -/
theorem dataCursor_of_rejected {e : Nat} {ms : List DataMsg} (h : ∀ m ∈ ms, receiverOp e m ∉ advancing) :
    dataCursor e ms = e := by
  induction ms with
  | nil => rfl
  | cons m ms ih =>
    have ih := ih fun m' hm' => h m' (List.mem_cons_of_mem m hm')
    cases m with
    | eos => exact ih
    | frame seq plen payload =>
      have other : seq.toNat ≠ e := fun inOrder =>
        h _ List.mem_cons_self (by rw [receiverOp, if_pos inOrder]; decide)
      rw [dataCursor, seqValue, if_neg other, ih]

/-- Acks that the listener ignores count nothing (R168). -/
theorem ackCursor_of_ignored {b e : Nat} {acks : List SignedField}
    (h : ∀ a ∈ acks, listenerOp b a ∉ advancing) (counted : ackCursor b acks = some e) : e = b := by
  induction acks with
  | nil => exact (Option.some.inj counted).symm
  | cons a acks ih =>
    have other : ackValue a ≠ b := fun inOrder =>
      h a List.mem_cons_self (by rw [listenerOp, if_pos inOrder]; decide)
    exact ih (fun a' ha' => h a' (List.mem_cons_of_mem a ha')) (ackCursor_ignore counted other)

/-! ### Runs in which the transfer has ceased to advance -/

/-- Every run takes only finitely many advancing operations. -/
theorem eventually_not_advancing {states : Nat → Machine.State} {ops : Nat → Instr}
    (run : IsRun states ops) (start : ClosedInv (states 0)) : ∃ n, ∀ m, n ≤ m → ops m ∉ advancing := by
  have closed := run_closedInv run start
  have grows : Monotone fun n => (controlOf (states n)).progress := by
    refine monotone_nat_of_le_succ fun n => ?_
    by_cases hn : ops n ∈ advancing
    · exact Nat.le_of_lt (progress_lt (closed n) (run n) hn)
    · rw [(control_of_not_advancing (run n) hn).1]
  have bounded : ∀ n, (controlOf (states n)).progress ≤ 2 * (states 0).cfg.totalFrames + 8 :=
    fun n => run_cfg run n ▸ progress_le (closed n)
  obtain ⟨last, n, stays⟩ := converges_of_monotone_of_bounded grows bounded
  refine ⟨n, fun m hm advances => ?_⟩
  have moved := progress_lt (closed m) (run m) advances
  rw [stays m hm, stays (m + 1) (Nat.le_succ_of_le hm)] at moved
  exact Nat.lt_irrefl _ moved

section
variable {states : Nat → Machine.State} {ops : Nat → Instr} (run : IsRun states ops)
  (start : ClosedInv (states 0)) {n : Nat} (settled : ∀ m, n ≤ m → ops m ∉ advancing)
include run settled

theorem settled_control {m : Nat} (hm : n ≤ m) : controlOf (states m) = controlOf (states n) := by
  induction m, hm using Nat.le_induction with
  | base => rfl
  | succ m hm ih => exact (control_of_not_advancing (run m) (settled m hm)).1.trans ih

theorem settled_watching (watching : (states n).snd.sstate = .watching) {m : Nat} (hm : n ≤ m) :
    (states m).snd.sstate = .watching :=
  (congrArg Control.sstate (settled_control run settled hm)).trans watching

theorem settled_base {m : Nat} (hm : n ≤ m) : (states m).win.base = (states n).win.base :=
  congrArg Control.base (settled_control run settled hm)

theorem settled_expected {m : Nat} (hm : n ≤ m) : (states m).cur.expected = (states n).cur.expected :=
  congrArg Control.expected (settled_control run settled hm)

theorem settled_rcv {m : Nat} (hm : n ≤ m) : (states m).rcv = (states n).rcv :=
  congrArg Control.rcv (settled_control run settled hm)

include start

/-- In a fair run the fill and the exit flags are then no longer offered (R238). -/
theorem settled_guard_off (fair : AgentsAreFair states ops) {a : Agent} {i : Instr} (ha : i ∈ opsOf a)
    (hi : i ∈ [.txFill, .txFinish, .txJoin, .txaStop]) : guardOf i (states n) = false := by
  rw [← Bool.not_eq_true]
  intro on
  have offered : ∀ m, n ≤ m → i ∈ agentOps a (states m) := fun m hm => by
    rw [mem_agentOps (run_closedInv run start m).constructed ha,
      guardOf_congr hi (run_cfg_eq run m n) (settled_control run settled hm)]
    exact on
  obtain ⟨m, hm, scheduled⟩ := fair a i n offered
  have same := agentOps_unique (run_closedInv run start m) scheduled (offered m hm)
  have advances : ∀ j ∈ [Instr.txFill, .txFinish, .txJoin, .txaStop], j ∈ advancing := by decide
  exact settled m hm (same ▸ advances i hi)

/-- While it accepts, the receiver serves `DCH`. -/
theorem settled_serves_dch (accepts : (states n).rcv.rstate = .accepting) :
    Serves states ops n .receiver (receiverOp (states n).cur.expected) fun m => (states m).dch := by
  have offers : ∀ m, n ≤ m → ∀ x l, (states m).dch = x :: l →
      agentOps .receiver (states m) = [receiverOp (states n).cur.expected x] := fun m hm x l head => by
    have accepts' : (states m).rcv.rstate = .accepting := by rwa [settled_rcv run settled hm]
    rw [agentOps_receiver_cons (run_closedInv run start m) accepts' head,
      settled_expected run settled hm]
  refine ⟨offers, fun m hm x l head taken => dch_of_receiverOp (taken ▸ run m) head,
    fun m hm x l head other => ?_⟩
  refine (effect_dch (stepsTo_effect (run m)) (stepsTo_ne_construct (run m))).resolve_right ?_
  rintro ⟨takes, -⟩
  have consumers : ∀ i ∈ [Instr.rxAccept, .rxReject, .rxEos, .rxMalformed], i ∈ opsOf .receiver := by
    decide
  have scheduled := stepsTo_mem_agentOps (run m) (run_closedInv run start m) (consumers _ takes)
  rw [offers m hm x l head] at scheduled
  exact other (List.mem_singleton.mp scheduled)

/-- While it watches, the listener serves `ACH`. -/
theorem settled_serves_ach (watching : (states n).snd.sstate = .watching) :
    Serves states ops n .listener (listenerOp (states n).win.base) fun m => (states m).ach := by
  have offers : ∀ m, n ≤ m → ∀ x l, (states m).ach = x :: l →
      agentOps .listener (states m) = [listenerOp (states n).win.base x] := fun m hm x l head => by
    rw [agentOps_listener_cons (run_closedInv run start m) (settled_watching run settled watching hm) head,
      settled_base run settled hm]
  refine ⟨offers, fun m hm x l head taken => ach_of_listenerOp (taken ▸ run m) head,
    fun m hm x l head other => ?_⟩
  refine (effect_ach (stepsTo_effect (run m)) (stepsTo_ne_construct (run m))).resolve_right ?_
  rintro ⟨takes, -⟩
  have consumers : ∀ i ∈ [Instr.txaAckAccept, .txaAckIgnore], i ∈ opsOf .listener := by decide
  have scheduled := stepsTo_mem_agentOps (run m) (run_closedInv run start m) (consumers _ takes)
  rw [offers m hm x l head] at scheduled
  exact other (List.mem_singleton.mp scheduled)

variable (fair : Fair states ops)
include fair

/-- In a fair run no message is then in flight that would advance the receiver. -/
theorem settled_dch (accepts : (states n).rcv.rstate = .accepting) {m : Nat} (hm : n ≤ m) :
    ∀ x ∈ (states m).dch, receiverOp (states n).cur.expected x ∉ advancing := by
  intro x hx
  obtain ⟨k, hk, taken⟩ := (settled_serves_dch run start settled accepts).taken fair.1 hm hx
  exact taken ▸ settled k (Nat.le_trans hm hk)

/-- Nor an ack that would advance the sender. -/
theorem settled_ach (watching : (states n).snd.sstate = .watching) {m : Nat} (hm : n ≤ m) :
    ∀ a ∈ (states m).ach, listenerOp (states n).win.base a ∉ advancing := by
  intro a ha
  obtain ⟨k, hk, taken⟩ := (settled_serves_ach run start settled watching).taken fair.1 hm ha
  exact taken ▸ settled k (Nat.le_trans hm hk)

/-- A sender that watched on would have the receiver stand at `base`, with no frame in flight to carry it
further. -/
theorem settled_reach (watching : (states n).snd.sstate = .watching) {m : Nat} (hm : n ≤ m) :
    reach (states m) = (states n).win.base := by
  have accepts := accepting_of_watching (run_closedInv run start n) watching
  have standing := dataCursor_of_rejected (settled_dch run start settled fair accepts hm)
  have counted := ackCursor_of_ignored (settled_ach run start settled fair watching (Nat.le_refl n))
    (run_closedInv run start n).acks
  rw [reach, settled_expected run settled hm, standing, counted]

/-- It would never retransmit, as that carries the receiver to the window's end (R189). -/
theorem settled_not_retransmits (watching : (states n).snd.sstate = .watching) {m : Nat} (hm : n ≤ m) :
    retransmits (states m) (ops m) = false := by
  rw [← Bool.not_eq_true]
  intro retransmission
  have hc := run_closedInv run start m
  have carried := windowEnd_le_reach_of_retransmits hc (run m) retransmission
  have waiting := base_mem_activeWindow hc (settled_watching run settled watching hm)
  have inside := (mem_activeWindow.mp waiting).2
  rw [settled_reach run start settled fair watching (Nat.le_succ_of_le hm)] at carried
  rw [settled_base run settled hm] at inside
  exact Nat.lt_irrefl _ (Nat.lt_of_lt_of_le inside carried)

theorem settled_win (watching : (states n).snd.sstate = .watching) {m : Nat} (hm : n ≤ m) :
    (states m).win = (states n).win := by
  induction m, hm using Nat.le_induction with
  | base => rfl
  | succ m hm ih =>
    obtain same | retransmission := (control_of_not_advancing (run m) (settled m hm)).2
    · exact same.trans ih
    · have quiet := settled_not_retransmits run start settled fair watching hm
      exact absurd (quiet.symm.trans retransmission) Bool.false_ne_true

/-- So it does not watch on: time would pass beyond the interval of `base` with no poll to notice (R192,
R238). -/
theorem settled_not_watching : (states n).snd.sstate ≠ .watching := by
  intro watching
  have hn := run_closedInv run start n
  have waiting := base_mem_activeWindow hn watching
  obtain ⟨low, inside⟩ := mem_activeWindow.mp waiting
  obtain ⟨ts, stamp, -⟩ := windowStamped_of_watching hn watching _ low inside
  obtain ⟨m, hm, late⟩ := fair.2 n (ts + (states n).cfg.timeoutInterval + (states n).cfg.pollTick)
    fun m hm => settled_watching run settled watching hm
  have win := settled_win run start settled fair watching hm
  have cfg := run_cfg_eq run m n
  have waiting' : (states n).win.base ∈ activeWindow (states m) := by rwa [activeWindow, win, cfg]
  have stamp' : stampOf (states m) (states n).win.base = some ts := by rwa [stampOf, win]
  have due := now_le_of_stamp (run_closedInv run start m) (settled_watching run settled watching hm)
    waiting' stamp'
  rw [cfg] at due
  exact Nat.lt_irrefl _ (Nat.lt_of_lt_of_le late due)

/-- A fair run that has ceased to advance is in `Done`, with every exit flag set. -/
theorem settled_senderComplete : (states n).snd.senderComplete = true := by
  have hc := run_closedInv run start n
  have noFill : txFillEnabled (states n) = false :=
    settled_guard_off run start settled fair.1 (a := .main) (i := .txFill) (by decide) (by decide)
  have noFinish : txFinishEnabled (states n) = false :=
    settled_guard_off run start settled fair.1 (a := .main) (i := .txFinish) (by decide) (by decide)
  have noStop : txaStopEnabled (states n) = false :=
    settled_guard_off run start settled fair.1 (a := .listener) (i := .txaStop) (by decide) (by decide)
  have noJoin : txJoinEnabled (states n) = false :=
    settled_guard_off run start settled fair.1 (a := .main) (i := .txJoin) (by decide) (by decide)
  have done : (states n).snd.sstate = .done := by
    obtain filling | watching | done := sstate_cases hc.machine
    · simp [txFillEnabled, hc.built, filling] at noFill
    · exact absurd watching (settled_not_watching run start settled fair)
    · exact done
  have pushed : (states n).snd.eosPushed = true := by simpa [txFinishEnabled, hc.built, done] using noFinish
  have stopped : (states n).snd.listenerStopped = true := by
    simpa [txaStopEnabled, hc.built, done] using noStop
  simpa [txJoinEnabled, hc.built, pushed, stopped] using noJoin

/-- And its receiver has taken the marker, which is the last message (R80, R204). -/
theorem settled_writeDone : (states n).rcv.writeDone = true := by
  by_contra unwritten
  have hc := run_closedInv run start n
  have accepts := accepting_of_not_writeDone hc (Bool.eq_false_iff.mpr unwritten)
  obtain ⟨-, -, joined⟩ := hc.machine.flags
  obtain ⟨pushed, -⟩ := joined (settled_senderComplete run start settled fair)
  obtain ⟨ms, marker, -⟩ := hc.eosLast pushed accepts
  have flushes : Instr.rxEos ∈ advancing := by decide
  exact settled_dch run start settled fair accepts (Nat.le_refl n) .eos (by simp [marker]) flushes

end

/-- Settles O58: a run takes finitely many advancing operations, and a fair one that takes no more of them
has completed. -/
theorem everyFairRunCompletesTheTransfer : Obligations.EveryFairRunCompletesTheTransfer := by
  intro states ops run fair start
  obtain ⟨n, settled⟩ := eventually_not_advancing run start
  exact ⟨n, settled_senderComplete run start settled fair, settled_writeDone run start settled fair⟩

end Sys2Proof.Proofs

/-! SUPPORT. A schedule that completes the transfer (spec 47 R239): the agents and the clock in turn, which
is a fair run if the clock can move between polls. -/

namespace Sys2Proof.Proofs

open Sys2Proof.Machine Sys2Proof.Laws

/-! ### The steps of a schedule as steps of a run -/

/-- The steps of a schedule of agents and clock (R106). -/
def IsScheduled (st : ScriptStep) : Prop := (∃ a, st = .agent a) ∨ ∃ d, st = .advance d

/-- The instruction such a step executes; where it waits, an advance by nothing (log 6). -/
def instrOf (st : ScriptStep) (s : Machine.State) : Instr :=
  match st with
  | .agent a => (agentOps a s).headD (.envAdvance 0)
  | .advance d => if envAdvanceEnabled d s then .envAdvance d else .envAdvance 0
  | _ => .envAdvance 0

theorem exec_envAdvance_zero {s : Machine.State} (up : s.cfg.cstatus = .ok) :
    exec (.envAdvance 0) s = .next s :=
  (advanceMovesTheClockWithinTheLatencyContract 0 s up).1 (.inl rfl)

theorem run_eq_exec_instrOf {st : ScriptStep} {s : Machine.State} (up : s.cfg.cstatus = .ok)
    (hst : IsScheduled st) : st.run s = exec (instrOf st s) s := by
  obtain ⟨a, rfl⟩ | ⟨d, rfl⟩ := hst
  · cases ha : agentOps a s <;> simp [ScriptStep.run, instrOf, ha, exec_envAdvance_zero up]
  · simp only [ScriptStep.run, instrOf]
    by_cases on : envAdvanceEnabled d s = true
    · rw [if_pos on]
    · rw [if_neg on, exec_envAdvance_zero up, exec_envAdvance,
        runOperation_disabled up (Bool.eq_false_iff.mpr on)]

/-- In the closed system such a step is one of the step relation (R227). -/
theorem stepsTo_of_run {st : ScriptStep} {s : Machine.State} (hc : ClosedInv s) (hst : IsScheduled st) :
    ∃ t, st.run s = .next t ∧ StepsTo s (instrOf st s) t := by
  have allowed : instrOf st s ∈ enabledOps s ∨
      ∃ d, instrOf st s = .envAdvance d ∧ envAdvanceEnabled d s = true := by
    have idle : envAdvanceEnabled 0 s = true := envAdvanceEnabled_iff.mpr (.inl rfl)
    obtain ⟨a, rfl⟩ | ⟨d, rfl⟩ := hst
    · cases ha : agentOps a s with
      | nil => exact .inr ⟨0, by simp [instrOf, ha], idle⟩
      | cons i l => exact .inl (mem_enabledOps_of_agentOps (a := a) (by simp [instrOf, ha]))
    · by_cases on : envAdvanceEnabled d s = true
      · exact .inr ⟨d, if_pos on, on⟩
      · exact .inr ⟨0, if_neg on, idle⟩
  obtain ⟨t, ht⟩ := operation_completes hc
    (allowed.imp mem_operations_of_enabled fun ⟨d, hd, _⟩ => ⟨d, hd⟩)
  exact ⟨t, (run_eq_exec_instrOf hc.constructed hst).trans ht, allowed, ht⟩

theorem runScript_append {steps more : List ScriptStep} {s t : Machine.State}
    (h : runScript steps s = .next t) : runScript (steps ++ more) s = runScript more t := by
  induction steps generalizing s with
  | nil => cases h; rfl
  | cons st steps ih =>
    simp only [runScript, List.cons_append] at h ⊢
    split at h
    · exact ih h
    · cases h
    · cases h

/-! ### The agents and the clock in turn -/

/-- The turn of each agent in a round of four steps; the fourth is the clock's. -/
def turnOf : Agent → Nat
  | .listener => 0
  | .receiver => 1
  | .main => 2

/-- The schedule `(A R M +1)*k`, step by step (R106). -/
def roundRobin (n : Nat) : ScriptStep :=
  match n % 4 with
  | 0 => .agent .listener
  | 1 => .agent .receiver
  | 2 => .agent .main
  | _ => .advance 1

theorem isScheduled_roundRobin (n : Nat) : IsScheduled (roundRobin n) := by
  unfold roundRobin
  split
  · exact .inl ⟨_, rfl⟩
  · exact .inl ⟨_, rfl⟩
  · exact .inl ⟨_, rfl⟩
  · exact .inr ⟨_, rfl⟩

theorem roundRobin_agent (k : Nat) (a : Agent) : roundRobin (4 * k + turnOf a) = .agent a := by
  cases a <;> simp [roundRobin, turnOf]

theorem roundRobin_clock (k : Nat) : roundRobin (4 * k + 3) = .advance 1 := by
  simp [roundRobin]

/-- The state a step of a schedule leads to; a schedule of agents and clock never stops (R256). -/
def afterStep (st : ScriptStep) (s : Machine.State) : Machine.State :=
  match st.run s with
  | .next t => t
  | _ => s

/-- The states the schedule goes through from `s`. -/
def roundStates (s : Machine.State) : Nat → Machine.State
  | 0 => s
  | n + 1 => afterStep (roundRobin n) (roundStates s n)

/-- The instructions it executes. -/
def roundOps (s : Machine.State) (n : Nat) : Instr := instrOf (roundRobin n) (roundStates s n)

theorem roundStates_step {s : Machine.State} {n : Nat} (hn : ClosedInv (roundStates s n)) :
    (roundRobin n).run (roundStates s n) = .next (roundStates s (n + 1)) ∧
      StepsTo (roundStates s n) (roundOps s n) (roundStates s (n + 1)) := by
  obtain ⟨t, ht, step⟩ := stepsTo_of_run hn (isScheduled_roundRobin n)
  have next : roundStates s (n + 1) = t := by rw [roundStates, afterStep, ht]
  rw [next]
  exact ⟨ht, step⟩

section
variable {s : Machine.State} (hc : ClosedInv s)
include hc

theorem roundStates_closedInv (n : Nat) : ClosedInv (roundStates s n) := by
  induction n with
  | zero => exact hc
  | succ n ih => exact stepsTo_closedInv (roundStates_step ih).2 ih

theorem roundStates_isRun : IsRun (roundStates s) (roundOps s) :=
  fun n => (roundStates_step (roundStates_closedInv hc n)).2

theorem runScript_roundRobin (n : Nat) :
    runScript ((List.range n).map roundRobin) s = .next (roundStates s n) := by
  induction n with
  | zero => rfl
  | succ n ih =>
    rw [List.range_succ, List.map_append, runScript_append ih]
    simp only [List.map_cons, List.map_nil, runScript,
      (roundStates_step (roundStates_closedInv hc n)).1]

end

/-! ### It is fair -/

/-- Each agent has its turn in every round (R238). -/
theorem roundRobin_agentsAreFair (s : Machine.State) : AgentsAreFair (roundStates s) (roundOps s) := by
  intro a i n offered
  have later : n ≤ 4 * n + turnOf a := by omega
  have waiting := offered _ later
  refine ⟨4 * n + turnOf a, later, ?_⟩
  rw [roundOps, roundRobin_agent, instrOf]
  cases ha : agentOps a (roundStates s (4 * n + turnOf a)) with
  | nil => rw [ha] at waiting; cases waiting
  | cons j l => exact List.mem_cons_self

theorem stepsTo_now_le {s t : Machine.State} {i : Instr} (h : StepsTo s i t) : s.now ≤ t.now := by
  obtain same | ⟨d, -, later⟩ := effect_now (stepsTo_effect h) (stepsTo_ne_construct h)
  · exact Nat.le_of_eq same.symm
  · exact later ▸ Nat.le_add_right _ _

theorem run_now_mono {states : Nat → Machine.State} {ops : Nat → Instr} (run : IsRun states ops)
    {k m : Nat} (h : k ≤ m) : (states k).now ≤ (states m).now :=
  monotone_nat_of_le_succ (f := fun n => (states n).now) (fun n => stepsTo_now_le (run n)) h

/-- After a poll the latency contract begins anew (R188, R236). -/
theorem lastPoll_of_txPoll {s t : Machine.State} (h : StepsTo s .txPoll t) : t.snd.lastPoll = t.now := by
  obtain ⟨-, -, expired, -, ⟨-, rfl⟩ | ⟨-, u, sent, rfl⟩⟩ := txPoll_next (stepsTo_guard h) h.2
  · rfl
  · simp [sendWindow_snd sent, sendWindow_now sent]

theorem agentOps_main_of_watching {s : Machine.State} (hc : ClosedInv s)
    (watching : s.snd.sstate = .watching) : agentOps .main s = [.txPoll] := by
  obtain ⟨main, -, -⟩ := eachAgentHasAtMostOneOperation s hc.machine hc.constructed
  rw [main]
  simp [hc.built, watching]

/-- While the sender watches each round polls and then moves the clock (R236). -/
theorem now_lt_of_round {s : Machine.State} (hc : ClosedInv s) (tick : 0 < s.cfg.pollTick) {k : Nat}
    (watching : ∀ m, 4 * k ≤ m → (roundStates s m).snd.sstate = .watching) :
    (roundStates s (4 * k)).now < (roundStates s (4 * (k + 1))).now := by
  have run := roundStates_isRun hc
  have closed := roundStates_closedInv hc
  have before := run_now_mono run (Nat.le_add_right (4 * k) 3)
  have polls : roundOps s (4 * k + 2) = .txPoll := by
    rw [roundOps, show 4 * k + 2 = 4 * k + turnOf .main from rfl, roundRobin_agent, instrOf,
      agentOps_main_of_watching (closed _) (watching _ (Nat.le_add_right _ _))]
    rfl
  have polled := lastPoll_of_txPoll (polls ▸ run (4 * k + 2))
  have cfg : (roundStates s (4 * k + 3)).cfg = s.cfg := run_cfg run _
  have allowed : envAdvanceEnabled 1 (roundStates s (4 * k + 3)) = true := by
    rw [envAdvanceEnabled_iff, polled, cfg]
    exact .inr (.inr (Nat.add_le_add_left tick _))
  have moves : roundOps s (4 * k + 3) = .envAdvance 1 := by
    rw [roundOps, roundRobin_clock, instrOf, if_pos allowed]
  obtain ⟨-, -, moved⟩ := envAdvance_next allowed (moves ▸ run (4 * k + 3)).2
  rw [show 4 * (k + 1) = 4 * k + 3 + 1 from rfl, moved]
  exact Nat.lt_succ_of_le before

/-- So time passes any bound (R238). -/
theorem roundRobin_timePasses {s : Machine.State} (hc : ClosedInv s) (tick : 0 < s.cfg.pollTick) :
    TimePasses (roundStates s) := by
  intro n bound watching
  have passes : ∀ k, k ≤ (roundStates s (4 * (n + k))).now := by
    intro k
    induction k with
    | zero => exact Nat.zero_le _
    | succ k ih =>
      exact Nat.lt_of_le_of_lt ih (now_lt_of_round hc tick fun m hm => watching m (by omega))
  exact ⟨4 * (n + (bound + 1)), by omega, passes (bound + 1)⟩

/-- Settles O60: the agents and the clock in turn are a fair run, which completes, and its steps up to there
are the schedule. -/
theorem someScheduleCompletesTheTransfer : Obligations.SomeScheduleCompletesTheTransfer := by
  intro s hc tick
  obtain ⟨n, completed⟩ := everyFairRunCompletesTheTransfer (roundStates s) (roundOps s)
    (roundStates_isRun hc) ⟨roundRobin_agentsAreFair s, roundRobin_timePasses hc tick⟩ hc
  refine ⟨(List.range n).map roundRobin, roundStates s n, fun st hst => ?_,
    runScript_roundRobin hc n, completed⟩
  obtain ⟨k, -, rfl⟩ := List.mem_map.mp hst
  exact isScheduled_roundRobin k

end Sys2Proof.Proofs

/-! SUPPORT. The construction's fault code (spec 60) and the receiver built alone (spec 70), and that
neither engine reads or writes the other's registers (60 R271). -/

namespace Sys2Proof.Proofs

open Sys2Proof.Machine Sys2Proof.Laws

/-! ### The fault code of a construction -/

/-- The code a source gets by itself: whether it can be read, and whether the codec can count its frames
(R248, R251, R261). -/
theorem construct_cstatus_of_bounds {l : Launch} (s : Machine.State) (hw : 1 ≤ l.windowSize)
    (hc : 16 < l.frameCapacityBits) (hp : 1 ≤ l.dropPeriod) (ht : 0 < l.timeoutInterval) :
    (construct l s).cfg.cstatus =
      match l.source with
      | none => .sourceUnreadable
      | some bytes =>
        if 2 ^ 16 * (l.frameCapacityBits - 16) < 8 * bytes.length then .configFrameCount else .ok := by
  unfold construct
  rw [if_neg (by omega), if_neg (Nat.not_le.mpr hc), if_neg (by omega), if_neg (by omega)]
  cases l.source with
  | none => rfl
  | some bytes =>
    by_cases many : 2 ^ 16 * (l.frameCapacityBits - 16) < 8 * bytes.length
    · simp only [encodeSource_of_too_many hc many, if_pos many]
      rfl
    · obtain ⟨frames, fits⟩ := encodeSource_of_fits (source := bytes) hc (Nat.not_lt.mp many)
      simp only [fits, if_neg many]
      rfl

/-- Settles O7: the first violated bound decides, one case per bound; where all four hold, the source
does. -/
theorem constructionReportsTheFirstViolation : Obligations.ConstructionReportsTheFirstViolation := by
  intro l s
  refine ⟨construct l s, exec_construct_pair l s, ?_⟩
  split_ifs with hw hc hp ht
  · rw [construct, if_pos hw]
    rfl
  · rw [construct, if_neg hw, if_pos hc]
    rfl
  · rw [construct, if_neg hw, if_neg hc, if_pos hp]
    rfl
  · rw [construct, if_neg hw, if_neg hc, if_neg hp, if_pos ht]
    rfl
  · exact construct_cstatus_of_bounds s (by omega) (by omega) (by omega) (by omega)

/-! ### A receiver without a sender -/

section
variable {s : Machine.State} (alone : s.cfg.senderBuilt = false)
include alone

/-- Every guard of the main activity asks for a Sender Engine (R283; log 26). -/
theorem agentOps_main_of_alone : agentOps .main s = [] := by
  simp [agentOps, mainOps, txFillEnabled, txPollEnabled, txFinishEnabled, txJoinEnabled, alone,
    offer_false]

theorem agentOps_listener_of_alone : agentOps .listener s = [] := by
  simp [agentOps, listenerOps_eq, alone]

/-- With nothing in `DCH` only the receiver's idle operation is left (R109, R232, R283). -/
theorem enabledOps_of_alone (up : s.cfg.cstatus = .ok) (accepts : s.rcv.rstate = .accepting)
    (empty : s.dch = []) : enabledOps s = [.rxIdle] := by
  rw [enabledOps, agentOps_main_of_alone alone, agentOps_listener_of_alone alone]
  simp [agentOps, up, receiverOps_eq, accepts, empty]

end

/-- Settles O9: a width of at least 1 builds the receiver, and its idle operation is the one whose guard
holds; a width of 0 is refused. -/
theorem receiverAloneIsBuiltFromItsPayloadWidth :
    Obligations.ReceiverAloneIsBuiltFromItsPayloadWidth := by
  intro n s
  constructor
  · intro hn
    refine ⟨s.constructedAlone n, ?_, rfl, Nat.add_sub_cancel n 16, rfl, rfl, rfl, rfl, rfl, rfl,
      machineInv_constructedAlone hn s, fun d w => ⟨agentOps_main_of_alone rfl,
        agentOps_listener_of_alone rfl, fun empty => enabledOps_of_alone rfl rfl rfl empty⟩⟩
    rw [exec_construct_alone, constructAlone, if_neg (Nat.not_lt.mpr hn)]
  · rintro rfl
    exact ⟨s.failConstruction .configFrameCapacity, exec_construct_alone 0 s, rfl⟩

/-! ### Replacing what an operation does not touch -/

/-- An operation commutes with a change of the state that leaves the configuration and its guard as they
are and commutes with its effect; so does its waiting. -/
theorem runOperation_mapNext {en : Machine.State → Bool}
    {effect : Machine.State → Except Fault Machine.State} {f : Machine.State → Machine.State}
    {s : Machine.State} (cfg : (f s).cfg = s.cfg) (guard : en (f s) = en s)
    (acts : en s = true → effect (f s) = (effect s).map f) :
    runOperation en effect (f s) = mapNext f (runOperation en effect s) := by
  by_cases up : s.cfg.cstatus = .ok
  case neg => rw [runOperation_down up, runOperation_down (cfg ▸ up), mapNext]
  cases on : en s with
  | false =>
    rw [runOperation_disabled up on, runOperation_disabled (cfg ▸ up) (guard.trans on), mapNext]
  | true =>
    rw [runOperation_enabled up on, runOperation_enabled (cfg ▸ up) (guard.trans on), acts on]
    cases effect s with
    | ok t => rfl
    | error e => rfl

/-! ### The receiver beside any sender -/

/-- The state with other sender's registers, another clock, and other acks in place of the first `old`
ones: those `ACH` held before the operation. -/
def withSender (w : WindowState) (c : SenderControl) (n : Nat) (acks : List SignedField) (old : Nat)
    (t : Machine.State) : Machine.State :=
  { t with win := w, snd := c, now := n, ach := acks ++ t.ach.drop old }

section
variable {w : WindowState} {c : SenderControl} {n : Nat} {acks : List SignedField} {old : Nat}
  {s : Machine.State} {rest : List DataMsg}

theorem withSender_self :
    withSender w c n acks s.ach.length s = { s with win := w, snd := c, now := n, ach := acks } := by
  simp [withSender]

/-- An accepted frame touches `DCH`, the cursor and the tail of `ACH` (R200). -/
theorem rxAccept_withSender (h : old ≤ s.ach.length) {seq : SeqField} {plen : Nat} {payload : BitString}
    (head : s.dch = .frame seq plen payload :: rest) :
    rxAccept (withSender w c n acks old s) = (rxAccept s).map (withSender w c n acks old) := by
  rw [rxAccept_cons head, rxAccept_cons (s := withSender w c n acks old s) head]
  simp [withSender, Except.map, List.drop_append_of_le_length h]

/-- A rejected frame touches `DCH` and the tail of `ACH` (R202). -/
theorem rxReject_withSender (h : old ≤ s.ach.length) {m : DataMsg} (head : s.dch = m :: rest) :
    rxReject (withSender w c n acks old s) = (rxReject s).map (withSender w c n acks old) := by
  rw [rxReject_cons head, rxReject_cons (s := withSender w c n acks old s) head]
  simp [withSender, Except.map, List.drop_append_of_le_length h]

theorem rxEos_withSender {m : DataMsg} (head : s.dch = m :: rest) :
    rxEos (withSender w c n acks old s) = (rxEos s).map (withSender w c n acks old) := by
  rw [rxEos_cons head, rxEos_cons (s := withSender w c n acks old s) head]
  rfl

theorem rxMalformed_withSender {m : DataMsg} (head : s.dch = m :: rest) :
    rxMalformed (withSender w c n acks old s) = (rxMalformed s).map (withSender w c n acks old) := by
  rw [rxMalformed_cons head, rxMalformed_cons (s := withSender w c n acks old s) head]
  rfl

/-- No operation of the receiver reads or writes the sender's registers, the clock, or the acks that
stand in `ACH` (R72, R234, R271). -/
theorem exec_withSender {i : Instr} (hi : i ∈ receiverEngineOps) :
    exec i (withSender w c n acks s.ach.length s) =
      mapNext (withSender w c n acks s.ach.length) (exec i s) := by
  have all : s.ach.length ≤ s.ach.length := Nat.le_refl _
  simp only [receiverEngineOps, List.mem_cons, List.not_mem_nil, or_false] at hi
  rcases hi with rfl | rfl | rfl | rfl | rfl
  · refine runOperation_mapNext rfl rfl fun on => ?_
    obtain ⟨-, seq, plen, payload, rest, head, -⟩ := rxAcceptEnabled_iff.mp on
    exact rxAccept_withSender all head
  · refine runOperation_mapNext rfl rfl fun on => ?_
    obtain ⟨-, seq, plen, payload, rest, head, -⟩ := rxRejectEnabled_iff.mp on
    exact rxReject_withSender all head
  · refine runOperation_mapNext rfl rfl fun on => ?_
    obtain ⟨-, rest, head⟩ := rxEosEnabled_iff.mp on
    exact rxEos_withSender head
  · refine runOperation_mapNext rfl rfl fun on => ?_
    obtain ⟨-, seq, plen, payload, rest, head, -⟩ := rxMalformedEnabled_iff.mp on
    exact rxMalformed_withSender head
  · exact runOperation_mapNext rfl rfl fun _ => rfl

end

/-! ### The sender beside any receiver -/

/-- The state with another cursor, receiver's control and sink, and other messages in place of the first
`old` ones: those `DCH` held before the operation. -/
def withReceiver (c : ReceiverCursor) (r : ReceiverControl) (k : Option (List Byte))
    (msgs : List DataMsg) (old : Nat) (t : Machine.State) : Machine.State :=
  { t with cur := c, rcv := r, sink := k, dch := msgs ++ t.dch.drop old }

section
variable {c : ReceiverCursor} {r : ReceiverControl} {k : Option (List Byte)} {msgs : List DataMsg}
  {old : Nat} {s : Machine.State}

theorem withReceiver_self :
    withReceiver c r k msgs s.dch.length s = { s with cur := c, rcv := r, sink := k, dch := msgs } := by
  simp [withReceiver]

@[simp] theorem withReceiver_cfg : (withReceiver c r k msgs old s).cfg = s.cfg := rfl
@[simp] theorem withReceiver_win : (withReceiver c r k msgs old s).win = s.win := rfl
@[simp] theorem withReceiver_now : (withReceiver c r k msgs old s).now = s.now := rfl

@[simp] theorem frameRead_withReceiver (i : Nat) :
    (withReceiver c r k msgs old s).frameRead i = s.frameRead i := rfl

/-- What the sender enqueues stands behind the messages replaced (R69). -/
theorem enqData_withReceiver (h : old ≤ s.dch.length) (m : DataMsg) :
    (withReceiver c r k msgs old s).enqData m = withReceiver c r k msgs old (s.enqData m) := by
  simp [withReceiver, State.enqData, List.drop_append_of_le_length h]

/-- An attempt reads the configuration, the drop flags and the frame store (R150). -/
theorem xmit_withReceiver (h : old ≤ s.dch.length) (now i : Nat) :
    xmit i now (withReceiver c r k msgs old s) = (xmit i now s).map (withReceiver c r k msgs old) := by
  simp only [xmit, withReceiver_cfg, withReceiver_win, frameRead_withReceiver, enqData_withReceiver h]
  by_cases period : s.cfg.dropPeriod = 0
  · rw [if_pos period, if_pos period]
    rfl
  rw [if_neg period, if_neg period]
  cases s.win.droppedOnce[i]? with
  | none => rfl
  | some dropped =>
    cases withheld : shouldDrop i (!dropped) s.cfg.dropPeriod with
    | true =>
      simp only [withheld]
      rfl
    | false =>
      simp only [withheld]
      cases s.frameRead i with
      | error e => rfl
      | ok frame => rfl

/-- A pass reads the acknowledgements besides, and `DCH` only grows under it (R152). -/
theorem sendSlots_withReceiver (h : old ≤ s.dch.length) (now : Nat) (slots : List Nat) :
    sendSlots now slots (withReceiver c r k msgs old s) =
      (sendSlots now slots s).map (withReceiver c r k msgs old) := by
  induction slots generalizing s with
  | nil => rfl
  | cons i slots ih =>
    simp only [sendSlots, withReceiver_win, xmit_withReceiver h]
    cases s.win.acked[i]? with
    | none => rfl
    | some acked =>
      cases acked with
      | true => exact ih h
      | false =>
        cases attempt : xmit i now s with
        | error e => rfl
        | ok t =>
          have grows : old ≤ t.dch.length := by
            rw [(xmit_eq_ok attempt).1, afterAttempt, List.length_append]
            omega
          exact ih grows

theorem sendWindow_withReceiver (h : old ≤ s.dch.length) (now : Nat) :
    sendWindow now (withReceiver c r k msgs old s) =
      (sendWindow now s).map (withReceiver c r k msgs old) :=
  sendSlots_withReceiver h now (activeWindow s)

theorem txFill_withReceiver (h : old ≤ s.dch.length) :
    txFill (withReceiver c r k msgs old s) = (txFill s).map (withReceiver c r k msgs old) := by
  rw [txFill, txFill, withReceiver_now, sendWindow_withReceiver h]
  cases sendWindow s.now s with
  | error e => rfl
  | ok t => rfl

/-- The arbiter reads the stamps, the window and the configuration (R185, R186). -/
theorem expiredOf_withReceiver (now : Nat) (slots : List Nat) :
    expiredOf now (withReceiver c r k msgs old s) slots = expiredOf now s slots := by
  induction slots with
  | nil => rfl
  | cons i slots ih =>
    rw [expiredOf, expiredOf, ih]
    rfl

theorem txPoll_withReceiver (h : old ≤ s.dch.length) :
    txPoll (withReceiver c r k msgs old s) = (txPoll s).map (withReceiver c r k msgs old) := by
  have arbiter : arbitrate s.now (withReceiver c r k msgs old s) = arbitrate s.now s :=
    expiredOf_withReceiver s.now (activeWindow s)
  rw [txPoll, txPoll, withReceiver_now, arbiter]
  cases arbitrate s.now s with
  | error e => rfl
  | ok expired =>
    cases quiet : timeoutAny expired with
    | false => simp only [quiet]; rfl
    | true =>
      have entry : ((withReceiver c r k msgs old s).setLastPoll s.now).enterRetransmission expired =
        withReceiver c r k msgs old ((s.setLastPoll s.now).enterRetransmission expired) := rfl
      simp only [quiet, ↓reduceIte, entry,
        sendWindow_withReceiver (s := (s.setLastPoll s.now).enterRetransmission expired) h]
      cases sendWindow s.now ((s.setLastPoll s.now).enterRetransmission expired) with
      | error e => rfl
      | ok t => rfl

theorem xmitExposed_withReceiver (h : old ≤ s.dch.length) (now : Nat) :
    xmitExposed now (withReceiver c r k msgs old s) =
      (xmitExposed now s).map (withReceiver c r k msgs old) := by
  rw [xmitExposed, xmitExposed, withReceiver_win, withReceiver_cfg]
  cases slideSlot s.win.base s.cfg.windowSize s.cfg.totalFrames with
  | none => rfl
  | some i => exact xmit_withReceiver h now i

/-- An accepted ack moves `base`; what the slide exposes is attempted (R166). -/
theorem ackAccept_withReceiver (h : old ≤ s.dch.length) {a : SignedField} {rest : List SignedField}
    (head : s.ach = a :: rest) :
    ackAccept (withReceiver c r k msgs old s) = (ackAccept s).map (withReceiver c r k msgs old) := by
  have counted : afterAck a rest (withReceiver c r k msgs old s) =
    withReceiver c r k msgs old (afterAck a rest s) := rfl
  rw [ackAccept_cons head, ackAccept_cons (s := withReceiver c r k msgs old s) head, withReceiver_win,
    withReceiver_now, counted, xmitExposed_withReceiver (s := afterAck a rest s) h]
  by_cases slot : s.win.base < s.win.acked.length
  · rw [if_pos slot, if_pos slot]
    cases xmitExposed s.now (afterAck a rest s) with
    | error e => rfl
    | ok t => rfl
  · rw [if_neg slot, if_neg slot]
    rfl

theorem ackIgnore_withReceiver {a : SignedField} {rest : List SignedField} (head : s.ach = a :: rest) :
    ackIgnore (withReceiver c r k msgs old s) = (ackIgnore s).map (withReceiver c r k msgs old) := by
  rw [ackIgnore, ackIgnore, deqAck_cons head, deqAck_cons (s := withReceiver c r k msgs old s) head]
  rfl

/-- The marker joins the tail (R172). -/
theorem txFinish_withReceiver (h : old ≤ s.dch.length) :
    txFinish (withReceiver c r k msgs old s) = (txFinish s).map (withReceiver c r k msgs old) := by
  simp only [txFinish, enqData_withReceiver h]
  rfl

/-- No operation of the sender reads or writes the cursor, the receiver's control state, the sink, or the
messages that stand in `DCH` (R20, R72, R271). -/
theorem exec_withReceiver {i : Instr} (hi : i ∈ senderOps) :
    exec i (withReceiver c r k msgs s.dch.length s) =
      mapNext (withReceiver c r k msgs s.dch.length) (exec i s) := by
  have all : s.dch.length ≤ s.dch.length := Nat.le_refl _
  simp only [senderOps, List.mem_cons, List.not_mem_nil, or_false] at hi
  rcases hi with rfl | rfl | rfl | rfl | rfl | rfl | rfl | rfl
  · exact runOperation_mapNext rfl rfl fun _ => txFill_withReceiver all
  · exact runOperation_mapNext rfl rfl fun _ => txPoll_withReceiver all
  · exact runOperation_mapNext rfl rfl fun _ => txFinish_withReceiver all
  · exact runOperation_mapNext rfl rfl fun _ => rfl
  · refine runOperation_mapNext rfl rfl fun on => ?_
    obtain ⟨-, a, rest, head, -⟩ := txaAckAcceptEnabled_iff.mp on
    exact ackAccept_withReceiver all head
  · refine runOperation_mapNext rfl rfl fun on => ?_
    obtain ⟨-, a, rest, head, -⟩ := txaAckIgnoreEnabled_iff.mp on
    exact ackIgnore_withReceiver head
  · exact runOperation_mapNext rfl rfl fun _ => rfl
  · exact runOperation_mapNext rfl rfl fun _ => rfl

end

/-- Settles O38: each operation commutes with the replacement of what the other engine owns, of the clock
for the receiver, and of what stands in the channel the operation only enqueues to. -/
theorem neitherEngineReadsOrWritesTheOther : Obligations.NeitherEngineReadsOrWritesTheOther := by
  refine ⟨fun i s w c n acks hi => ?_, fun i s c r k msgs hi => ?_⟩
  · rw [← withSender_self]
    exact exec_withSender hi
  · rw [← withReceiver_self]
    exact exec_withReceiver hi

end Sys2Proof.Proofs
